-- ==== Sys2Proof/Word.lean ====
section
/-! DEFINITION. The word types of CKF16 (R15): bytes, 16-bit lengths and checksums, 32-bit registers. All are
unsigned. -/

namespace Sys2Proof

/-- A byte of data memory or of a frame (R15). -/
abbrev Byte := BitVec 8

/-- A 16-bit value: the checksum state, a length, a capacity, an offset (R13, R31). -/
abbrev Half := BitVec 16

/-- A 32-bit register-port word or command word (R26, R69). -/
abbrev Word := BitVec 32

end Sys2Proof
end

