-- ==== Sys2Proof/Syntax.lean ====
section
/-! DEFINITION. The commands of CKF16: one constructor for each row of spec/opcode_table.json (R72). Every operand
but IMM8 is an implicit register (R78), so only CRC_BYTE carries one. -/

namespace Sys2Proof

/-- The nine commands (R72). -/
inductive Instr where
  /-- CRC_INIT, OP 0x1 (R99). -/
  | crcInit
  /-- CRC_BYTE, OP 0x2, with IMM8 the byte to accumulate (R100, R71). -/
  | crcByte (imm8 : Byte)
  /-- CRC_SPAN, OP 0x3 (R101). -/
  | crcSpan
  /-- APPEND, OP 0x4 (R107). -/
  | append
  /-- SER_ENC, OP 0x5 (R113). -/
  | serEnc
  /-- SER_DEC, OP 0x6 (R116). -/
  | serDec
  /-- RAD_ENC, OP 0x7 (R123). -/
  | radEnc
  /-- RAD_DEC, OP 0x8 (R126). -/
  | radDec
  /-- KIND_CHECK, OP 0x9 (R131). -/
  | kindCheck
deriving DecidableEq, Repr

end Sys2Proof
end

