-- ==== Sys2Proof/WellFormed.lean ====
section
/-! DEFINITION. Well-formedness. An `Instr` is well formed by its type: IMM8 is a byte (R71) and nothing else is an
operand (R78). What can be ill formed is a command WORD, and this file says when it is not, as R73 words it: four
checks on the fields of R70. The decoder is written apart, from the opcode map (R72). -/

namespace Sys2Proof

/-- Check 1 of R73: OP is one of the nine defined operations. -/
def opDefined (w : Word) : Bool :=
  1 ≤ (w.extractLsb' 0 4).toNat && (w.extractLsb' 0 4).toNat ≤ 9

/-- Check 2 of R73: RSV0 = CMD[7:4] is zero. -/
def rsv0Zero (w : Word) : Bool := w.extractLsb' 4 4 == 0#4

/-- Check 3 of R73: RSV1 = CMD[31:16] is zero. -/
def rsv1Zero (w : Word) : Bool := w.extractLsb' 16 16 == 0#16

/-- Check 4 of R73: IMM8 = CMD[15:8] is zero unless OP is CRC_BYTE's. -/
def imm8Allowed (w : Word) : Bool := w.extractLsb' 8 8 == 0#8 || w.extractLsb' 0 4 == 2#4

/-- A command word is well formed iff it is not illegal (R73). -/
def wordWellFormed (w : Word) : Bool :=
  opDefined w && rsv0Zero w && rsv1Zero w && imm8Allowed w

end Sys2Proof
end

