-- ==== Sys2Proof/Decode.lean ====
section
/-! DEFINITION. The command decoder, total on every 32-bit word (R83), and the encoder, both written from R70 and
R72. Decoding reads only the word. -/

namespace Sys2Proof

/-- Why a word is illegal (R73). STATUS does not tell them apart (R136). -/
inductive Illegal where
  /-- OP ∈ {0x0, 0xA to 0xF}. -/
  | reservedOp
  /-- CMD[7:4] ≠ 0. -/
  | rsv0
  /-- CMD[31:16] ≠ 0. -/
  | rsv1
  /-- CMD[15:8] ≠ 0 and OP ≠ 0x2. -/
  | imm8
deriving DecidableEq, Repr

/-- OP = CMD[3:0] (R70). -/
def opField (w : Word) : BitVec 4 := w.extractLsb' 0 4

/-- RSV0 = CMD[7:4] (R70). -/
def rsv0Field (w : Word) : BitVec 4 := w.extractLsb' 4 4

/-- IMM8 = CMD[15:8] (R70, R71). -/
def imm8Field (w : Word) : Byte := w.extractLsb' 8 8

/-- RSV1 = CMD[31:16] (R70). -/
def rsv1Field (w : Word) : Half := w.extractLsb' 16 16

/-- The opcode map R72: what OP stands for, given the IMM8 field; `none` for a reserved OP. -/
def opcodeMap (op : BitVec 4) (imm8 : Byte) : Option Instr :=
  match op.toNat with
  | 0x1 => some .crcInit
  | 0x2 => some (.crcByte imm8)
  | 0x3 => some .crcSpan
  | 0x4 => some .append
  | 0x5 => some .serEnc
  | 0x6 => some .serDec
  | 0x7 => some .radEnc
  | 0x8 => some .radDec
  | 0x9 => some .kindCheck
  | _ => none

/-- The decoder: exactly one command, or illegal by name (R73, R83). -/
def decode (w : Word) : Except Illegal Instr :=
  if rsv0Field w ≠ 0#4 then .error .rsv0
  else if rsv1Field w ≠ 0#16 then .error .rsv1
  else
    match opcodeMap (opField w) (imm8Field w) with
    | none => .error .reservedOp
    | some i => if imm8Field w ≠ 0#8 ∧ opField w ≠ 0x2#4 then .error .imm8 else .ok i

/-- The OP number of a command (R72). -/
def opOf (i : Instr) : BitVec 4 :=
  match i with
  | .crcInit => 0x1#4
  | .crcByte _ => 0x2#4
  | .crcSpan => 0x3#4
  | .append => 0x4#4
  | .serEnc => 0x5#4
  | .serDec => 0x6#4
  | .radEnc => 0x7#4
  | .radDec => 0x8#4
  | .kindCheck => 0x9#4

/-- The IMM8 field of a command's word: zero for all but CRC_BYTE (R71). -/
def imm8Of (i : Instr) : Byte :=
  match i with
  | .crcByte imm8 => imm8
  | .crcInit | .crcSpan | .append | .serEnc | .serDec | .radEnc | .radDec | .kindCheck => 0x00#8

/-- The word of a command: RSV1 = 0, IMM8, RSV0 = 0, OP from bit 31 down (R70). -/
def encode (i : Instr) : Word := 0#16 ++ imm8Of i ++ 0#4 ++ opOf i

/-- The instruction read from a table word of `nbits` bits, bits above them zero. A command is one 32-bit word (R69). -/
def decodeTableWord (nbits w : Nat) : Option Instr :=
  if w % 2 ^ nbits < 2 ^ 32 then
    match decode (BitVec.ofNat 32 (w % 2 ^ nbits)) with
    | .ok i => some i
    | .error _ => none
  else none

end Sys2Proof
end

