-- ==== Sys2Proof/Config.lean ====
section
/-! DEFINITION. What an instance fixes (the OPEN parameters, R7, R10 to R12, R59) and the free values of the model.

The OPEN parameters are the fields of the structure `Config`. A state carries one (log 1), so a statement about
every state holds of every instance. The free values have no body: nothing can be proved of their results. -/

namespace Sys2Proof

/-- The parameters of one instance, constants that no step changes (R24). SERIAL_MAGIC is no parameter (R6). -/
structure Config where
  /-- RADIO_MAGIC (R7, D5). -/
  radioMagic : Byte
  /-- KIND_COUNT, the number of valid message kinds (R10, D6). -/
  kindCount : Byte
  /-- REGISTRY_VERSION (R11, D7); no rule reads it but CONFIG's layout. -/
  registryVersion : Byte
  /-- ADDR_W, the width of a data-memory address (R12, D8). -/
  addrW : Nat
  /-- REG_BASE, the platform's address of the register window (R59, D1). -/
  regBase : Nat
deriving DecidableEq, Repr

/-- The constraints the spec puts on the parameters: RADIO_MAGIC ≠ 0x7E (R7), 5 ≤ KIND_COUNT ≤ 255 (R10; the
upper bound is the field's width), 1 ≤ ADDR_W ≤ 32 (R12). -/
abbrev Config.wf (c : Config) : Prop :=
  c.radioMagic ≠ 0x7E#8 ∧ 5 ≤ c.kindCount.toNat ∧ 1 ≤ c.addrW ∧ c.addrW ≤ 32

/-- DESIGN CHOICE, log 1: the instance of `State.reset`, the spec's own test instantiation (92_eei_decisions.md,
95_test_vectors.md section 0). No value of it is the hardware's. -/
def Config.testInstance : Config :=
  { radioMagic := 0xA5#8, kindCount := 10#8, registryVersion := 0x01#8, addrW := 32, regBase := 0 }

/-- Free value (log 8): the byte a MemRead returns where another agent may write during the command (R57, U14), the
byte a device answers the host (R64), the byte a command without a step would have written (R154, log 13). First
argument: the counter `State.draws`. Second: the number of the read within the command, or the byte's address. -/
opaque Config.freeByte : Nat → Nat → Byte

/-- Free value (log 8): what a register read returns while BUSY = 1 where the spec leaves it unspecified (R161,
U3), before the unimplemented bits are cleared. Argument: the counter `State.draws`. -/
opaque Config.freeWord : Nat → Word

/-- Free value (log 8): whether a byte of an abandoned command's write span was written before the reset (R154,
U8). First argument: the counter `State.draws`. Second: the number of the byte within the span. -/
opaque Config.freeBit : Nat → Nat → Bool

end Sys2Proof
end

