-- ==== Sys2Proof/Machine/State.lean ====
section
/-! DEFINITION. The state of one CKF16 instance with the data memory, the host's pending bus operations and what
the platform around it is doing (R23, R24), the reasons a step stops, and the state after reset (R153). -/

namespace Sys2Proof.Machine

open Sys2Proof

/-- The result codes of R135. Codes 9 to 15 are never produced (U13) and have no constructor. -/
inductive Result where
  | ok
  | bufferTooSmall
  | frameTooShort
  | magicMismatch
  | checksumMismatch
  | invalidMessageKind
  | lengthMismatch
  | illegalCommand
  | addressRange
deriving DecidableEq, Repr

/-- A span (a, n): the addresses a, a+1, ..., a+n−1 (R19). -/
structure Span where
  start : Nat
  len : Nat
deriving DecidableEq, Repr

/-- What a part of the address space is when it is no ordinary memory (log 9). -/
inductive RegionKind where
  /-- A device with read side effects (R56, U7). -/
  | device
  /-- The platform does not complete an access there: bus error, unmapped (R57, U6). -/
  | unmapped
  /-- Another agent may write there during a command, so a read returns any value (R57, U14). -/
  | shared
deriving DecidableEq, Repr

/-- A part of the data-memory address space that is no ordinary memory. -/
structure Region where
  span : Span
  kind : RegionKind
deriving DecidableEq, Repr

/-- A span that a command running in another CKF16 instance reads, or (`writes`) writes (R148). The spec has no
identifiers for instances: `owner` is the model's number for the instance (log 10). -/
structure Claim where
  owner : Nat
  span : Span
  writes : Bool
deriving DecidableEq, Repr

/-- The agents that step (R23). -/
inductive Agent where
  | host
  | engine
deriving DecidableEq, Repr

/-- The width of a register-port access. Only `word` has a meaning (R53). -/
inductive Width where
  | byte
  | half
  | word
  | double
deriving DecidableEq, Repr

/-- One operation of the world outside the engine: the host's bus operations (R84, R85), the reset input (R153),
and the start and end of commands in other instances (R148). -/
inductive HostOp where
  /-- A register-port read at an offset of the window (R27). -/
  | portRead (off : Byte) (width : Width)
  /-- A register-port write at an offset of the window (R27). -/
  | portWrite (off : Byte) (width : Width) (v : Word)
  /-- The loop of `wait`: read STATUS, again while BUSY = 1 (R85). -/
  | poll
  /-- A data-memory byte read over the platform's bus (R64). -/
  | memRead (addr : Nat)
  /-- A data-memory byte write over the platform's bus (R64, R84 `mem`). -/
  | memWrite (addr : Nat) (b : Byte)
  /-- The spans of the commands now running in other instances, and the bytes that those running so far have written
  to the shared data memory, oldest first (R148; log 10). -/
  | claims (cs : List Claim) (written : List Host.Cell)
  /-- The reset input is asserted and released (R153). -/
  | resetInput
deriving DecidableEq, Repr

/-- What a read of the host returned: the host variables of R84. -/
inductive Reply where
  | port (v : Word)
  | mem (b : Byte)
deriving DecidableEq, Repr

/-- The data memory (R47): the bytes that differ from what an unlisted address reads as, by strictly rising
address. -/
abbrev Memory := List Host.Cell

/-- The state. Where the spec gives a name, the docstring gives it; log 3, 4, 7, 8, 9 and 10 speak of the fields
that are the model's own. -/
structure State where
  /-- The parameters of the instance, constants (R24, log 1). -/
  cfg : Config
  /-- STATUS.RESULT (R29). -/
  result : Result
  /-- STATUS.LAST_OP (R29). -/
  lastOp : BitVec 4
  /-- STATUS.BUSY (R29). -/
  busy : Bool
  /-- PENDING, valid while BUSY = 1 (R44). -/
  pending : Word
  /-- CRC_ACC (R31). -/
  crcAcc : Half
  /-- SRC_ADDR (R32). -/
  srcAddr : Word
  /-- SRC_LEN (R33). -/
  srcLen : Half
  /-- DST_ADDR (R34). -/
  dstAddr : Word
  /-- DST_LEN (R35). -/
  dstLen : Half
  /-- DST_OFF (R36). -/
  dstOff : Half
  /-- PAY_ADDR (R37). -/
  payAddr : Word
  /-- REC_KIND (R38). -/
  recKind : Byte
  /-- REC_LEN (R39). -/
  recLen : Byte
  /-- REC_SEQ (R40). -/
  recSeq : Byte
  /-- REC_SRCID (R41). -/
  recSrcId : Byte
  /-- REC_DSTID (R42). -/
  recDstId : Byte
  /-- The engine's working offset (R44; log 7). -/
  workOff : Half
  /-- The engine's working checksum register (R44; log 7). -/
  workCrc : Half
  /-- The data memory (R24, R47). -/
  mem : Memory
  /-- Where the data memory is not ordinary (R56, R57; log 9). -/
  regions : List Region
  /-- The spans claimed by other instances' running commands (R148; log 10). -/
  others : List Claim
  /-- The operations of the outside world still to come, oldest first (R85; log 4). -/
  bus : List HostOp
  /-- Which agent moves next; when empty, the engine if BUSY = 1, else the host (log 3). -/
  turns : List Agent
  /-- What the host's reads returned, oldest first (R84; log 4). -/
  replies : List Reply
  /-- The counter the free values are applied to (log 8). -/
  draws : Nat
deriving DecidableEq, Repr

/-- The machine stops: no step is defined. -/
inductive Fault where
  /-- Stuck: the platform does not complete a data-memory access (R57, R151, U6). Raised by every command that
  accesses data memory and by the host's own data-memory accesses. Safe: no outcome is assumed. -/
  | accessNotCompleted
  /-- The host accesses a data-memory address at or above 2^ADDR_W, which does not exist (R47). Raised by the host's
  data-memory accesses. Safe. -/
  | noSuchAddress
deriving DecidableEq, Repr

/-- The model gives no meaning (R151). -/
inductive Refusal where
  /-- An instruction without a meaning in `exec`. Raised by no arm of this model. Safe. -/
  | notModelled (mnemonic : String)
  /-- The command's read span overlaps its write buffer (R81, U1). Raised by APPEND, SER_ENC, RAD_ENC, SER_DEC and
  RAD_DEC. Safe. -/
  | overlap
  /-- A span of the command lies on memory with read side effects (R56, R151, U7). Raised by every command with a
  span. Safe. -/
  | deviceSpan
  /-- Spans of commands running in two instances collide (R148, U9; log 10). Raised by every command with a span, and
  by the event that announces the other instances' spans. Safe. -/
  | otherInstance
  /-- A register-port access that is not an aligned 32-bit access (R53, U5). Raised by the host's register accesses.
  Safe. -/
  | portAccessForm
  /-- A host register write while BUSY = 1 (R160, U2). Raised by the host's register writes. Safe. -/
  | registerWriteWhileBusy
  /-- A host data-memory access inside the spans of a running command (R162, U4; R148). Raised by the host's
  data-memory accesses. Safe. -/
  | accessToRunningSpan
deriving DecidableEq, Repr

/-- The machine right after reset (R153; the reset column of R26): idle, every register at its reset value. The
instance, the memory and the fields of the model are at the values of log 1 to 10. -/
def State.reset : State :=
  { cfg := Config.testInstance
    result := .ok, lastOp := 0#4, busy := false, pending := 0#32
    crcAcc := 0xFFFF#16
    srcAddr := 0#32, srcLen := 0#16, dstAddr := 0#32, dstLen := 0#16, dstOff := 0#16, payAddr := 0#32
    recKind := 0#8, recLen := 0#8, recSeq := 0#8, recSrcId := 0#8, recDstId := 0#8
    workOff := 0#16, workCrc := 0#16
    mem := [], regions := [], others := [], bus := [], turns := [], replies := [], draws := 0 }

end Sys2Proof.Machine
end

