-- ==== Sys2Proof/Machine/Ops.lean ====
section
/-! DEFINITION. The shared operations: the data memory and its one canonical form, spans (R19), MemRead and MemWrite
with what the platform does to them (R56, R57), ending a command (R82, R136: the one operation every error and every
success goes through; CKF16 takes no traps, R141), and the bounded append (R103). -/

namespace Sys2Proof.Machine

open Sys2Proof

/-- A value, or the reason there is none. -/
abbrev Res (α : Type) := Host.Outcome α Fault Refusal

/-- Go on with the value, or stop for the same reason. -/
def andThen {α β : Type} (x : Res α) (f : α → Res β) : Res β :=
  match x with
  | .next a => f a
  | .fault r => .fault r
  | .refused r => .refused r

/-! ### Bytes of a 16-bit value (R17, R50) -/

/-- lo(v) = v[7:0] (R17). -/
def lo (v : Half) : Byte := v.extractLsb' 0 8

/-- hi(v) = v[15:8] (R17). -/
def hi (v : Half) : Byte := v.extractLsb' 8 8

/-- The 16-bit value of a low and a high byte: `low | (high << 8)` (R50). -/
def half (low high : Byte) : Half := low.setWidth 16 ||| (high.setWidth 16 <<< 8)

/-! ### The data memory -/

/-- What an address that the memory does not list reads as. DESIGN CHOICE, log 2: no reset value is given (R155). -/
def unlistedByte : Byte := 0x00#8

/-- The byte at an address. -/
def Memory.read : Memory → Nat → Byte
  | [], _ => unlistedByte
  | (k, b) :: m, a => if k = a then b else Memory.read m a

/-- Store a byte, keeping the canonical form. -/
def Memory.write : Memory → Nat → Byte → Memory
  | [], a, b => if b = unlistedByte then [] else [(a, b)]
  | (k, c) :: m, a, b =>
    if a < k then
      if b = unlistedByte then (k, c) :: m else (a, b) :: (k, c) :: m
    else if a = k then
      if b = unlistedByte then m else (a, b) :: m
    else (k, c) :: Memory.write m a b

/-- Store bytes from an address upward, in order (R106). -/
def Memory.writeList : Memory → Nat → List Byte → Memory
  | m, _, [] => m
  | m, a, b :: bs => Memory.writeList (Memory.write m a b) (a + 1) bs

/-- The canonical form: strictly rising addresses, and no entry equal to what an unlisted address reads as. -/
abbrev Memory.wf (m : Memory) : Prop :=
  m.Pairwise (fun x y => x.1 < y.1) ∧ ∀ c ∈ m, c.2 ≠ unlistedByte

/-! ### Spans (R19) -/

/-- The span is in range: a + n ≤ 2^ADDR_W, exactly (R19). -/
def Span.inRange (sp : Span) (addrW : Nat) : Bool := sp.start + sp.len ≤ 2 ^ addrW

/-- Two spans overlap: both are non-empty and share an address (R19). -/
def Span.overlaps (x y : Span) : Bool :=
  0 < x.len && 0 < y.len && x.start < y.start + y.len && y.start < x.start + x.len

/-- An address lies in a span. -/
def Span.contains (sp : Span) (a : Nat) : Bool := sp.start ≤ a && a < sp.start + sp.len

/-- A span shares an address with a region of this kind (R56, R57; log 9). -/
def State.touches (s : State) (k : RegionKind) (sp : Span) : Bool :=
  s.regions.any fun r => r.kind == k && r.span.overlaps sp

/-- A command that reads `reads` and writes `writes` collides with a command of another instance: one of them writes
where the other reads or writes (R148). -/
def State.claimed (s : State) (reads writes : List Span) : Bool :=
  s.others.any fun c =>
    writes.any (fun sp => c.span.overlaps sp) || (c.writes && reads.any fun sp => c.span.overlaps sp)

/-! ### MemRead and MemWrite (R18, R54, R57) -/

/-- The byte that the `k`-th read of this step returns at address a: the memory's, or any value where another agent
may write (R57, U14; log 8). -/
def State.byteAt (s : State) (k a : Nat) : Byte :=
  if s.touches .shared ⟨a, 1⟩ then Config.freeByte s.draws k else s.mem.read a

/-- bytes(a, n) (R18), the reads numbered from k. -/
def State.bytes (s : State) (k a : Nat) : Nat → List Byte
  | 0 => []
  | n + 1 => s.byteAt k a :: State.bytes s (k + 1) (a + 1) n

/-- Read a span, lowest address first; stuck where the platform completes no access (R57). -/
def readBytes (k a n : Nat) (s : State) : Res (List Byte) :=
  if s.touches .unmapped ⟨a, n⟩ then .fault .accessNotCompleted else .next (s.bytes k a n)

/-- Read one byte (R54). -/
def readByte (k a : Nat) (s : State) : Res Byte :=
  if s.touches .unmapped ⟨a, 1⟩ then .fault .accessNotCompleted else .next (s.byteAt k a)

/-- The state with another memory. -/
def State.withMem (s : State) (m : Memory) : State := { s with mem := m }

/-- Write bytes from an address upward; stuck where the platform completes no access (R57). -/
def writeBytes (a : Nat) (bs : List Byte) (s : State) : Res State :=
  if s.touches .unmapped ⟨a, bs.length⟩ then .fault .accessNotCompleted
  else .next (s.withMem (s.mem.writeList a bs))

/-! ### Register updates of the commands (R78) -/

/-- CRC_ACC ← v. -/
def State.withCrcAcc (s : State) (v : Half) : State := { s with crcAcc := v }

/-- DST_LEN ← v. -/
def State.withDstLen (s : State) (v : Half) : State := { s with dstLen := v }

/-- DST_OFF ← v. -/
def State.withDstOff (s : State) (v : Half) : State := { s with dstOff := v }

/-- REC_KIND and REC_LEN ← the decoded kind and length. -/
def State.withRecord (s : State) (kind len : Byte) : State := { s with recKind := kind, recLen := len }

/-- REC_SEQ, REC_SRCID and REC_DSTID ← the decoded radio header fields. -/
def State.withIds (s : State) (seq src dst : Byte) : State :=
  { s with recSeq := seq, recSrcId := src, recDstId := dst }

/-- The working offset ← v (R44, log 7). -/
def State.withWorkOff (s : State) (v : Half) : State := { s with workOff := v }

/-- The working checksum ← v (R44, log 7). -/
def State.withWorkCrc (s : State) (v : Half) : State := { s with workCrc := v }

/-! ### Ending a command (R82, R136) -/

/-- The command ends: its result code goes to STATUS.RESULT, BUSY is cleared, nothing else of the machine changes
(R82, R136). The free-value counter moves on, so that the next step's free values are others (log 8). -/
def State.complete (s : State) (r : Result) : State :=
  { s with result := r, busy := false, draws := s.draws + 1 }

/-- `raise X()`: the command ends with X; what it changed before stays changed (R18, R136). -/
def raise (r : Result) (s : State) : Res State := .next (s.complete r)

/-- `finish OK` (R18). -/
def finishOk (s : State) : Res State := .next (s.complete .ok)

/-! ### The bounded append (R103) -/

/-- What an append leaves: whether it fitted, the new offset, the state. -/
abbrev Appended := Bool × Nat × State

/-- bounded_append(d, cap, off, s) with k = len(s) (R103), sums exact (D19). The source is read only when the append
succeeds with k > 0 (R107; for the frame encoders log 19). -/
def boundedAppend (d cap off k : Nat) (source : Res (List Byte)) (s : State) : Res Appended :=
  if k = 0 then .next (true, off, s)
  else if off + k > cap then .next (false, off, s)
  else andThen source fun bs => andThen (writeBytes (d + off) bs s) fun s' => .next (true, off + k, s')

end Sys2Proof.Machine
end

