-- ==== Sys2Proof/Machine/Flags.lean ====
section
/-! DEFINITION. The status flags: CKF16 has no condition codes (R43). STATUS and CONFIG as 32-bit words (R29, R30),
the numbers of the result codes (R135), and SERIAL_MAGIC (R6). -/

namespace Sys2Proof.Machine

open Sys2Proof

/-- SERIAL_MAGIC (R6, R108; unaudited in the source, U12, log 23). -/
def serialMagic : Byte := 0x7E#8

/-- The number of a result code in STATUS.RESULT (R135). -/
def Result.code (r : Result) : BitVec 4 :=
  match r with
  | .ok => 0#4
  | .bufferTooSmall => 1#4
  | .frameTooShort => 2#4
  | .magicMismatch => 3#4
  | .checksumMismatch => 4#4
  | .invalidMessageKind => 5#4
  | .lengthMismatch => 6#4
  | .illegalCommand => 7#4
  | .addressRange => 8#4

/-- STATUS: [31:9] zero, BUSY [8], LAST_OP [7:4], RESULT [3:0] (R29). -/
def State.statusWord (s : State) : Word := 0#23 ++ BitVec.ofBool s.busy ++ s.lastOp ++ s.result.code

/-- CONFIG: REGISTRY_VERSION [31:24], RADIO_MAGIC [23:16], SERIAL_MAGIC [15:8], KIND_COUNT [7:0] (R30). -/
def configWord (c : Config) : Word := c.registryVersion ++ c.radioMagic ++ serialMagic ++ c.kindCount

/-- A kind byte is valid iff it is less than KIND_COUNT, unsigned (R130). -/
def kindValid (c : Config) (kind : Byte) : Bool := kind.toNat < c.kindCount.toNat

end Sys2Proof.Machine
end

