-- ==== Sys2Proof/Machine/Operands.lean ====
section
/-! DEFINITION. The operands. First the registers as the register port sees them (R26, R27): offset, implemented
bits, reading, writing. Then the spans a command's operands name (R48, R58, R81) and the stages every command passes
before its own rule (R80). -/

namespace Sys2Proof.Machine

open Sys2Proof

/-! ### The register map (R26) -/

/-- The implemented registers (R26). -/
inductive Reg where
  | cmd
  | status
  | config
  | crcAcc
  | srcAddr
  | srcLen
  | dstAddr
  | dstLen
  | dstOff
  | payAddr
  | recKind
  | recLen
  | recSeq
  | recSrcId
  | recDstId
deriving DecidableEq, Repr

/-- The offset of a register (R26). -/
def Reg.offset (r : Reg) : Byte :=
  match r with
  | .cmd => 0x00#8
  | .status => 0x04#8
  | .config => 0x08#8
  | .crcAcc => 0x0C#8
  | .srcAddr => 0x10#8
  | .srcLen => 0x14#8
  | .dstAddr => 0x18#8
  | .dstLen => 0x1C#8
  | .dstOff => 0x20#8
  | .payAddr => 0x24#8
  | .recKind => 0x28#8
  | .recLen => 0x2C#8
  | .recSeq => 0x30#8
  | .recSrcId => 0x34#8
  | .recDstId => 0x38#8

/-- The register at an aligned offset; `none` at the reserved offsets 0x3C to 0xFC (R26). -/
def Reg.ofOffset (off : Byte) : Option Reg :=
  match off.toNat with
  | 0x00 => some .cmd
  | 0x04 => some .status
  | 0x08 => some .config
  | 0x0C => some .crcAcc
  | 0x10 => some .srcAddr
  | 0x14 => some .srcLen
  | 0x18 => some .dstAddr
  | 0x1C => some .dstLen
  | 0x20 => some .dstOff
  | 0x24 => some .payAddr
  | 0x28 => some .recKind
  | 0x2C => some .recLen
  | 0x30 => some .recSeq
  | 0x34 => some .recSrcId
  | 0x38 => some .recDstId
  | _ => none

/-- Bits [ADDR_W-1:0] of a word, the higher ones zero (R32, R34, R37). -/
def keepAddress (c : Config) (v : Word) : Word := BitVec.ofNat 32 (v.toNat % 2 ^ c.addrW)

/-- The word with the bits the register does not implement cleared (R26, R27 (b)). CMD: all 32 bits (log 15). -/
def Reg.keep (c : Config) (r : Reg) (v : Word) : Word :=
  match r with
  | .cmd => v
  | .status => v &&& 0x000001FF#32
  | .config => v
  | .crcAcc | .srcLen | .dstLen | .dstOff => v &&& 0x0000FFFF#32
  | .srcAddr | .dstAddr | .payAddr => keepAddress c v
  | .recKind | .recLen | .recSeq | .recSrcId | .recDstId => v &&& 0x000000FF#32

/-- What a register reads as (R26 to R42). CMD reads as zero (R28). -/
def readReg (r : Reg) (s : State) : Word :=
  match r with
  | .cmd => 0#32
  | .status => s.statusWord
  | .config => configWord s.cfg
  | .crcAcc => s.crcAcc.setWidth 32
  | .srcAddr => s.srcAddr
  | .srcLen => s.srcLen.setWidth 32
  | .dstAddr => s.dstAddr
  | .dstLen => s.dstLen.setWidth 32
  | .dstOff => s.dstOff.setWidth 32
  | .payAddr => s.payAddr
  | .recKind => s.recKind.setWidth 32
  | .recLen => s.recLen.setWidth 32
  | .recSeq => s.recSeq.setWidth 32
  | .recSrcId => s.recSrcId.setWidth 32
  | .recDstId => s.recDstId.setWidth 32

/-- A write of w to CMD while BUSY = 0: PENDING ← w, LAST_OP ← w[3:0], BUSY ← 1, RESULT kept (R79). -/
def State.startCommand (s : State) (w : Word) : State :=
  { s with pending := w, lastOp := opField w, busy := true }

/-- A write to a register while BUSY = 0: the implemented bits are kept, a write to a read-only register is ignored,
a write to CMD starts a command (R27, R79). -/
def writeReg (r : Reg) (v : Word) (s : State) : State :=
  match r with
  | .cmd => s.startCommand v
  | .status => s
  | .config => s
  | .crcAcc => s.withCrcAcc (v.setWidth 16)
  | .srcAddr => { s with srcAddr := keepAddress s.cfg v }
  | .srcLen => { s with srcLen := v.setWidth 16 }
  | .dstAddr => { s with dstAddr := keepAddress s.cfg v }
  | .dstLen => s.withDstLen (v.setWidth 16)
  | .dstOff => s.withDstOff (v.setWidth 16)
  | .payAddr => { s with payAddr := keepAddress s.cfg v }
  | .recKind => { s with recKind := v.setWidth 8 }
  | .recLen => { s with recLen := v.setWidth 8 }
  | .recSeq => { s with recSeq := v.setWidth 8 }
  | .recSrcId => { s with recSrcId := v.setWidth 8 }
  | .recDstId => { s with recDstId := v.setWidth 8 }

/-- The platform's address of an offset of the register window (R59, D1). -/
def windowAddress (c : Config) (off : Byte) : Nat := c.regBase + off.toNat

/-- The window offset of a platform address; `none` outside the 256 bytes of the window (R26, R59). -/
def windowOffset (c : Config) (a : Nat) : Option Byte :=
  if c.regBase ≤ a ∧ a < c.regBase + 256 then some (BitVec.ofNat 8 (a - c.regBase)) else none

/-! ### The spans of the operands -/

/-- (SRC_ADDR, SRC_LEN) (R32, R33). -/
def State.srcSpan (s : State) : Span := ⟨s.srcAddr.toNat, s.srcLen.toNat⟩

/-- (DST_ADDR, DST_LEN) (R34, R35). -/
def State.dstSpan (s : State) : Span := ⟨s.dstAddr.toNat, s.dstLen.toNat⟩

/-- (PAY_ADDR, REC_LEN), the payload an encoder reads (R37, R39). -/
def State.paySpan (s : State) : Span := ⟨s.payAddr.toNat, s.recLen.toNat⟩

/-- (PAY_ADDR, 255), the output area of a decoder (R37, D28). -/
def State.payArea (s : State) : Span := ⟨s.payAddr.toNat, 255⟩

/-- (DST_ADDR + DST_OFF, SRC_LEN), where an APPEND that fits writes (R48, R106). -/
def State.appendSpan (s : State) : Span := ⟨s.dstAddr.toNat + s.dstOff.toNat, s.srcLen.toNat⟩

/-- The "Span checks" line of a command (R99, R100, R101, R107, R113, R116, R123, R126, R131). -/
def checkedSpans (i : Instr) (s : State) : List Span :=
  match i with
  | .crcInit => []
  | .crcByte _ => []
  | .crcSpan => [s.srcSpan]
  | .append => [s.srcSpan, s.dstSpan]
  | .serEnc => [s.paySpan, s.dstSpan]
  | .serDec => [s.srcSpan, s.payArea]
  | .radEnc => [s.paySpan, s.dstSpan]
  | .radDec => [s.srcSpan, s.payArea]
  | .kindCheck => []

/-- The read span and the write buffer that must not overlap (R81). -/
def overlapPair (i : Instr) (s : State) : Option (Span × Span) :=
  match i with
  | .crcInit => none
  | .crcByte _ => none
  | .crcSpan => none
  | .append => some (s.srcSpan, s.dstSpan)
  | .serEnc => some (s.paySpan, s.dstSpan)
  | .serDec => some (s.srcSpan, s.payArea)
  | .radEnc => some (s.paySpan, s.dstSpan)
  | .radDec => some (s.srcSpan, s.payArea)
  | .kindCheck => none

/-- The spans a command may read (R48, column "reads"). -/
def readSpans (i : Instr) (s : State) : List Span :=
  match i with
  | .crcInit => []
  | .crcByte _ => []
  | .crcSpan => [s.srcSpan]
  | .append => [s.srcSpan]
  | .serEnc => [s.paySpan, ⟨s.dstAddr.toNat, 3 + s.recLen.toNat⟩]
  | .serDec => [s.srcSpan]
  | .radEnc => [s.paySpan, ⟨s.dstAddr.toNat, 6 + s.recLen.toNat⟩]
  | .radDec => [s.srcSpan]
  | .kindCheck => []

/-- The spans a command may write (R48, column "writes"). APPEND: only if it fits (R105). A decoder: the payload has
the length L − 5, or L − 8, when the result is OK (R114, R124), and none is longer than 255; DEDUCED, log 14. -/
def writeSpans (i : Instr) (s : State) : List Span :=
  match i with
  | .crcInit => []
  | .crcByte _ => []
  | .crcSpan => []
  | .append => if s.dstOff.toNat + s.srcLen.toNat ≤ s.dstLen.toNat then [s.appendSpan] else []
  | .serEnc => [⟨s.dstAddr.toNat, 5 + s.recLen.toNat⟩]
  | .serDec => if s.srcLen.toNat ≤ 260 then [⟨s.payAddr.toNat, s.srcLen.toNat - 5⟩] else []
  | .radEnc => [⟨s.dstAddr.toNat, 8 + s.recLen.toNat⟩]
  | .radDec => if s.srcLen.toNat ≤ 263 then [⟨s.payAddr.toNat, s.srcLen.toNat - 8⟩] else []
  | .kindCheck => []

/-- The read span overlaps the write buffer (R80 stage 3, R81). -/
def spansOverlap (i : Instr) (s : State) : Bool :=
  match overlapPair i s with
  | none => false
  | some (x, y) => x.overlaps y

/-- Stages 2 and 3 of R80, then the command's own rule `op`: span range (R58), overlap (R81), and the model's other
refusals of R151 (device spans R56, other instances R148; their place after the overlap: log 12). -/
def runStages (i : Instr) (op : State → Res State) (s : State) : Res State :=
  if !(checkedSpans i s).all (fun sp => sp.inRange s.cfg.addrW) then raise .addressRange s
  else if spansOverlap i s then .refused .overlap
  else if (checkedSpans i s).any (fun sp => s.touches .device sp) then .refused .deviceSpan
  else if s.claimed (readSpans i s) (writeSpans i s) then .refused .otherInstance
  else op s

end Sys2Proof.Machine
end

