-- ==== Sys2Proof/Machine/Append.lean ====
section
/-! DEFINITION. The Bounded Appender's command, APPEND (R107), over `boundedAppend` (R103). -/

namespace Sys2Proof.Machine

open Sys2Proof

/-- What APPEND makes of the append's outcome: DST_OFF on OK, BufferTooSmall otherwise (R107). -/
def appendOutcome (r : Appended) : Res State :=
  match r with
  | (false, _, s) => raise .bufferTooSmall s
  | (true, off, s) => finishOk (s.withDstOff (BitVec.ofNat 16 off))

/-- The operation of APPEND after the span checks (R107). -/
def appendSource (s : State) : Res State :=
  andThen
    (boundedAppend s.dstAddr.toNat s.dstLen.toNat s.dstOff.toNat s.srcLen.toNat
      (readBytes 0 s.srcAddr.toNat s.srcLen.toNat s) s)
    appendOutcome

/-- APPEND (R107). -/
def execAppend (s : State) : Res State := runStages .append appendSource s

end Sys2Proof.Machine
end

