-- ==== Sys2Proof/Machine/Frame.lean ====
section
/-! DEFINITION. What the serial and the radio codec share: the radio codec is the serial one with the header shifted
(43_radio_codec.md). A profile says how long the header is, what it holds and where; encoding and decoding are written
once over it (R113, R116, R123, R126). -/

namespace Sys2Proof.Machine

open Sys2Proof

/-- The two frame layouts (R74, R75). -/
inductive Profile where
  | serial
  | radio
deriving DecidableEq, Repr

/-- The header length: SER_HDR = 3, RAD_HDR = 6 (R8). -/
def Profile.hdrLen (p : Profile) : Nat :=
  match p with
  | .serial => 3
  | .radio => 6

/-- The minimum frame length: SER_MIN = 5, RAD_MIN = 8 (R8). -/
def Profile.minLen (p : Profile) : Nat :=
  match p with
  | .serial => 5
  | .radio => 8

/-- The magic byte of the profile (R6, R7, R77). -/
def Profile.magic (p : Profile) (c : Config) : Byte :=
  match p with
  | .serial => serialMagic
  | .radio => c.radioMagic

/-- The offset of messageKind (R74, R75). -/
def Profile.kindAt (p : Profile) : Nat :=
  match p with
  | .serial => 1
  | .radio => 4

/-- The offset of payloadLength (R74, R75). -/
def Profile.lenAt (p : Profile) : Nat :=
  match p with
  | .serial => 2
  | .radio => 5

/-- The header bytes an encoder writes, in address order (R113, R123). -/
def Profile.header (p : Profile) (s : State) : List Byte :=
  match p with
  | .serial => [serialMagic, s.recKind, s.recLen]
  | .radio => [s.cfg.radioMagic, s.recSeq, s.recSrcId, s.recDstId, s.recKind, s.recLen]

/-! ### Encoding (R113, R123) -/

/-- After the checksum's append: DST_LEN on OK, BufferTooSmall otherwise, header and payload staying written (R110,
R121). -/
def encodeOutcome (r : Appended) : Res State :=
  match r with
  | (false, _, s) => raise .bufferTooSmall s
  | (true, off, s) => finishOk ((s.withWorkOff (BitVec.ofNat 16 off)).withDstLen (BitVec.ofNat 16 off))

/-- The checksum of the `off` bytes written so far, read back, is appended low byte first (R111, R61, R50). -/
def encodeTrailer (d cap off : Nat) (s : State) : Res State :=
  andThen (readBytes s.recLen.toNat d off s) fun frame =>
    andThen
      (boundedAppend d cap off 2 (.next [lo (checksum frame), hi (checksum frame)])
        (s.withWorkCrc (checksum frame)))
      encodeOutcome

/-- After the payload's append: BufferTooSmall, the header staying written (R110, R121), or the checksum. -/
def encodePayloadOutcome (d cap : Nat) (r : Appended) : Res State :=
  match r with
  | (false, _, s) => raise .bufferTooSmall s
  | (true, off, s) => encodeTrailer d cap off (s.withWorkOff (BitVec.ofNat 16 off))

/-- The payload is appended after the header (R113, R123). -/
def encodePayload (p : Profile) (s : State) : Res State :=
  andThen
    (boundedAppend s.dstAddr.toNat s.dstLen.toNat p.hdrLen s.recLen.toNat
      (readBytes 0 s.payAddr.toNat s.recLen.toNat s) s)
    (encodePayloadOutcome s.dstAddr.toNat s.dstLen.toNat)

/-- The header is written by plain byte writes if the capacity holds it, else nothing is (R109, R120); then payload
and checksum. -/
def encodeFrame (p : Profile) (s : State) : Res State :=
  if s.dstLen.toNat < p.hdrLen then raise .bufferTooSmall s
  else
    andThen (writeBytes s.dstAddr.toNat (p.header s) s) fun s' =>
      encodePayload p (s'.withWorkOff (BitVec.ofNat 16 p.hdrLen))

/-! ### Decoding (R114, R116, R124, R126)

The reads of one decode are numbered in the order of the pseudocode, for the free values of `State.byteAt`. -/

/-- The radio decoder also writes REC_SEQ, REC_SRCID and REC_DSTID from bytes 1, 2 and 3; the serial one writes none
of them (R115, R125, R126). -/
def decodeIds (p : Profile) (k : Nat) (s : State) : Res State :=
  match p with
  | .serial => .next s
  | .radio =>
    andThen (readByte k (s.srcAddr.toNat + 1) s) fun seq =>
      andThen (readByte (k + 1) (s.srcAddr.toNat + 2) s) fun src =>
        andThen (readByte (k + 2) (s.srcAddr.toNat + 3) s) fun dst =>
          .next (s.withIds seq src dst)

/-- All checks passed: copy the payload, then write the record registers (R116, R126). -/
def decodeAccept (p : Profile) (k : Nat) (kind len : Byte) (s : State) : Res State :=
  andThen (readBytes k (s.srcAddr.toNat + p.hdrLen) len.toNat s) fun payload =>
    andThen (writeBytes s.payAddr.toNat payload s) fun s' =>
      andThen (decodeIds p (k + len.toNat) (s'.withWorkOff (BitVec.ofNat 16 len.toNat))) fun s'' =>
        finishOk (s''.withRecord kind len)

/-- Stage 5: payloadLength equals L − overhead, else LengthMismatch (R114, R124). -/
def decodeLength (p : Profile) (k : Nat) (kind : Byte) (s : State) : Res State :=
  andThen (readByte k (s.srcAddr.toNat + p.lenAt) s) fun len =>
    if len.toNat ≠ s.srcLen.toNat - p.minLen then raise .lengthMismatch s
    else decodeAccept p (k + 1) kind len s

/-- Stage 4: the kind is valid, else InvalidMessageKind (R114, R124, R130). -/
def decodeKind (p : Profile) (k : Nat) (s : State) : Res State :=
  andThen (readByte k (s.srcAddr.toNat + p.kindAt) s) fun kind =>
    if !kindValid s.cfg kind then raise .invalidMessageKind s
    else decodeLength p (k + 1) kind s

/-- Stage 3: the carried checksum, low byte first, equals the recomputed one, else ChecksumMismatch (R114, R124,
R50). -/
def decodeChecksum (p : Profile) (s : State) : Res State :=
  andThen (readByte 1 (s.srcAddr.toNat + s.srcLen.toNat - 2) s) fun low =>
    andThen (readByte 2 (s.srcAddr.toNat + s.srcLen.toNat - 1) s) fun high =>
      andThen (readBytes 3 s.srcAddr.toNat (s.srcLen.toNat - 2) s) fun body =>
        if checksum body ≠ half low high then raise .checksumMismatch (s.withWorkCrc (checksum body))
        else decodeKind p (s.srcLen.toNat + 1) (s.withWorkCrc (checksum body))

/-- Stages 1 and 2: the length guard, else FrameTooShort with no memory read; byte 0 is the profile's magic, else
MagicMismatch (R114, R124). -/
def decodeFrame (p : Profile) (s : State) : Res State :=
  if s.srcLen.toNat < p.minLen then raise .frameTooShort s
  else
    andThen (readByte 0 s.srcAddr.toNat s) fun magic =>
      if magic ≠ p.magic s.cfg then raise .magicMismatch s else decodeChecksum p s

end Sys2Proof.Machine
end

