-- ==== Sys2Proof/Machine/Radio.lean ====
section
/-! DEFINITION. The Radio Frame Codec (R123, R126). -/

namespace Sys2Proof.Machine

open Sys2Proof

/-- RAD_ENC (R123). REC_KIND is not checked, the header bytes are carried opaquely (R122). -/
def execRadEnc (s : State) : Res State := runStages .radEnc (encodeFrame .radio) s

/-- RAD_DEC (R126). -/
def execRadDec (s : State) : Res State := runStages .radDec (decodeFrame .radio) s

end Sys2Proof.Machine
end

