-- ==== Sys2Proof/Machine/Registry.lean ====
section
/-! DEFINITION. The Message Kind Registry's command, KIND_CHECK (R131). -/

namespace Sys2Proof.Machine

open Sys2Proof

/-- The operation of KIND_CHECK: REC_KIND < KIND_COUNT, else InvalidMessageKind (R131). -/
def checkKind (s : State) : Res State :=
  if kindValid s.cfg s.recKind then finishOk s else raise .invalidMessageKind s

/-- KIND_CHECK (R131). -/
def execKindCheck (s : State) : Res State := runStages .kindCheck checkKind s

end Sys2Proof.Machine
end

