-- ==== Sys2Proof/Machine/Serial.lean ====
section
/-! DEFINITION. The Serial Frame Codec (R113, R116). -/

namespace Sys2Proof.Machine

open Sys2Proof

/-- SER_ENC (R113). REC_KIND is not checked (R112). -/
def execSerEnc (s : State) : Res State := runStages .serEnc (encodeFrame .serial) s

/-- SER_DEC (R116). -/
def execSerDec (s : State) : Res State := runStages .serDec (decodeFrame .serial) s

end Sys2Proof.Machine
end

