-- ==== Sys2Proof/Machine/Dispatch.lean ====
section
/-! DEFINITION. The dispatch: one arm for each command of R72. -/

namespace Sys2Proof.Machine

open Sys2Proof

def exec (i : Instr) (s : State) : Host.Outcome State Fault Refusal :=
  match i with
  | .crcInit => Sys2Proof.Machine.execCrcInit s
  | .crcByte imm8 => Sys2Proof.Machine.execCrcByte imm8 s
  | .crcSpan => Sys2Proof.Machine.execCrcSpan s
  | .append => Sys2Proof.Machine.execAppend s
  | .serEnc => Sys2Proof.Machine.execSerEnc s
  | .serDec => Sys2Proof.Machine.execSerDec s
  | .radEnc => Sys2Proof.Machine.execRadEnc s
  | .radDec => Sys2Proof.Machine.execRadDec s
  | .kindCheck => Sys2Proof.Machine.execKindCheck s

end Sys2Proof.Machine
end

