-- ==== Sys2Proof/Machine/Engine.lean ====
section
/-! DEFINITION. The engine's step (R80), the host's operations (R27, R64, R79, R84, R85), the reset input (R153 to
R155), other instances (R148), and which agent moves next (R23; log 3). -/

namespace Sys2Proof.Machine

open Sys2Proof

/-- The engine's step, enabled while BUSY = 1: stage 1 of R80 (legality) and then the command. An illegal word
changes nothing but STATUS (R73). -/
def engineStep (s : State) : Res State :=
  match decode s.pending with
  | .error _ => raise .illegalCommand s
  | .ok i => exec i s

/-! ### The spans of the running command (R48, R162) -/

/-- The spans the running command may read; none when it is illegal. -/
def runningReads (s : State) : List Span :=
  match decode s.pending with
  | .error _ => []
  | .ok i => readSpans i s

/-- The spans the running command may write; none when it is illegal. -/
def runningWrites (s : State) : List Span :=
  match decode s.pending with
  | .error _ => []
  | .ok i => writeSpans i s

/-- A host access to this address while BUSY = 1 is the hazard of R162: it lies in the running command's spans, read
and write columns together. -/
def inRunningSpans (s : State) (a : Nat) : Bool :=
  s.busy && (runningReads s ++ runningWrites s).any fun sp => sp.contains a

/-- The same for the spans of the commands running in other instances (R148, R162). -/
def inClaims (s : State) (a : Nat) : Bool := s.others.any fun c => c.span.contains a

/-! ### The register port (R27) -/

/-- An aligned 32-bit access (R27 (a), R53). -/
def portForm (off : Byte) (w : Width) : Bool := w == .word && off.toNat % 4 == 0

/-- What the host reads while BUSY = 0 (R26, R27 (b)): the register, or zero at a reserved offset. -/
def portValue (off : Byte) (s : State) : Word :=
  match Reg.ofOffset off with
  | none => 0#32
  | some r => readReg r s

/-- What the host reads while BUSY = 1: STATUS and CONFIG are defined, any other register is a draw with its
unimplemented bits zero (R161), a reserved offset has no implemented bit. -/
def portValueBusy (off : Byte) (s : State) : Word :=
  match Reg.ofOffset off with
  | none => 0#32
  | some .status => s.statusWord
  | some .config => configWord s.cfg
  | some r => r.keep s.cfg (Config.freeWord s.draws)

/-- The host receives a value. -/
def State.reply (s : State) (r : Reply) : State := { s with replies := s.replies ++ [r] }

/-- The free-value counter moves on (log 8). -/
def State.tick (s : State) : State := { s with draws := s.draws + 1 }

/-- A register-port read (R27, R161); a read changes no register and not the engine (R27 (d)). -/
def hostPortRead (off : Byte) (w : Width) (s : State) : Res State :=
  if !portForm off w then .refused .portAccessForm
  else if s.busy then .next (s.reply (.port (portValueBusy off s))).tick
  else .next (s.reply (.port (portValue off s)))

/-- A register-port write (R27, R79). At a reserved offset it is ignored, busy or not (R27 (c), U11); at a register
it is refused while BUSY = 1 (R160; log 16). -/
def hostPortWrite (off : Byte) (w : Width) (v : Word) (s : State) : Res State :=
  if !portForm off w then .refused .portAccessForm
  else
    match Reg.ofOffset off with
    | none => .next s
    | some r => if s.busy then .refused .registerWriteWhileBusy else .next (writeReg r v s)

/-! ### The host's data-memory accesses (R64, R162; log 21) -/

/-- Go on to a host access of this address unless it does not exist (R47), lies in a running command's spans (R162,
R148), or is not completed by the platform (R57). -/
def hostAccess (a : Nat) (s : State) (k : State → Res State) : Res State :=
  if 2 ^ s.cfg.addrW ≤ a then .fault .noSuchAddress
  else if inRunningSpans s a || inClaims s a then .refused .accessToRunningSpan
  else if s.touches .unmapped ⟨a, 1⟩ then .fault .accessNotCompleted
  else k s

/-- The byte the host reads: on a device any byte, what it answers being the device's affair (R64; log 21), elsewhere
as any MemRead (R57). -/
def hostByte (a : Nat) (s : State) : Byte :=
  if s.touches .device ⟨a, 1⟩ then Config.freeByte s.draws 0 else s.byteAt 0 a

/-- What the host's write leaves: on a device the data memory as it was (R64; log 21), elsewhere the byte stored. -/
def hostStored (a : Nat) (b : Byte) (s : State) : Memory :=
  if s.touches .device ⟨a, 1⟩ then s.mem else s.mem.write a b

/-- A host read of one byte. -/
def hostMemRead (a : Nat) (s : State) : Res State :=
  hostAccess a s fun s => .next (s.reply (.mem (hostByte a s))).tick

/-- A host write of one byte. -/
def hostMemWrite (a : Nat) (b : Byte) (s : State) : Res State :=
  hostAccess a s fun s => .next (s.withMem (hostStored a b s))

/-! ### Other instances (R148) -/

/-- Commands of two different instances collide: a span one of them writes overlaps a span the other reads or writes
(R148). -/
def Claim.collides (c d : Claim) : Bool := c.owner != d.owner && (c.writes || d.writes) && c.span.overlaps d.span

/-- Two of these claims collide. -/
def claimsCollide (cs : List Claim) : Bool := cs.any fun c => cs.any fun d => c.collides d

/-- The running command collides with a claim now listed or with one of `cs`. -/
def runningCollides (cs : List Claim) (s : State) : Bool :=
  s.busy && (s.claimed (runningReads s) (runningWrites s) ||
    State.claimed { s with others := cs } (runningReads s) (runningWrites s))

/-- A command running in another instance may write this byte of the data memory (R47, R148). -/
def State.writeClaimed (s : State) (a : Nat) : Bool :=
  a < 2 ^ s.cfg.addrW && s.others.any fun c => c.writes && c.span.contains a

/-- The data memory, shared by the instances (R148), after the other instances' commands have written these bytes. A
command writes only its spans (R48), so what lies in no write claim is no write of theirs and is dropped (log 10). -/
def State.otherWrites (s : State) : List Host.Cell → Memory → Memory
  | [], m => m
  | c :: cells, m => State.otherWrites s cells (if s.writeClaimed c.1 then m.write c.1 c.2 else m)

/-- What runs in the other instances changes, and the shared data memory with it. Refused where spans of two instances
overlap (R148, U9): DEDUCED, log 10, that this covers every pair of instances that run at the same time, two others as
well as this one and another. Of the others the new claims are held against each other; the running command of this
instance, against the old claims and the new. DESIGN CHOICE, log 10: a claim on a device region, or on one that is not
completed, is accepted and its bytes are stored; R56, R57 and R151 do not say whose command they stop, and here they
stop the command of this instance only. -/
def otherClaims (cs : List Claim) (written : List Host.Cell) (s : State) : Res State :=
  if claimsCollide cs || runningCollides cs s then .refused .otherInstance
  else .next { s with others := cs, mem := s.otherWrites written s.mem }

/-! ### The reset input (R153 to R155) -/

/-- Every register at its reset value and the engine idle; instance, memory and the world outside as they were (R153,
R155, R156; log 24). -/
def State.resetRegisters (s : State) : State :=
  { State.reset with
    cfg := s.cfg, mem := s.mem, regions := s.regions, others := s.others, bus := s.bus, turns := s.turns,
    replies := s.replies, draws := s.draws }

/-- Each byte from `a` on, `n` of them, holds its old value or the value `after` gives it, one draw a byte (R154). -/
def mixBytes (draws : Nat) (after : Nat → Byte) (k a : Nat) : Nat → Memory → Memory
  | 0, m => m
  | n + 1, m => mixBytes draws after (k + 1) (a + 1) n (if Config.freeBit draws k then m.write a (after a) else m)

/-- `mixBytes` over spans. -/
def mixSpans (draws : Nat) (after : Nat → Byte) : List Span → Memory → Memory
  | [], m => m
  | sp :: sps, m => mixSpans draws after sps (mixBytes draws after 0 sp.start sp.len m)

/-- How many bytes an encoder writes, from its registers alone: header, payload, checksum as far as the capacity lets
it (R109, R110, R113, R117, R120, R121, R123, R127). -/
def encodedLength (p : Profile) (s : State) : Nat :=
  if s.dstLen.toNat < p.hdrLen then 0
  else if s.dstLen.toNat < p.hdrLen + s.recLen.toNat then p.hdrLen
  else if s.dstLen.toNat < p.hdrLen + s.recLen.toNat + 2 then p.hdrLen + s.recLen.toNat
  else p.hdrLen + s.recLen.toNat + 2

/-- The part of its write spans that a command can reach: an encoder writes nothing past its capacity. -/
def reachedSpans (i : Instr) (s : State) : List Span :=
  match i with
  | .serEnc => [⟨s.dstAddr.toNat, encodedLength .serial s⟩]
  | .radEnc => [⟨s.dstAddr.toNat, encodedLength .radio s⟩]
  | .crcInit | .crcByte _ | .crcSpan | .append | .serDec | .radDec | .kindCheck => writeSpans i s

/-- The running command can write this byte of the data memory. -/
def canWrite (s : State) (a : Nat) : Bool :=
  a < 2 ^ s.cfg.addrW &&
    match decode s.pending with
    | .error _ => false
    | .ok i => (reachedSpans i s).any fun sp => sp.contains a

/-- Any byte where the running command can write, the byte as it was elsewhere. -/
def anyByte (s : State) (a : Nat) : Byte :=
  if canWrite s a then Config.freeByte s.draws a else s.mem.read a

/-- A region whose accesses the platform did not complete, completed with any byte. -/
def Region.answered (r : Region) : Region := if r.kind == .unmapped then { r with kind := .shared } else r

/-- The state in which every access the platform did not complete is completed, a read with any byte: what a stuck
command would have done, as far as the spec gives it (R57, R154; log 13). -/
def State.answered (s : State) : State := { s with regions := s.regions.map Region.answered }

/-- The bytes the running command would have left (R154): those its step leaves. A stuck one: those it leaves when the
accesses that are not completed answer any byte, so every byte that does not hang on them is as its rule says. A
refused one: any bytes where it can write, R81, R56 and R148 giving none (log 13). -/
def abandonedBytes (s : State) : Nat → Byte :=
  match engineStep s with
  | .next t => t.mem.read
  | .refused _ => anyByte s
  | .fault _ =>
    match engineStep s.answered with
    | .next t => t.mem.read
    | .refused _ => anyByte s
    | .fault _ => anyByte s

/-- Reset while BUSY = 1 abandons the command: its register effects are lost, each byte of its write spans holds the
old value or the one the command would have written (R154). -/
def abandonCommand (s : State) : State :=
  (s.resetRegisters.withMem (mixSpans s.draws (abandonedBytes s) (runningWrites s) s.mem)).tick

/-- The reset input (R153, R154). It never stops: R57 and R151 stop a command's step, not its reset. -/
def resetInput (s : State) : Res State := .next (if s.busy then abandonCommand s else s.resetRegisters)

/-! ### The host's turn -/

/-- One operation of the outside world. `poll` stays in the queue while it reads BUSY = 1 (R85). -/
def hostOp (op : HostOp) (s : State) : Res State :=
  match op with
  | .portRead off w => hostPortRead off w s
  | .portWrite off w v => hostPortWrite off w v s
  | .poll => andThen (hostPortRead (Reg.offset .status) .word s) fun t =>
      .next (if s.busy then { t with bus := .poll :: t.bus } else t)
  | .memRead a => hostMemRead a s
  | .memWrite a b => hostMemWrite a b s
  | .claims cs written => otherClaims cs written s
  | .resetInput => resetInput s

/-- The host's turn: its oldest pending operation, or nothing (log 20). -/
def hostStep (s : State) : Res State :=
  match s.bus with
  | [] => .next s
  | op :: rest => hostOp op { s with bus := rest }

/-- The engine's turn: its step if BUSY = 1, else nothing (R23; log 20). -/
def engineTurn (s : State) : Res State := if s.busy then engineStep s else .next s

/-- The agent whose turn it is moves (log 3). -/
def runTurn (s : State) : Res State :=
  match s.turns with
  | [] => if s.busy then engineStep s else hostStep s
  | .engine :: rest => engineTurn { s with turns := rest }
  | .host :: rest => hostStep { s with turns := rest }

/-- A command word is latched as by a CMD write and the engine has the next turn (R79; log 5). -/
def State.latchCommand (s : State) (w : Word) : State := { s.startCommand w with turns := [] }

end Sys2Proof.Machine
end

