-- ==== Sys2Proof/Machine/Step.lean ====
section
/-! DEFINITION. The step: the agent whose turn it is moves (`runTurn`). CKF16 fetches nothing (R25, R67): the word a
step runs is the one in PENDING. -/

namespace Sys2Proof.Machine

open Sys2Proof

/-- One step of the machine. -/
def step (s : State) : Host.Outcome State Fault Refusal := runTurn s

/-- The state with the table word latched in PENDING as by a host write to CMD, the engine having the next turn (R79,
log 5): the very next step runs it. -/
def State.withFetchWord (s : State) (nbits w : Nat) : State :=
  s.latchCommand (BitVec.ofNat 32 (w % 2 ^ nbits))

end Sys2Proof.Machine
end

