-- ==== Sys2Proof/Machine/HostProgram.lean ====
section
/-! DEFINITION. The notation of host programs (R84) and its expansion into bus operations (R85). The host's own
control flow (labels, conditions) stays outside (log 4); `wait` is the operation `poll`. -/

namespace Sys2Proof.Machine

open Sys2Proof

/-- A statement of a host program (R84, R85). -/
inductive HostStmt where
  /-- `wr NAME, v`. -/
  | wr (r : Reg) (v : Word)
  /-- `rd NAME -> x`. -/
  | rd (r : Reg)
  /-- `cmd MNEMONIC` and `cmd CRC_BYTE, ii`. -/
  | cmd (i : Instr)
  /-- `wait`. -/
  | wait
  /-- `mem A: b0 b1 ...`. -/
  | mem (a : Nat) (bs : List Byte)
  /-- `crc_bytes b0 ... bk`. -/
  | crcBytes (bs : List Byte)
deriving DecidableEq, Repr

/-- The bytes of a `mem` statement, from the address upward. -/
def memOps : Nat → List Byte → List HostOp
  | _, [] => []
  | a, b :: bs => .memWrite a b :: memOps (a + 1) bs

/-- `cmd M` is a write of M's word to CMD (R85). -/
def cmdOp (i : Instr) : HostOp := .portWrite (Reg.offset .cmd) .word (encode i)

/-- `crc_bytes`: a CRC_BYTE and a wait for each byte (R85). -/
def crcByteOps : List Byte → List HostOp
  | [] => []
  | b :: bs => cmdOp (.crcByte b) :: .poll :: crcByteOps bs

/-- The bus operations of a statement (R84, R85). -/
def HostStmt.ops (st : HostStmt) : List HostOp :=
  match st with
  | .wr r v => [.portWrite r.offset .word v]
  | .rd r => [.portRead r.offset .word]
  | .cmd i => [cmdOp i]
  | .wait => [.poll]
  | .mem a bs => memOps a bs
  | .crcBytes bs => crcByteOps bs

/-- The encoding of a host program: its bus operations in order (R85). -/
def assemble : List HostStmt → List HostOp
  | [] => []
  | st :: rest => st.ops ++ assemble rest

end Sys2Proof.Machine
end

