-- ==== Sys2Proof/Safety.lean ====
section
/-! DEFINITION. The terms the claims use: the invariant of the machine, ordinary memory, and when a command goes
through its span stages. -/

namespace Sys2Proof.Machine

open Sys2Proof

/-- Every listed address exists: the data memory has 2^ADDR_W bytes (R47). -/
abbrev Memory.within (m : Memory) (addrW : Nat) : Prop := ∀ c ∈ m, c.1 < 2 ^ addrW

/-- The invariant of the machine: the parameters obey their constraints (R7, R10, R12), the memory has its canonical
form and lies in the address space (R47), and the address registers hold only their implemented bits (R32, R34, R37).
-/
structure State.Inv (s : State) : Prop where
  cfg_wf : s.cfg.wf
  mem_wf : s.mem.wf
  mem_within : s.mem.within s.cfg.addrW
  srcAddr_lt : s.srcAddr.toNat < 2 ^ s.cfg.addrW
  dstAddr_lt : s.dstAddr.toNat < 2 ^ s.cfg.addrW
  payAddr_lt : s.payAddr.toNat < 2 ^ s.cfg.addrW

/-- The span is ordinary memory (R56, R57): no device, nothing that is not completed, nothing another agent writes
during a command. -/
def State.ordinary (s : State) (sp : Span) : Bool :=
  !s.touches .device sp && !s.touches .unmapped sp && !s.touches .shared sp

/-- A command passes stages 2 and 3 of R80 on ordinary memory: every checked span is in range (R58) and ordinary (R56,
R57), read span and write buffer do not overlap (R81), no other instance's command is in the way (R148). -/
def State.ready (s : State) (i : Instr) : Bool :=
  (checkedSpans i s).all (fun sp => sp.inRange s.cfg.addrW) &&
  !spansOverlap i s &&
  (checkedSpans i s).all (fun sp => s.ordinary sp) &&
  !s.claimed (readSpans i s) (writeSpans i s)

/-- The data-memory bytes a command may read without having written them itself (R48, column "reads"): of an encoder
its payload only, since in its buffer it reads "bytes it wrote". -/
def inputSpans (i : Instr) (s : State) : List Span :=
  match i with
  | .crcInit | .crcByte _ | .kindCheck => []
  | .crcSpan | .append | .serDec | .radDec => [s.srcSpan]
  | .serEnc | .radEnc => [s.paySpan]

/-- Stages 2 and 3 of R80 and the refusals of R56 and R148 let a command through to its own rule: ready or not, its
memory may be shared or not completed. -/
def State.passed (s : State) (i : Instr) : Bool :=
  (checkedSpans i s).all (fun sp => sp.inRange s.cfg.addrW) && !spansOverlap i s &&
  (checkedSpans i s).all (fun sp => !s.touches .device sp) && !s.claimed (readSpans i s) (writeSpans i s)

/-- The address lies in no span of the running command and in no claim of another instance (R64, R148, R162). -/
def State.hostMayAccess (s : State) (a : Nat) : Prop :=
  (∀ c ∈ s.others, c.span.contains a = false) ∧
  (s.busy = true → ∀ i, decode s.pending = .ok i → ∀ sp ∈ readSpans i s ++ writeSpans i s, sp.contains a = false)

/-- The agent that moves in this state (log 3). -/
def State.mover (s : State) : Agent :=
  match s.turns with
  | [] => if s.busy then .engine else .host
  | a :: _ => a

/-- n steps, stopping at the first fault or refusal. -/
def runSteps : Nat → State → Res State
  | 0, s => .next s
  | n + 1, s => andThen (step s) (runSteps n)

/-- The n bytes of the data memory from an address on. -/
def Memory.readList (m : Memory) (a : Nat) : Nat → List Byte
  | 0 => []
  | n + 1 => m.read a :: Memory.readList m (a + 1) n

/-- The five validation stages as R114 and R124 list them, on the bytes of a received frame: a reading of the rules
apart from the decoder, to hold it against. The arguments are the profile's magic, KIND_COUNT, the minimum length and
the offsets of messageKind and payloadLength. -/
def frameVerdict (magic kindCount : Byte) (minLen kindAt lenAt : Nat) (f : List Byte) : Result :=
  if f.length < minLen then .frameTooShort
  else if f.getD 0 0#8 ≠ magic then .magicMismatch
  else if checksum (f.take (f.length - 2)) ≠ half (f.getD (f.length - 2) 0#8) (f.getD (f.length - 1) 0#8) then
    .checksumMismatch
  else if kindCount.toNat ≤ (f.getD kindAt 0#8).toNat then .invalidMessageKind
  else if (f.getD lenAt 0#8).toNat ≠ f.length - minLen then .lengthMismatch
  else .ok

/-- The verdict of the serial profile: 5-byte minimum, kind at byte 1, length at byte 2 (R74, R114). -/
def serialVerdict (c : Config) (f : List Byte) : Result := frameVerdict 0x7E#8 c.kindCount 5 1 2 f

/-- The verdict of the radio profile: 8-byte minimum, kind at byte 4, length at byte 5 (R75, R124). -/
def radioVerdict (c : Config) (f : List Byte) : Result := frameVerdict c.radioMagic c.kindCount 8 4 5 f

end Sys2Proof.Machine
end

