-- ==== Sys2Proof/Certificates/Slice0/Obligations.lean ====
section
/-! DEFINITION. The statements for the provers. Each docstring names the rules it formalises. `exec` is the command's
step, `step` the machine's. A statement that ends in an equation `exec … = .next …` is a completion statement and a
frame at once: the right side is the old state with exactly the fields listed changed. -/

open Sys2Proof Sys2Proof.Machine

/-! ### Encoding -/

/-- R70, R72, R83: the decoder accepts exactly the nine commands' words, CRC_BYTE with every IMM8, each as the command
it stands for; no bit of a word is dropped. -/
def Obligations.DecodeAcceptsExactlyTheEncodings : Prop :=
  ∀ (w : Word) (i : Instr), decode w = .ok i ↔ w = encode i

/-- R73: a word is illegal iff OP is reserved, RSV0 ≠ 0, RSV1 ≠ 0, or IMM8 ≠ 0 with OP ≠ 0x2; every other word is one
command's word; and the engine's step of an illegal word ends with IllegalCommand, having changed nothing but STATUS.
(`draws` is the model's counter of free values, log 8.) -/
def Obligations.IllegalWordsEndWithIllegalCommand : Prop :=
  (∀ w : Word, (∃ e, decode w = .error e) ↔
      (w.extractLsb' 0 4 = 0x0#4 ∨ w.extractLsb' 0 4 = 0xA#4 ∨ w.extractLsb' 0 4 = 0xB#4 ∨
        w.extractLsb' 0 4 = 0xC#4 ∨ w.extractLsb' 0 4 = 0xD#4 ∨ w.extractLsb' 0 4 = 0xE#4 ∨
        w.extractLsb' 0 4 = 0xF#4) ∨
      w.extractLsb' 4 4 ≠ 0#4 ∨ w.extractLsb' 16 16 ≠ 0#16 ∨
      (w.extractLsb' 8 8 ≠ 0#8 ∧ w.extractLsb' 0 4 ≠ 0x2#4)) ∧
  (∀ w : Word, (∃ e, decode w = .error e) ∨ ∃ i, decode w = .ok i ∧ w = encode i) ∧
  ∀ (s : State) (e : Illegal), decode s.pending = .error e →
    engineStep s = .next { s with result := .illegalCommand, busy := false, draws := s.draws + 1 }

/-- R73: the decoder, written from the opcode map, and the four well-formedness checks of WellFormed.lean agree on
every word. -/
def Obligations.DecoderAgreesWithTheWordChecks : Prop :=
  ∀ w : Word, (∃ i, decode w = .ok i) ↔ wordWellFormed w = true

/-- R72: the words of the opcode map, written out, stand for their commands. -/
def Obligations.OpcodeMapWordsDecode : Prop :=
  decode 0x00000001#32 = .ok .crcInit ∧ decode 0x00003102#32 = .ok (.crcByte 0x31#8) ∧
  decode 0x00000003#32 = .ok .crcSpan ∧ decode 0x00000004#32 = .ok .append ∧
  decode 0x00000005#32 = .ok .serEnc ∧ decode 0x00000006#32 = .ok .serDec ∧
  decode 0x00000007#32 = .ok .radEnc ∧ decode 0x00000008#32 = .ok .radDec ∧
  decode 0x00000009#32 = .ok .kindCheck

/-! ### Who moves, starting and running a command -/

/-- R80: when the engine moves with BUSY = 1 and PENDING decodes to i, the step is exec i at that state. (Who moves,
and that the step uses a listed turn up, is the model's choice, log 3.) -/
def Obligations.EngineStepRunsThePendingCommand : Prop :=
  ∀ (s : State) (i : Instr), s.mover = .engine → s.busy = true → decode s.pending = .ok i →
    step s = exec i { s with turns := s.turns.tail }

/-- R23, R84: when the host moves, the step is its oldest pending operation. (Who moves, and that the step uses the
turn and the operation up, is the model's choice, log 3 and 4.) -/
def Obligations.HostStepRunsItsOldestOperation : Prop :=
  ∀ (s : State) (op : HostOp) (rest : List HostOp), s.mover = .host → s.bus = op :: rest →
    step s = hostOp op { s with bus := rest, turns := s.turns.tail }

/-- R79: a write of w to CMD while BUSY = 0 latches w in PENDING, sets LAST_OP to w[3:0] and BUSY, keeps RESULT and
everything else. R160: while BUSY = 1 the write is refused. (That the engine's step comes next where no turn is listed
is the model's choice of schedule, log 3.) -/
def Obligations.CmdWriteStartsACommand : Prop :=
  ∀ (s : State) (w : Word),
    (s.busy = false →
      hostOp (.portWrite 0x00#8 .word w) s =
        .next { s with pending := w, lastOp := w.extractLsb' 0 4, busy := true }) ∧
    (s.busy = true → hostOp (.portWrite 0x00#8 .word w) s = .refused .registerWriteWhileBusy) ∧
    (s.busy = true → s.turns = [] → step s = engineStep s)

/-- R85, R79, R80: `cmd M` on an idle machine with no turn listed: two steps later M has run, on the state with M's
word pending, and the rest of the host's program is left. (The schedule with no turn listed and the queue of host
operations are the model's choice, log 3 and 4.) -/
def Obligations.CmdStatementRunsItsCommand : Prop :=
  ∀ (s : State) (i : Instr) (rest : List HostOp), s.busy = false → s.turns = [] →
    s.bus = assemble [.cmd i] ++ rest →
    (∃ u, step s = .next u ∧ step u = exec i u ∧
      u = { s with bus := rest, pending := encode i, lastOp := opOf i, busy := true })

/-- R85, R152: `wait` ends. A busy engine with a ready or illegal command and k host turns before the engine's: the
poll reads BUSY = 1 k times and stays, the command runs, and the next poll finds BUSY = 0 and is done. (That `wait` is
a poll that stays in the queue, log 4, and how turns are listed, log 3, are the model's choices.) -/
def Obligations.WaitEndsAfterTheCommand : Prop :=
  ∀ (s : State) (k : Nat), s.busy = true → s.bus = [.poll] → s.turns = List.replicate k .host →
    (∀ i, decode s.pending = .ok i → s.ready i = true) →
    ∃ t : State, runSteps (k + 2) s = .next t ∧ t.busy = false ∧ t.bus = [] ∧
      ∃ before after : List Word, t.replies = s.replies ++ (before ++ after).map .port ∧
        before.length = k ∧ (∀ v ∈ before, v.getLsbD 8 = true) ∧
        ∃ v, after = [v] ∧ v.getLsbD 8 = false

/-- R80, R82, R152: every command whose spans are in range, apart and on ordinary memory completes in its one step,
with BUSY cleared; LAST_OP, the instance and the world outside stay. (That PENDING keeps its bits when BUSY is cleared
is the model's choice, log 6.) -/
def Obligations.ReadyCommandsComplete : Prop :=
  ∀ (i : Instr) (s : State), s.ready i = true →
    ∃ t, exec i s = .next t ∧ t.busy = false ∧ t.pending = s.pending ∧ t.lastOp = s.lastOp ∧ t.cfg = s.cfg ∧
      t.regions = s.regions ∧ t.others = s.others ∧ t.bus = s.bus ∧ t.turns = s.turns ∧ t.replies = s.replies

/-! ### The register port -/

/-- R29: STATUS is RESULT in [3:0], LAST_OP in [7:4], BUSY in [8], zero above. R135: the numbers of the codes. -/
def Obligations.StatusWordLayout : Prop :=
  (∀ s : State, s.statusWord.extractLsb' 0 4 = s.result.code ∧ s.statusWord.extractLsb' 4 4 = s.lastOp ∧
    s.statusWord.getLsbD 8 = s.busy ∧ s.statusWord.extractLsb' 9 23 = 0#23) ∧
  Result.code .ok = 0#4 ∧ Result.code .bufferTooSmall = 1#4 ∧ Result.code .frameTooShort = 2#4 ∧
  Result.code .magicMismatch = 3#4 ∧ Result.code .checksumMismatch = 4#4 ∧
  Result.code .invalidMessageKind = 5#4 ∧ Result.code .lengthMismatch = 6#4 ∧
  Result.code .illegalCommand = 7#4 ∧ Result.code .addressRange = 8#4

/-- R30: CONFIG is KIND_COUNT, SERIAL_MAGIC = 0x7E, RADIO_MAGIC, REGISTRY_VERSION from bit 0 up. -/
def Obligations.ConfigWordLayout : Prop :=
  ∀ c : Config, (configWord c).extractLsb' 0 8 = c.kindCount ∧ (configWord c).extractLsb' 8 8 = 0x7E#8 ∧
    (configWord c).extractLsb' 16 8 = c.radioMagic ∧ (configWord c).extractLsb' 24 8 = c.registryVersion

/-- R26, R27, R28: an aligned word read while BUSY = 0 returns the register of the map, zero-extended, CMD and the
reserved offsets as zero, and changes nothing but what the host has received. -/
def Obligations.IdleReadsReturnTheRegisters : Prop :=
  ∀ s : State, s.busy = false →
    let reads := fun (off : Byte) (v : Word) =>
      hostOp (.portRead off .word) s = .next { s with replies := s.replies ++ [.port v] }
    reads 0x00#8 0#32 ∧ reads 0x04#8 s.statusWord ∧ reads 0x08#8 (configWord s.cfg) ∧
    reads 0x0C#8 (s.crcAcc.setWidth 32) ∧ reads 0x10#8 s.srcAddr ∧ reads 0x14#8 (s.srcLen.setWidth 32) ∧
    reads 0x18#8 s.dstAddr ∧ reads 0x1C#8 (s.dstLen.setWidth 32) ∧ reads 0x20#8 (s.dstOff.setWidth 32) ∧
    reads 0x24#8 s.payAddr ∧ reads 0x28#8 (s.recKind.setWidth 32) ∧ reads 0x2C#8 (s.recLen.setWidth 32) ∧
    reads 0x30#8 (s.recSeq.setWidth 32) ∧ reads 0x34#8 (s.recSrcId.setWidth 32) ∧
    reads 0x38#8 (s.recDstId.setWidth 32) ∧
    ∀ off : Byte, off.toNat % 4 = 0 → 0x3C ≤ off.toNat → reads off 0#32

/-- R26, R27: an aligned word write while BUSY = 0 writes the implemented bits of the register of the map and nothing
else; a write to STATUS, CONFIG or a reserved offset is ignored (R27 (c), U11). That a write to a reserved offset is
ignored while BUSY = 1 too is the model's reading of R27 (c) against R160, log 16. -/
def Obligations.IdleWritesKeepTheImplementedBits : Prop :=
  ∀ (s : State) (v : Word),
    let writes := fun (off : Byte) (t : State) => hostOp (.portWrite off .word v) s = .next t
    let address := BitVec.ofNat 32 (v.toNat % 2 ^ s.cfg.addrW)
    (s.busy = false →
      writes 0x04#8 s ∧ writes 0x08#8 s ∧
      writes 0x0C#8 { s with crcAcc := v.setWidth 16 } ∧ writes 0x10#8 { s with srcAddr := address } ∧
      writes 0x14#8 { s with srcLen := v.setWidth 16 } ∧ writes 0x18#8 { s with dstAddr := address } ∧
      writes 0x1C#8 { s with dstLen := v.setWidth 16 } ∧ writes 0x20#8 { s with dstOff := v.setWidth 16 } ∧
      writes 0x24#8 { s with payAddr := address } ∧ writes 0x28#8 { s with recKind := v.setWidth 8 } ∧
      writes 0x2C#8 { s with recLen := v.setWidth 8 } ∧ writes 0x30#8 { s with recSeq := v.setWidth 8 } ∧
      writes 0x34#8 { s with recSrcId := v.setWidth 8 } ∧ writes 0x38#8 { s with recDstId := v.setWidth 8 }) ∧
    ∀ off : Byte, off.toNat % 4 = 0 → 0x3C ≤ off.toNat → writes off s

/-- R27 (b), (c), (e), (f): after a write to any register but CMD, the host's next read of any register returns the
written word's implemented bits if it is the register written and that is a read-write one, and what it held before
otherwise. -/
def Obligations.WriteThenReadReturnsTheImplementedBits : Prop :=
  ∀ (s : State) (r r' : Reg) (v : Word), s.busy = false → r ≠ .cmd →
    ∃ t, hostOp (.portWrite r.offset .word v) s = .next t ∧
      hostOp (.portRead r'.offset .word) t = .next { t with replies := t.replies ++ [.port
        (if r' = r ∧ r ≠ .status ∧ r ≠ .config then r.keep s.cfg v else readReg r' s)] }

/-- R53: a register-port access that is not 32 bits wide at an offset that is a multiple of 4 is refused. -/
def Obligations.NonWordPortAccessesAreRefused : Prop :=
  ∀ (s : State) (off : Byte) (w : Width) (v : Word), (w ≠ .word ∨ off.toNat % 4 ≠ 0) →
    hostOp (.portRead off w) s = .refused .portAccessForm ∧
    hostOp (.portWrite off w v) s = .refused .portAccessForm

/-- R160: while BUSY = 1 an aligned word write to any register, CMD included, is refused. (STATUS and CONFIG included,
log 16.) -/
def Obligations.RegisterWritesWhileBusyAreRefused : Prop :=
  ∀ (s : State) (r : Reg) (v : Word), s.busy = true →
    hostOp (.portWrite r.offset .word v) s = .refused .registerWriteWhileBusy

/-- R161: while BUSY = 1 a read of STATUS (BUSY = 1 and the previous RESULT) or CONFIG returns its defined value; a
read of any other register returns a free value with the register's unimplemented bits zero; a reserved offset has no
implemented bit and reads as zero; no read has another effect. (For CMD all 32 bits are free: R28 against R161, the
model's choice, log 15. `draws` is the model's counter, log 8.) -/
def Obligations.BusyReadsReturnStatusConfigOrADraw : Prop :=
  ∀ s : State, s.busy = true →
    hostOp (.portRead 0x04#8 .word) s =
      .next { s with replies := s.replies ++ [.port (0#23 ++ 1#1 ++ s.lastOp ++ s.result.code)],
                     draws := s.draws + 1 } ∧
    hostOp (.portRead 0x08#8 .word) s =
      .next { s with replies := s.replies ++ [.port (configWord s.cfg)], draws := s.draws + 1 } ∧
    (∀ r : Reg, r ≠ .status → r ≠ .config →
      hostOp (.portRead r.offset .word) s =
        .next { s with replies := s.replies ++ [.port (r.keep s.cfg (Config.freeWord s.draws))],
                       draws := s.draws + 1 }) ∧
    ∀ off : Byte, off.toNat % 4 = 0 → 0x3C ≤ off.toNat → hostOp (.portRead off .word) s =
      .next { s with replies := s.replies ++ [.port 0#32], draws := s.draws + 1 }

/-- R59, R26: the platform's window addresses and the 256 offsets stand one for one. -/
def Obligations.WindowAddressesAndOffsetsAgree : Prop :=
  ∀ (c : Config) (a : Nat) (off : Byte), windowOffset c a = some off ↔ a = windowAddress c off

/-! ### The host and the data memory -/

/-- R162, R48: while BUSY = 1 a host read or write of a data-memory byte in the running command's spans, read and write
columns together, is refused. (The spans as they stand before the command's outcome is known are the model's reading
of R48, log 14.) -/
def Obligations.HostAccessToRunningSpansIsRefused : Prop :=
  ∀ (s : State) (i : Instr) (sp : Span) (a : Nat) (b : Byte), s.busy = true → decode s.pending = .ok i →
    sp ∈ readSpans i s ++ writeSpans i s → sp.start ≤ a → a < sp.start + sp.len → a < 2 ^ s.cfg.addrW →
    hostOp (.memRead a) s = .refused .accessToRunningSpan ∧
    hostOp (.memWrite a b) s = .refused .accessToRunningSpan

/-- R64: the host reads and writes any other data-memory byte of ordinary memory, busy or not; a read returns the byte
the memory holds, a write changes that byte and no other, and no register. (Which bytes are other ones rests on the
model's reading of R48, log 14; the host's byte accesses are the model's, log 21.) -/
def Obligations.HostAccessElsewhereProceeds : Prop :=
  ∀ (s : State) (a : Nat) (b : Byte), s.mem.wf → a < 2 ^ s.cfg.addrW → s.ordinary ⟨a, 1⟩ = true →
    s.hostMayAccess a →
    hostOp (.memRead a) s =
      .next { s with replies := s.replies ++ [.mem (s.mem.read a)], draws := s.draws + 1 } ∧
    ∃ t : State, hostOp (.memWrite a b) s = .next t ∧ t = { s with mem := t.mem } ∧
      ∀ a', t.mem.read a' = if a' = a then b else s.mem.read a'

/-- The host's other accesses to data memory (log 21; which bytes it may access: log 14). An address at or above
2^ADDR_W does not exist (R47). A byte in the spans of a command running in another instance is refused (R148, R162). At
a byte it may access (R64) the host is stuck where the platform does not complete the access (R57); on a device it
reads any byte and its write leaves the data memory as it was; where another agent writes it reads any byte (R57), and
its write is stored. -/
def Obligations.HostAccessOutsideOrdinaryMemory : Prop :=
  ∀ (s : State) (a : Nat) (b : Byte),
    let both := fun (r : Res State) => hostOp (.memRead a) s = r ∧ hostOp (.memWrite a b) s = r
    let readsAny := hostOp (.memRead a) s =
      .next { s with replies := s.replies ++ [.mem (Config.freeByte s.draws 0)], draws := s.draws + 1 }
    (2 ^ s.cfg.addrW ≤ a → both (.fault .noSuchAddress)) ∧
    (a < 2 ^ s.cfg.addrW → (∃ c ∈ s.others, c.span.contains a = true) → both (.refused .accessToRunningSpan)) ∧
    (a < 2 ^ s.cfg.addrW → s.hostMayAccess a →
      (s.touches .unmapped ⟨a, 1⟩ = true → both (.fault .accessNotCompleted)) ∧
      (s.touches .unmapped ⟨a, 1⟩ = false → s.touches .device ⟨a, 1⟩ = true →
        readsAny ∧ hostOp (.memWrite a b) s = .next s) ∧
      (s.touches .unmapped ⟨a, 1⟩ = false → s.touches .device ⟨a, 1⟩ = false → s.touches .shared ⟨a, 1⟩ = true →
        readsAny ∧ hostOp (.memWrite a b) s = .next { s with mem := s.mem.write a b }))

/-! ### Reset -/

/-- R26, R153: what the state after reset holds where the spec gives the value. -/
def Obligations.ResetStateHoldsTheResetValues : Prop :=
  State.reset.statusWord = 0x00000000#32 ∧ State.reset.busy = false ∧ State.reset.crcAcc = 0xFFFF#16 ∧
  State.reset.srcAddr = 0#32 ∧ State.reset.srcLen = 0#16 ∧ State.reset.dstAddr = 0#32 ∧
  State.reset.dstLen = 0#16 ∧ State.reset.dstOff = 0#16 ∧ State.reset.payAddr = 0#32 ∧
  State.reset.recKind = 0#8 ∧ State.reset.recLen = 0#8 ∧ State.reset.recSeq = 0#8 ∧
  State.reset.recSrcId = 0#8 ∧ State.reset.recDstId = 0#8

/-- R153, R155: the reset input while BUSY = 0 gives every register its reset value and touches no data memory; the
instance stays as it is (R156). (That the world outside stays too is the model's choice, log 24; that reset is one
step, log 22; the bits of PENDING and the working registers, log 6 and 7.) -/
def Obligations.ResetInputGivesTheResetValues : Prop :=
  ∀ s : State, s.busy = false →
    hostOp .resetInput s = .next
      { s with result := .ok, lastOp := 0#4, busy := false, crcAcc := 0xFFFF#16, srcAddr := 0#32, srcLen := 0#16,
               dstAddr := 0#32, dstLen := 0#16, dstOff := 0#16, payAddr := 0#32, recKind := 0#8, recLen := 0#8,
               recSeq := 0#8, recSrcId := 0#8, recDstId := 0#8,
               pending := State.reset.pending, workOff := State.reset.workOff, workCrc := State.reset.workCrc }

/-- R154: a reset while BUSY = 1 abandons the command, whatever the command would have done: the registers take their
reset values; the k-th byte of its write span holds, by a draw for that byte, the value before the command or the value
the command would have written; every other byte is as before. A stuck command would have written what it writes when
the accesses that are not completed answer any byte, and then it does complete; a refused one any bytes where it can
write, an encoder none past its capacity, and the bytes before elsewhere (the model's choice, log 13). (That the
world outside stays is the model's choice, log 24; the write spans, log 14; that reset is one step, log 22; the bits of
PENDING and the working registers, log 6 and 7; the draws, log 8.) -/
def Obligations.ResetWhileBusyMixesTheWriteSpan : Prop :=
  ∀ s : State, s.mem.wf → s.busy = true →
    ∃ t, hostOp .resetInput s = .next t ∧
      t = { s with result := .ok, lastOp := 0#4, busy := false, crcAcc := 0xFFFF#16, srcAddr := 0#32,
                   srcLen := 0#16, dstAddr := 0#32, dstLen := 0#16, dstOff := 0#16, payAddr := 0#32,
                   recKind := 0#8, recLen := 0#8, recSeq := 0#8, recSrcId := 0#8, recDstId := 0#8,
                   pending := State.reset.pending, workOff := State.reset.workOff,
                   workCrc := State.reset.workCrc, mem := t.mem, draws := s.draws + 1 } ∧
      (∀ u, engineStep s = .next u → ∀ sp ∈ runningWrites s, ∀ k, k < sp.len → t.mem.read (sp.start + k) =
        if Config.freeBit s.draws k then u.mem.read (sp.start + k) else s.mem.read (sp.start + k)) ∧
      (∀ f, engineStep s = .fault f → ∃ u, engineStep s.answered = .next u ∧
        ∀ sp ∈ runningWrites s, ∀ k, k < sp.len → t.mem.read (sp.start + k) =
          if Config.freeBit s.draws k then u.mem.read (sp.start + k) else s.mem.read (sp.start + k)) ∧
      (∀ r, engineStep s = .refused r → ∀ sp ∈ runningWrites s, ∀ k, k < sp.len → t.mem.read (sp.start + k) =
        if Config.freeBit s.draws k && canWrite s (sp.start + k) then Config.freeByte s.draws (sp.start + k)
        else s.mem.read (sp.start + k)) ∧
      ∀ a, (∀ sp ∈ runningWrites s, sp.contains a = false) → t.mem.read a = s.mem.read a

/-! ### Spans -/

/-- R19: in range iff a + n ≤ 2^ADDR_W; two spans overlap iff both are non-empty and share an address, that is iff
n1 > 0, n2 > 0, a1 < a2 + n2 and a2 < a1 + n1. -/
def Obligations.SpanTermsMeanWhatTheRuleSays : Prop :=
  ∀ (a1 n1 a2 n2 w : Nat),
    (Span.inRange ⟨a1, n1⟩ w = true ↔ a1 + n1 ≤ 2 ^ w) ∧
    (Span.overlaps ⟨a1, n1⟩ ⟨a2, n2⟩ = true ↔ ∃ a, (a1 ≤ a ∧ a < a1 + n1) ∧ (a2 ≤ a ∧ a < a2 + n2)) ∧
    (Span.overlaps ⟨a1, n1⟩ ⟨a2, n2⟩ = true ↔ n1 > 0 ∧ n2 > 0 ∧ a1 < a2 + n2 ∧ a2 < a1 + n1)

/-- R58: a command one of whose checked spans is not in range ends with AddressRange, has accessed no memory and
written no register other than STATUS, whatever else is wrong with its operands. -/
def Obligations.SpansOutOfRangeEndWithAddressRange : Prop :=
  ∀ s : State,
    let top := 2 ^ s.cfg.addrW
    let srcOut := top < s.srcAddr.toNat + s.srcLen.toNat
    let dstOut := top < s.dstAddr.toNat + s.dstLen.toNat
    let payOut := top < s.payAddr.toNat + s.recLen.toNat
    let areaOut := top < s.payAddr.toNat + 255
    let t := Host.Outcome.next { s with result := .addressRange, busy := false, draws := s.draws + 1 }
    (srcOut → exec .crcSpan s = t) ∧ (srcOut ∨ dstOut → exec .append s = t) ∧
    (payOut ∨ dstOut → exec .serEnc s = t) ∧ (srcOut ∨ areaOut → exec .serDec s = t) ∧
    (payOut ∨ dstOut → exec .radEnc s = t) ∧ (srcOut ∨ areaOut → exec .radDec s = t)

/-- R81: in range, a read span that overlaps the write buffer is refused, for each of the five commands of the table;
the other four are never refused for an overlap. -/
def Obligations.OverlappingSpansAreRefused : Prop :=
  ∀ s : State,
    let w := s.cfg.addrW
    (s.srcSpan.inRange w = true → s.dstSpan.inRange w = true → s.srcSpan.overlaps s.dstSpan = true →
      exec .append s = .refused .overlap) ∧
    (s.paySpan.inRange w = true → s.dstSpan.inRange w = true → s.paySpan.overlaps s.dstSpan = true →
      exec .serEnc s = .refused .overlap ∧ exec .radEnc s = .refused .overlap) ∧
    (s.srcSpan.inRange w = true → s.payArea.inRange w = true → s.srcSpan.overlaps s.payArea = true →
      exec .serDec s = .refused .overlap ∧ exec .radDec s = .refused .overlap) ∧
    exec .crcInit s ≠ .refused .overlap ∧ (∀ b, exec (.crcByte b) s ≠ .refused .overlap) ∧
    exec .crcSpan s ≠ .refused .overlap ∧ exec .kindCheck s ≠ .refused .overlap

/-- R56, R148: in range and apart, a command with a span on memory with read side effects is refused, and so is one
whose spans collide with a command of another instance: one of the two writes what the other reads or writes. The
event that what runs in the other instances changes is refused if two of the new claims, of different instances,
collide, or while BUSY = 1 if an old or a new claim collides with the running command. Else it records the claims, and
the shared data memory takes the bytes the others have written: in a byte of an old write claim the last one written
there; every other byte, those of the running command's spans among them, stays. (Claims, their owners and their event
are the model's form of R148, and that the refusal covers every pair of instances its reading, log 10; that a claim of
another instance on a device region is accepted, its choice, log 10; the spans, log 14; the order of the refusals, log
12.) -/
def Obligations.DeviceSpansAndOtherInstancesAreRefused : Prop :=
  let collides := fun (s : State) (i : Instr) (c : Claim) =>
    (∃ sp ∈ writeSpans i s, c.span.overlaps sp = true) ∨
      (c.writes = true ∧ ∃ sp ∈ readSpans i s, c.span.overlaps sp = true)
  (∀ (s : State) (i : Instr), (∀ sp ∈ checkedSpans i s, sp.inRange s.cfg.addrW = true) →
    spansOverlap i s = false →
    ((∃ sp ∈ checkedSpans i s, ∃ r ∈ s.regions, r.kind = .device ∧ r.span.overlaps sp = true) →
      exec i s = .refused .deviceSpan) ∧
    ((∀ sp ∈ checkedSpans i s, ∀ r ∈ s.regions, r.kind = .device → r.span.overlaps sp = false) →
      (∃ c ∈ s.others, collides s i c) → exec i s = .refused .otherInstance)) ∧
  ∀ (s : State) (cs : List Claim) (written : List Host.Cell),
    let pair := ∃ c ∈ cs, ∃ d ∈ cs, c.owner ≠ d.owner ∧ (c.writes = true ∨ d.writes = true) ∧
      c.span.overlaps d.span = true
    let mayWrite := fun (a : Nat) => ∃ c ∈ s.others, c.writes = true ∧ c.span.contains a = true
    (pair → hostOp (.claims cs written) s = .refused .otherInstance) ∧
    (∀ i, s.busy = true → decode s.pending = .ok i → (∃ c ∈ s.others ++ cs, collides s i c) →
      hostOp (.claims cs written) s = .refused .otherInstance) ∧
    (s.mem.wf → ¬ pair → (s.busy = true → ∀ i, decode s.pending = .ok i → ∀ c ∈ s.others ++ cs, ¬ collides s i c) →
      ∃ t : State, hostOp (.claims cs written) s = .next t ∧ t = { s with others := cs, mem := t.mem } ∧
        (∀ a b before after, written = before ++ (a, b) :: after → (∀ c ∈ after, c.1 ≠ a) → mayWrite a →
          a < 2 ^ s.cfg.addrW → t.mem.read a = b) ∧
        (∀ a, ¬ mayWrite a ∨ (∀ c ∈ written, c.1 ≠ a) → t.mem.read a = s.mem.read a) ∧
        ∀ i, s.busy = true → decode s.pending = .ok i → ∀ sp ∈ readSpans i s ++ writeSpans i s, ∀ a,
          sp.contains a = true → t.mem.read a = s.mem.read a)

/-- R57: CRC_SPAN of a span the platform does not complete an access in is stuck; on memory another agent may write
during the command, it runs on the bytes the platform answers, free values. (Log 9, 11.) -/
def Obligations.UncompletedReadsAreStuckAndSharedOnesFree : Prop :=
  ∀ s : State, s.passed .crcSpan = true →
    (s.touches .unmapped s.srcSpan = true → exec .crcSpan s = .fault .accessNotCompleted) ∧
    (s.touches .unmapped s.srcSpan = false →
      exec .crcSpan s = .next { s with
        crcAcc := checksum ((List.range s.srcLen.toNat).map fun k =>
          if s.touches .shared ⟨s.srcAddr.toNat + k, 1⟩ then Config.freeByte s.draws k
          else s.mem.read (s.srcAddr.toNat + k)),
        result := .ok, busy := false, draws := s.draws + 1 })

/-- R57 for the other commands that access data memory, reads and writes: let through to its own rule, a command is
stuck where the platform does not complete an access the command makes. APPEND, if it fits: in the source bytes or
where they go. An encoder with header length h, as far as its capacity lets it write: in the header, the payload it
reads and writes, the checksum. A decoder with minimum length m and this magic, given a frame no shorter: in byte 0; in
any byte of the frame if byte 0 is the magic; in the payload area if it accepts the frame. (Only accesses that are made
count: log 9, 11, 19.) -/
def Obligations.UncompletedAccessesAreStuck : Prop :=
  ∀ s : State,
    let missing := fun (a n : Nat) => s.touches .unmapped ⟨a, n⟩ = true
    let stuck := fun (i : Instr) => exec i s = .fault .accessNotCompleted
    let l := s.srcLen.toNat
    let n := s.recLen.toNat
    let cap := s.dstLen.toNat
    let src := s.srcAddr.toNat
    let dst := s.dstAddr.toNat
    let pay := s.payAddr.toNat
    let encoder := fun (i : Instr) (h : Nat) => s.passed i = true →
      (h ≤ cap → missing dst h → stuck i) ∧
      (h + n ≤ cap → missing pay n ∨ missing dst (h + n) → stuck i) ∧
      (h + n + 2 ≤ cap → missing dst (h + n + 2) → stuck i)
    let decoder := fun (i : Instr) (m : Nat) (magic : Byte) (verdict : List Byte → Result) =>
      s.passed i = true → m ≤ l →
      (missing src 1 → stuck i) ∧
      (s.byteAt 0 src = magic → missing src l → stuck i) ∧
      (s.ordinary s.srcSpan = true → verdict (s.mem.readList src l) = .ok → missing pay (l - m) → stuck i)
    (s.passed .append = true → 0 < l → s.dstOff.toNat + l ≤ cap →
      missing src l ∨ missing (dst + s.dstOff.toNat) l → stuck .append) ∧
    encoder .serEnc 3 ∧ encoder .radEnc 6 ∧
    decoder .serDec 5 0x7E#8 (serialVerdict s.cfg) ∧ decoder .radDec 8 s.cfg.radioMagic (radioVerdict s.cfg)

/-! ### The Checksum Engine -/

/-- R99: CRC_INIT, word 0x00000001, sets CRC_ACC to 0xFFFF whatever it was and ends OK; it changes nothing else. -/
def Obligations.CrcInitSetsTheInitialValue : Prop :=
  decode 0x00000001#32 = .ok .crcInit ∧
  ∀ s : State, exec .crcInit s =
    .next { s with crcAcc := 0xFFFF#16, result := .ok, busy := false, draws := s.draws + 1 }

/-- R100: CRC_BYTE, word 0x0000ii02, takes one step from whatever CRC_ACC holds and ends OK; it changes nothing
else; a zero state stays zero under a zero byte. The example: 0xFFFF and 0x00 give 0x0F87. -/
def Obligations.CrcByteAccumulatesItsByte : Prop :=
  (∀ ii : Byte, decode (0x00000002#32 ||| (ii.setWidth 32 <<< 8)) = .ok (.crcByte ii)) ∧
  (∀ (ii : Byte) (s : State), exec (.crcByte ii) s =
    .next { s with crcAcc := crcStep s.crcAcc ii, result := .ok, busy := false, draws := s.draws + 1 }) ∧
  crcStep 0x0000#16 0x00#8 = 0x0000#16 ∧ crcStep 0xFFFF#16 0x00#8 = 0x0F87#16

/-- R101: CRC_SPAN, word 0x00000003, sets CRC_ACC to the checksum of the span's bytes, from CRC_INIT, not from the old
CRC_ACC, and ends OK, changing nothing else; out of range it ends with AddressRange and CRC_ACC unchanged; an empty
span gives 0xFFFF. -/
def Obligations.CrcSpanChecksumsItsSpan : Prop :=
  decode 0x00000003#32 = .ok .crcSpan ∧
  ∀ s : State,
    (s.ready .crcSpan = true → exec .crcSpan s =
      .next { s with crcAcc := checksum (s.mem.readList s.srcAddr.toNat s.srcLen.toNat), result := .ok,
                     busy := false, draws := s.draws + 1 }) ∧
    (2 ^ s.cfg.addrW < s.srcAddr.toNat + s.srcLen.toNat → exec .crcSpan s =
      .next { s with result := .addressRange, busy := false, draws := s.draws + 1 }) ∧
    (s.srcLen = 0#16 → s.srcAddr.toNat ≤ 2 ^ s.cfg.addrW → exec .crcSpan s =
      .next { s with crcAcc := 0xFFFF#16, result := .ok, busy := false, draws := s.draws + 1 })

/-- R89, R90, R91: the shift form and the table form of the step equal the bitwise form R88 for every state and byte,
and the printed table is the step from the zero state. -/
def Obligations.StepFormsAgree : Prop :=
  (∀ (c : Half) (b : Byte), crcStepShift c b = crcStep c b) ∧
  (∀ (c : Half) (b : Byte), crcStepTable c b = crcStep c b) ∧
  ∀ i : Byte, crcTableAt i = crcStep 0x0000#16 i

/-- R97: the check value. -/
def Obligations.CheckValueOfTheChecksum : Prop :=
  checksum [0x31#8, 0x32#8, 0x33#8, 0x34#8, 0x35#8, 0x36#8, 0x37#8, 0x38#8, 0x39#8] = 0x6F91#16

/-- R98: after CRC_INIT followed by CRC_BYTE b0, ..., b(n−1), CRC_ACC is checksum([b0, ..., b(n−1)]), and nothing else
has changed. -/
def Obligations.CrcBytesAccumulateTheChecksum : Prop :=
  ∀ (s : State) (bs : List Byte),
    bs.foldl (fun (r : Res State) (b : Byte) => andThen r (exec (.crcByte b))) (exec .crcInit s) =
      .next { s with crcAcc := checksum bs, result := .ok, busy := false, draws := s.draws + 1 + bs.length }

/-- R93: the fold continues across a split; so CRC_SPAN of a first piece, then CRC_BYTE of the rest, leaves the
checksum of the whole. -/
def Obligations.SpanThenBytesChecksumTheWhole : Prop :=
  (∀ xs ys : List Byte, checksum (xs ++ ys) = ys.foldl crcStep (checksum xs)) ∧
  ∀ (s : State) (bs : List Byte), s.ready .crcSpan = true →
    bs.foldl (fun (r : Res State) (b : Byte) => andThen r (exec (.crcByte b))) (exec .crcSpan s) =
      .next { s with crcAcc := checksum (s.mem.readList s.srcAddr.toNat s.srcLen.toNat ++ bs), result := .ok,
                     busy := false, draws := s.draws + 1 + bs.length }

/-- R94: two byte sequences of equal length that differ in exactly one bit have different checksums. -/
def Obligations.SingleBitErrorsChangeTheChecksum : Prop :=
  ∀ (before after : List Byte) (b : Byte) (k : Nat), k < 8 →
    checksum (before ++ b :: after) ≠ checksum (before ++ (b ^^^ (1#8 <<< k)) :: after)

/-! ### The Bounded Appender -/

/-- R107, R103 to R106: APPEND, word 0x00000004. Zero length: OK, nothing else changed, even when DST_OFF exceeds
DST_LEN. No room, sums exact: BufferTooSmall, nothing else changed. Room: the source bytes, in order, at
DST_ADDR + DST_OFF, DST_OFF advanced, OK; no other byte and no other register changed. -/
def Obligations.AppendCopiesOrLeavesEverything : Prop :=
  decode 0x00000004#32 = .ok .append ∧
  ∀ s : State, s.mem.wf → s.ready .append = true →
    let l := s.srcLen.toNat
    let off := s.dstOff.toNat
    let at' := s.dstAddr.toNat + off
    (l = 0 → exec .append s = .next { s with result := .ok, busy := false, draws := s.draws + 1 }) ∧
    (0 < l → s.dstLen.toNat < off + l → exec .append s =
      .next { s with result := .bufferTooSmall, busy := false, draws := s.draws + 1 }) ∧
    (0 < l → off + l ≤ s.dstLen.toNat → ∃ t, exec .append s = .next t ∧
      t = { s with dstOff := BitVec.ofNat 16 (off + l), mem := t.mem, result := .ok, busy := false,
                   draws := s.draws + 1 } ∧ t.dstOff.toNat = off + l ∧
      t.mem.readList at' l = s.mem.readList s.srcAddr.toNat l ∧
      ∀ a, (a < at' ∨ at' + l ≤ a) → t.mem.read a = s.mem.read a)

/-! ### The frame codecs -/

/-- R117, R113: the four capacity bands of SER_ENC, with what each writes at DST_ADDR and leaves in DST_LEN; no other
byte, REC_* register, PAY_ADDR, DST_ADDR, DST_OFF or CRC_ACC changes. (The working registers: log 7.) -/
def Obligations.SerialEncodeByCapacity : Prop :=
  ∀ s : State, s.mem.wf → s.ready .serEnc = true →
    let n := s.recLen.toNat
    let cap := s.dstLen.toNat
    let d := s.dstAddr.toNat
    let body := [0x7E#8, s.recKind, s.recLen] ++ s.mem.readList s.payAddr.toNat n
    let leaves := fun (written : List Byte) (result : Result) (len : Half) => ∃ t : State,
      exec .serEnc s = .next t ∧
      t = { s with mem := t.mem, dstLen := len, workOff := t.workOff, workCrc := t.workCrc, result := result,
                   busy := false, draws := s.draws + 1 } ∧
      t.mem.readList d written.length = written ∧
      ∀ a, (a < d ∨ d + written.length ≤ a) → t.mem.read a = s.mem.read a
    (cap ≤ 2 → leaves [] .bufferTooSmall s.dstLen) ∧
    (3 ≤ cap → cap < n + 3 → leaves (body.take 3) .bufferTooSmall s.dstLen) ∧
    (n + 3 ≤ cap → cap < n + 5 → leaves body .bufferTooSmall s.dstLen) ∧
    (n + 5 ≤ cap →
      leaves (body ++ [lo (checksum body), hi (checksum body)]) .ok (BitVec.ofNat 16 (n + 5)))

/-- R127, R123: the four capacity bands of RAD_ENC, as for SER_ENC. -/
def Obligations.RadioEncodeByCapacity : Prop :=
  ∀ s : State, s.mem.wf → s.ready .radEnc = true →
    let n := s.recLen.toNat
    let cap := s.dstLen.toNat
    let d := s.dstAddr.toNat
    let body := [s.cfg.radioMagic, s.recSeq, s.recSrcId, s.recDstId, s.recKind, s.recLen] ++
      s.mem.readList s.payAddr.toNat n
    let leaves := fun (written : List Byte) (result : Result) (len : Half) => ∃ t : State,
      exec .radEnc s = .next t ∧
      t = { s with mem := t.mem, dstLen := len, workOff := t.workOff, workCrc := t.workCrc, result := result,
                   busy := false, draws := s.draws + 1 } ∧
      t.mem.readList d written.length = written ∧
      ∀ a, (a < d ∨ d + written.length ≤ a) → t.mem.read a = s.mem.read a
    (cap ≤ 5 → leaves [] .bufferTooSmall s.dstLen) ∧
    (6 ≤ cap → cap < n + 6 → leaves (body.take 6) .bufferTooSmall s.dstLen) ∧
    (n + 6 ≤ cap → cap < n + 8 → leaves body .bufferTooSmall s.dstLen) ∧
    (n + 8 ≤ cap →
      leaves (body ++ [lo (checksum body), hi (checksum body)]) .ok (BitVec.ofNat 16 (n + 8)))

/-- R114, R115, R116: SER_DEC ends with the verdict of the five stages, in their order, on the L bytes at SRC_ADDR. On
a rejection neither a record register nor a byte changes. On OK the payload is copied to PAY_ADDR and REC_KIND and
REC_LEN are written, and no other byte and no other register. (The working registers: log 7.) -/
def Obligations.SerialDecodeFollowsTheVerdict : Prop :=
  ∀ s : State, s.mem.wf → s.ready .serDec = true →
    let f := s.mem.readList s.srcAddr.toNat s.srcLen.toNat
    let n := s.srcLen.toNat - 5
    (serialVerdict s.cfg f ≠ .ok → ∃ t, exec .serDec s = .next t ∧
      t = { s with result := serialVerdict s.cfg f, busy := false, draws := s.draws + 1,
                   workOff := t.workOff, workCrc := t.workCrc }) ∧
    (serialVerdict s.cfg f = .ok → ∃ t, exec .serDec s = .next t ∧
      t = { s with result := .ok, busy := false, draws := s.draws + 1, recKind := f.getD 1 0#8,
                   recLen := f.getD 2 0#8, mem := t.mem, workOff := t.workOff, workCrc := t.workCrc } ∧
      t.recLen.toNat = n ∧
      t.mem.readList s.payAddr.toNat n = (f.drop 3).take n ∧
      ∀ a, (a < s.payAddr.toNat ∨ s.payAddr.toNat + n ≤ a) → t.mem.read a = s.mem.read a)

/-- R124, R125, R126: RAD_DEC, as for SER_DEC, with REC_SEQ, REC_SRCID and REC_DSTID from bytes 1, 2 and 3. -/
def Obligations.RadioDecodeFollowsTheVerdict : Prop :=
  ∀ s : State, s.mem.wf → s.ready .radDec = true →
    let f := s.mem.readList s.srcAddr.toNat s.srcLen.toNat
    let n := s.srcLen.toNat - 8
    (radioVerdict s.cfg f ≠ .ok → ∃ t, exec .radDec s = .next t ∧
      t = { s with result := radioVerdict s.cfg f, busy := false, draws := s.draws + 1,
                   workOff := t.workOff, workCrc := t.workCrc }) ∧
    (radioVerdict s.cfg f = .ok → ∃ t, exec .radDec s = .next t ∧
      t = { s with result := .ok, busy := false, draws := s.draws + 1, recSeq := f.getD 1 0#8,
                   recSrcId := f.getD 2 0#8, recDstId := f.getD 3 0#8, recKind := f.getD 4 0#8,
                   recLen := f.getD 5 0#8, mem := t.mem, workOff := t.workOff, workCrc := t.workCrc } ∧
      t.recLen.toNat = n ∧
      t.mem.readList s.payAddr.toNat n = (f.drop 6).take n ∧
      ∀ a, (a < s.payAddr.toNat ∨ s.payAddr.toNat + n ≤ a) → t.mem.read a = s.mem.read a)

/-- R118 (a), (d): SER_ENC with enough room, then SER_DEC of the frame it produced with a payload area apart from the
frame, the host clearing REC_KIND and REC_LEN between them: a valid kind decodes to OK with kind, length and payload as encoded, an invalid one to InvalidMessageKind. -/
def Obligations.SerialRoundTrip : Prop :=
  ∀ (s t u : State) (p : Word), s.mem.wf → s.ready .serEnc = true → s.recLen.toNat + 5 ≤ s.dstLen.toNat →
    exec .serEnc s = .next t →
    u = { t with srcAddr := t.dstAddr, srcLen := t.dstLen, payAddr := p, recKind := 0#8, recLen := 0#8 } →
    u.ready .serDec = true →
    t.result = .ok ∧
    (s.recKind.toNat < s.cfg.kindCount.toNat → ∃ v, exec .serDec u = .next v ∧ v.result = .ok ∧
      v.recKind = s.recKind ∧ v.recLen = s.recLen ∧
      v.mem.readList p.toNat s.recLen.toNat = s.mem.readList s.payAddr.toNat s.recLen.toNat) ∧
    (s.cfg.kindCount.toNat ≤ s.recKind.toNat → ∃ v, exec .serDec u = .next v ∧
      v.result = .invalidMessageKind)

/-- R128 (a): the same for RAD_ENC and RAD_DEC, the host clearing all five record registers between them: all five
scalar fields and the payload come back. -/
def Obligations.RadioRoundTrip : Prop :=
  ∀ (s t u : State) (p : Word), s.mem.wf → s.ready .radEnc = true → s.recLen.toNat + 8 ≤ s.dstLen.toNat →
    exec .radEnc s = .next t →
    u = { t with srcAddr := t.dstAddr, srcLen := t.dstLen, payAddr := p, recSeq := 0#8, recSrcId := 0#8,
                 recDstId := 0#8, recKind := 0#8, recLen := 0#8 } → u.ready .radDec = true →
    t.result = .ok ∧
    (s.recKind.toNat < s.cfg.kindCount.toNat → ∃ v, exec .radDec u = .next v ∧ v.result = .ok ∧
      v.recSeq = s.recSeq ∧ v.recSrcId = s.recSrcId ∧ v.recDstId = s.recDstId ∧ v.recKind = s.recKind ∧
      v.recLen = s.recLen ∧
      v.mem.readList p.toNat s.recLen.toNat = s.mem.readList s.payAddr.toNat s.recLen.toNat) ∧
    (s.cfg.kindCount.toNat ≤ s.recKind.toNat → ∃ v, exec .radDec u = .next v ∧
      v.result = .invalidMessageKind)

/-- R118 (b), R128 (b), C2: one bit of byte j of an accepted frame is flipped in memory. In byte 0 the decoder reports
MagicMismatch, in any other byte ChecksumMismatch, in both profiles. -/
def Obligations.SingleBitCorruptionIsRejected : Prop :=
  ∀ (s u : State) (j k : Nat), s.mem.wf → j < s.srcLen.toNat → k < 8 →
    let at' := s.srcAddr.toNat + j
    u = { s with mem := s.mem.write at' (s.mem.read at' ^^^ (1#8 <<< k)) } →
    (s.ready .serDec = true →
      serialVerdict s.cfg (s.mem.readList s.srcAddr.toNat s.srcLen.toNat) = .ok →
      ∃ v, exec .serDec u = .next v ∧ v.result = if j = 0 then .magicMismatch else .checksumMismatch) ∧
    (s.ready .radDec = true →
      radioVerdict s.cfg (s.mem.readList s.srcAddr.toNat s.srcLen.toNat) = .ok →
      ∃ v, exec .radDec u = .next v ∧ v.result = if j = 0 then .magicMismatch else .checksumMismatch)

/-- R118 (c), R128 (c): a decoder given only the first m bytes of an accepted frame reports FrameTooShort below its
minimum length, else ChecksumMismatch or LengthMismatch, and never accepts. -/
def Obligations.TruncatedFramesAreRejected : Prop :=
  ∀ (s u : State) (m : Half), s.mem.wf → m.toNat < s.srcLen.toNat → u = { s with srcLen := m } →
    (s.ready .serDec = true →
      serialVerdict s.cfg (s.mem.readList s.srcAddr.toNat s.srcLen.toNat) = .ok → u.ready .serDec = true →
      ∃ v, exec .serDec u = .next v ∧
        if m.toNat < 5 then v.result = .frameTooShort
        else v.result = .checksumMismatch ∨ v.result = .lengthMismatch) ∧
    (s.ready .radDec = true →
      radioVerdict s.cfg (s.mem.readList s.srcAddr.toNat s.srcLen.toNat) = .ok → u.ready .radDec = true →
      ∃ v, exec .radDec u = .next v ∧
        if m.toNat < 8 then v.result = .frameTooShort
        else v.result = .checksumMismatch ∨ v.result = .lengthMismatch)

/-- R118 (e), R128 (d): a frame followed by one 0x00 byte that L counts, in both profiles. The frame accepted: the
padded one passes the checksum stage and ends with LengthMismatch. The frame rejected for its kind: the padded one
passes the checksum stage and ends with InvalidMessageKind. -/
def Obligations.PaddedFramesFailTheLengthCheck : Prop :=
  ∀ s : State, s.mem.wf → 1 ≤ s.srcLen.toNat →
    s.mem.read (s.srcAddr.toNat + s.srcLen.toNat - 1) = 0x00#8 →
    let unpadded := s.mem.readList s.srcAddr.toNat (s.srcLen.toNat - 1)
    let ends := fun (i : Instr) (r : Result) => ∃ v, exec i s = .next v ∧ v.result = r
    (s.ready .serDec = true →
      (serialVerdict s.cfg unpadded = .ok → ends .serDec .lengthMismatch) ∧
      (serialVerdict s.cfg unpadded = .invalidMessageKind → ends .serDec .invalidMessageKind)) ∧
    (s.ready .radDec = true →
      (radioVerdict s.cfg unpadded = .ok → ends .radDec .lengthMismatch) ∧
      (radioVerdict s.cfg unpadded = .invalidMessageKind → ends .radDec .invalidMessageKind))

/-! ### The Message Kind Registry -/

/-- R131, R130: KIND_CHECK, word 0x00000009, ends OK iff REC_KIND < KIND_COUNT, unsigned, else with
InvalidMessageKind, and changes nothing but STATUS; 0xFF is invalid and 0 valid in every legal instance. -/
def Obligations.KindCheckComparesWithTheCount : Prop :=
  decode 0x00000009#32 = .ok .kindCheck ∧
  ∀ s : State,
    exec .kindCheck s = .next { s with
      result := if s.recKind.toNat < s.cfg.kindCount.toNat then .ok else .invalidMessageKind,
      busy := false, draws := s.draws + 1 } ∧
    (s.recKind = 0xFF#8 → exec .kindCheck s =
      .next { s with result := .invalidMessageKind, busy := false, draws := s.draws + 1 }) ∧
    (s.cfg.wf → s.recKind = 0#8 → exec .kindCheck s =
      .next { s with result := .ok, busy := false, draws := s.draws + 1 })

/-! ### The whole machine -/

/-- R78: the registers each command writes, on OK and otherwise, in every state. Everything not named is as before;
STATUS is RESULT, LAST_OP (written at the start) and BUSY. (Data memory, the working registers and the model's
counter may change; what data memory does is `CommandsWriteOnlyTheirSpans`.) -/
def Obligations.CommandsWriteTheRegistersOfTheTable : Prop :=
  ∀ (i : Instr) (s t : State), exec i s = .next t →
    let status := { s with result := t.result, busy := false, draws := s.draws + 1, mem := t.mem,
                           workOff := t.workOff, workCrc := t.workCrc }
    (t.result ≠ .ok → t = status) ∧
    (t.result = .ok → t = match i with
      | .crcInit | .crcByte _ | .crcSpan => { status with crcAcc := t.crcAcc }
      | .append => { status with dstOff := t.dstOff }
      | .serEnc | .radEnc => { status with dstLen := t.dstLen }
      | .serDec => { status with recKind := t.recKind, recLen := t.recLen }
      | .radDec => { status with recSeq := t.recSeq, recSrcId := t.recSrcId, recDstId := t.recDstId,
                                 recKind := t.recKind, recLen := t.recLen }
      | .kindCheck => status)

/-- R137: a command that fails has written no memory, SER_ENC and RAD_ENC apart. -/
def Obligations.FailedCommandsWriteNoMemory : Prop :=
  ∀ (i : Instr) (s t : State), exec i s = .next t → t.result ≠ .ok → i ≠ .serEnc → i ≠ .radEnc → t.mem = s.mem

/-- R48: a command changes no data-memory byte outside the write column of its row, whatever the memory is like. -/
def Obligations.CommandsWriteOnlyTheirSpans : Prop :=
  ∀ (i : Instr) (s t : State), s.mem.wf → exec i s = .next t →
    ∀ a, (∀ sp ∈ writeSpans i s, sp.contains a = false) → t.mem.read a = s.mem.read a

/-- R48: a command learns nothing from data memory beyond what its row lets it read: on two memories that agree on
those bytes (of an encoder the payload alone, for in its buffer it reads only "bytes it wrote"), it ends in the same
way; the two states differ in the memory at most, and each byte either reads alike in both or was changed in
neither. -/
def Obligations.CommandsReadOnlyTheirSpans : Prop :=
  ∀ (i : Instr) (s t : State) (m : Memory), s.mem.wf → m.wf →
    (∀ sp ∈ inputSpans i s, ∀ a, sp.contains a = true → m.read a = s.mem.read a) →
    exec i s = .next t →
    ∃ t', exec i { s with mem := m } = .next t' ∧ t' = { t with mem := t'.mem } ∧
      ∀ a, t'.mem.read a = t.mem.read a ∨ (t.mem.read a = s.mem.read a ∧ t'.mem.read a = m.read a)

/-- R24, R30, R156: no step changes the parameters of the instance, a reset included. -/
def Obligations.StepsKeepTheParameters : Prop :=
  ∀ s t : State, step s = .next t → t.cfg = s.cfg

/-- R31: CRC_ACC changes only by a host write to CRC_ACC, by CRC_INIT, CRC_BYTE and CRC_SPAN, and by reset. -/
def Obligations.AccumulatorHasOnlyItsWriters : Prop :=
  ∀ s t : State, step s = .next t → t.crcAcc ≠ s.crcAcc →
    (s.mover = .engine ∧ s.busy = true ∧
      (decode s.pending = .ok .crcInit ∨ (∃ b, decode s.pending = .ok (.crcByte b)) ∨
        decode s.pending = .ok .crcSpan)) ∨
    (s.mover = .host ∧ ∃ v rest, s.bus = .portWrite 0x0C#8 .word v :: rest) ∨
    (s.mover = .host ∧ ∃ rest, s.bus = .resetInput :: rest)

/-- R43, R29: RESULT is written only at the completion of a command, BUSY set only by a CMD write and cleared only by
the completion of the command or by reset, LAST_OP written only when a command starts; reset apart. -/
def Obligations.StatusHasOnlyItsWriters : Prop :=
  ∀ s t : State, step s = .next t → ¬ (s.mover = .host ∧ ∃ rest, s.bus = .resetInput :: rest) →
    (t.result ≠ s.result → s.mover = .engine ∧ s.busy = true ∧ t.busy = false) ∧
    (s.busy = false → t.busy = true →
      s.mover = .host ∧ ∃ w rest, s.bus = .portWrite 0x00#8 .word w :: rest ∧ t.pending = w) ∧
    (s.busy = true → t.busy = false → s.mover = .engine) ∧
    (t.lastOp ≠ s.lastOp → s.mover = .host ∧ s.busy = false ∧ t.busy = true)

/-- R67, R80: a command already started is fixed. A step that leaves BUSY = 1 changes neither PENDING, LAST_OP, RESULT
nor any operand register, whatever the host does meanwhile, data-memory writes included. -/
def Obligations.StartedCommandsAreFixed : Prop :=
  ∀ s t : State, step s = .next t → s.busy = true → t.busy = true →
    t = { s with mem := t.mem, others := t.others, bus := t.bus, turns := t.turns, replies := t.replies,
                 draws := t.draws }

/-- The invariant of the machine (Safety.lean) is kept by every step from every state that meets it: the parameters
stay legal (R7, R10, R12), the memory keeps its canonical form and stays inside 2^ADDR_W bytes (R47), the address
registers keep to their implemented bits (R32, R34, R37). -/
def Obligations.StepKeepsTheMachineInvariant : Prop :=
  ∀ s t : State, s.Inv → step s = .next t → t.Inv

/-- The state after reset meets the invariant. (The instance is the model's choice, log 1.) -/
def Obligations.ResetMeetsTheMachineInvariant : Prop := State.reset.Inv
end

