-- ==== Sys2Proof/Laws/Memory.lean ====
section
/-! SUPPORT. The laws of the data memory: reading after writing, and that every operation keeps the canonical form
and stays inside the address space. -/

namespace Sys2Proof.Machine

open Sys2Proof

namespace Memory

@[simp] theorem read_nil (a : Nat) : read [] a = unlistedByte := rfl

@[simp] theorem writeList_nil (m : Memory) (a : Nat) : writeList m a [] = m := rfl

@[simp] theorem writeList_cons (m : Memory) (a : Nat) (b : Byte) (bs : List Byte) :
    writeList m a (b :: bs) = writeList (write m a b) (a + 1) bs := rfl

@[simp] theorem readList_zero (m : Memory) (a : Nat) : readList m a 0 = [] := rfl

@[simp] theorem readList_succ (m : Memory) (a n : Nat) :
    readList m a (n + 1) = read m a :: readList m (a + 1) n := rfl

@[simp] theorem length_readList (m : Memory) (a n : Nat) : (readList m a n).length = n := by
  induction n generalizing a with
  | zero => rfl
  | succ n ih => simp [ih]

/-- An address below every listed one reads as unlisted. -/
theorem read_eq_unlisted {m : Memory} {a : Nat} (h : ∀ c ∈ m, a ≠ c.1) : read m a = unlistedByte := by
  induction m with
  | nil => rfl
  | cons c m ih =>
    have hne : c.1 ≠ a := fun e => h c (by simp) e.symm
    simp only [read, hne, if_false]
    exact ih fun c' hc' => h c' (by simp [hc'])

theorem read_write_same {m : Memory} (hm : m.wf) (a : Nat) (b : Byte) : read (write m a b) a = b := by
  induction m with
  | nil => by_cases hb : b = unlistedByte <;> simp [write, read, hb]
  | cons c m ih =>
    obtain ⟨k, v⟩ := c
    have hlt : ∀ c ∈ m, k < c.1 := (List.pairwise_cons.1 hm.1).1
    have hm' : Memory.wf m := ⟨(List.pairwise_cons.1 hm.1).2, fun c hc => hm.2 c (by simp [hc])⟩
    unfold write
    split
    · rename_i hak
      split
      · rename_i hb
        subst hb
        refine read_eq_unlisted fun c hc => ?_
        rcases List.mem_cons.1 hc with rfl | hc
        · simp; omega
        · have := hlt c hc; omega
      · simp [read]
    · split
      · rename_i hak
        subst hak
        split
        · rename_i hb
          subst hb
          exact read_eq_unlisted fun c hc => by have := hlt c hc; omega
        · simp [read]
      · rename_i hne
        have : k ≠ a := fun e => hne e.symm
        simp [read, this, ih hm']

theorem read_write_ne {m : Memory} (hm : m.wf) {a a' : Nat} (b : Byte) (h : a' ≠ a) :
    read (write m a b) a' = read m a' := by
  induction m with
  | nil => by_cases hb : b = unlistedByte <;> simp [write, read, hb, Ne.symm h]
  | cons c m ih =>
    obtain ⟨k, v⟩ := c
    have hlt : ∀ c ∈ m, k < c.1 := (List.pairwise_cons.1 hm.1).1
    have hm' : Memory.wf m := ⟨(List.pairwise_cons.1 hm.1).2, fun c hc => hm.2 c (by simp [hc])⟩
    unfold write
    split
    · split <;> simp [read, Ne.symm h]
    · split
      · rename_i hak
        subst hak
        split <;> simp [read, Ne.symm h]
      · simp [read, ih hm']

/-- Reading after a write (R57: a read returns the last byte written there). -/
theorem read_write {m : Memory} (hm : m.wf) (a a' : Nat) (b : Byte) :
    read (write m a b) a' = if a' = a then b else read m a' := by
  split
  · rename_i h; subst h; exact read_write_same hm _ _
  · rename_i h; exact read_write_ne hm _ h

theorem mem_write {m : Memory} {a : Nat} {b : Byte} {c : Host.Cell} (h : c ∈ write m a b) :
    c ∈ m ∨ (c = (a, b) ∧ b ≠ unlistedByte) := by
  induction m with
  | nil =>
    unfold write at h
    split at h
    · simp at h
    · rename_i hb; exact .inr ⟨by simpa using h, hb⟩
  | cons d m ih =>
    obtain ⟨k, v⟩ := d
    unfold write at h
    split at h
    · split at h
      · exact .inl h
      · rename_i hb
        rcases List.mem_cons.1 h with rfl | h
        · exact .inr ⟨rfl, hb⟩
        · exact .inl h
    · split at h
      · split at h
        · exact .inl (by simp [h])
        · rename_i hb
          rcases List.mem_cons.1 h with rfl | h
          · exact .inr ⟨rfl, hb⟩
          · exact .inl (by simp [h])
      · rcases List.mem_cons.1 h with rfl | h
        · exact .inl (by simp)
        · rcases ih h with h | h
          · exact .inl (by simp [h])
          · exact .inr h

/-- A write keeps the canonical form. -/
theorem write_wf {m : Memory} (hm : m.wf) (a : Nat) (b : Byte) : (write m a b).wf := by
  refine ⟨?_, fun c hc => ?_⟩
  · induction m with
    | nil => unfold write; split <;> simp
    | cons d m ih =>
      obtain ⟨k, v⟩ := d
      have hlt : ∀ c ∈ m, k < c.1 := (List.pairwise_cons.1 hm.1).1
      have hp := (List.pairwise_cons.1 hm.1).2
      have hm' : Memory.wf m := ⟨hp, fun c hc => hm.2 c (by simp [hc])⟩
      unfold write
      split
      · rename_i hak
        split
        · exact hm.1
        · refine List.pairwise_cons.2 ⟨fun c hc => ?_, hm.1⟩
          rcases List.mem_cons.1 hc with rfl | hc
          · exact hak
          · have := hlt c hc; simp only; omega
      · split
        · rename_i hak
          subst hak
          split
          · exact hp
          · exact List.pairwise_cons.2 ⟨hlt, hp⟩
        · refine List.pairwise_cons.2 ⟨fun c hc => ?_, ih hm'⟩
          rcases mem_write hc with hc | ⟨rfl, -⟩
          · exact hlt c hc
          · simp only; omega
  · rcases mem_write hc with hc | ⟨rfl, hb⟩
    · exact hm.2 c hc
    · exact hb

/-- A write below 2^ADDR_W keeps the memory inside the address space. -/
theorem write_within {m : Memory} {w : Nat} (hm : m.within w) {a : Nat} (ha : a < 2 ^ w) (b : Byte) :
    (write m a b).within w := by
  intro c hc
  rcases mem_write hc with hc | ⟨rfl, -⟩
  · exact hm c hc
  · exact ha

/-- Beyond the address space a memory inside it reads as unlisted. -/
theorem read_beyond {m : Memory} {w a : Nat} (hm : m.within w) (ha : 2 ^ w ≤ a) : read m a = unlistedByte :=
  read_eq_unlisted fun c hc => by have := hm c hc; omega

/-- A write that beyond the address space stores only the unlisted byte keeps the memory inside. -/
theorem write_within_of_beyond {m : Memory} {w a : Nat} {b : Byte} (hm : m.within w)
    (hb : 2 ^ w ≤ a → b = unlistedByte) : (write m a b).within w := by
  intro c hc
  rcases mem_write hc with hc | ⟨rfl, hne⟩
  · exact hm c hc
  · by_contra hw
    exact hne (hb (Nat.not_lt.1 hw))

theorem writeList_wf {m : Memory} (hm : m.wf) (a : Nat) (bs : List Byte) : (writeList m a bs).wf := by
  induction bs generalizing m a with
  | nil => exact hm
  | cons b bs ih => exact ih (write_wf hm a b) (a + 1)

theorem writeList_within {m : Memory} {w : Nat} (hm : m.within w) {a : Nat} (bs : List Byte)
    (ha : a + bs.length ≤ 2 ^ w) : (writeList m a bs).within w := by
  induction bs generalizing m a with
  | nil => exact hm
  | cons b bs ih =>
    simp only [List.length_cons] at ha
    exact ih (write_within hm (by omega) b) (by omega)

/-- Outside the stored bytes nothing changes. -/
theorem read_writeList_out {m : Memory} (hm : m.wf) (a : Nat) (bs : List Byte) {a' : Nat}
    (h : a' < a ∨ a + bs.length ≤ a') : read (writeList m a bs) a' = read m a' := by
  induction bs generalizing m a with
  | nil => rfl
  | cons b bs ih =>
    simp only [List.length_cons] at h
    rw [writeList_cons, ih (write_wf hm a b) (a + 1) (by omega), read_write_ne hm b (by omega)]

/-- The stored bytes read back. -/
theorem read_writeList_in {m : Memory} (hm : m.wf) (a : Nat) (bs : List Byte) {k : Nat} (h : k < bs.length) :
    read (writeList m a bs) (a + k) = bs[k] := by
  induction bs generalizing m a k with
  | nil => simp at h
  | cons b bs ih =>
    cases k with
    | zero =>
      rw [writeList_cons, read_writeList_out (write_wf hm a b) _ _ (by omega)]
      simpa using read_write_same hm a b
    | succ k =>
      have hk : k < bs.length := by simpa using h
      have := ih (write_wf hm a b) (a + 1) hk
      rw [writeList_cons, show a + (k + 1) = a + 1 + k by omega, this]
      rfl

/-- Two memories that read alike at an address still do after the same bytes are stored in both. -/
theorem read_writeList_congr {m m' : Memory} (hm : m.wf) (hm' : m'.wf) (a : Nat) (bs : List Byte) {x : Nat}
    (h : read m x = read m' x) : read (writeList m a bs) x = read (writeList m' a bs) x := by
  induction bs generalizing m m' a with
  | nil => exact h
  | cons b bs ih =>
    refine ih (write_wf hm _ _) (write_wf hm' _ _) _ ?_
    rw [read_write hm, read_write hm', h]

theorem getElem_readList (m : Memory) (a n : Nat) {k : Nat} (h : k < (readList m a n).length) :
    (readList m a n)[k] = read m (a + k) := by
  induction n generalizing a k with
  | zero => simp at h
  | succ n ih =>
    cases k with
    | zero => rfl
    | succ k =>
      have := ih (a + 1) (k := k) (by simpa using h)
      rw [show a + (k + 1) = a + 1 + k by omega, ← this]
      rfl

/-- Two memories that read alike on a span list alike. -/
theorem readList_congr {m m' : Memory} {a n : Nat} (h : ∀ k, k < n → read m (a + k) = read m' (a + k)) :
    readList m a n = readList m' a n := by
  induction n generalizing a with
  | zero => rfl
  | succ n ih =>
    have h0 := h 0 (by omega)
    simp only [readList_succ, Nat.add_zero] at h0 ⊢
    rw [h0, ih fun k hk => by rw [Nat.add_right_comm]; exact h (k + 1) (by omega)]

theorem readList_append (m : Memory) (a n k : Nat) :
    readList m a (n + k) = readList m a n ++ readList m (a + n) k := by
  induction n generalizing a with
  | zero => simp
  | succ n ih =>
    rw [Nat.add_right_comm, readList_succ, ih, readList_succ, List.cons_append,
      show a + 1 + n = a + (n + 1) by omega]

theorem getD_readList (m : Memory) (a : Nat) {n k : Nat} (h : k < n) (b : Byte) :
    (readList m a n).getD k b = read m (a + k) := by
  rw [List.getD_eq_getElem _ _ (by simpa using h), getElem_readList]

theorem take_readList (m : Memory) (a : Nat) {n k : Nat} (h : k ≤ n) :
    (readList m a n).take k = readList m a k := by
  obtain ⟨j, rfl⟩ := Nat.exists_eq_add_of_le h
  rw [readList_append, List.take_left' (by simp)]

theorem drop_readList (m : Memory) (a n k : Nat) : (readList m a (n + k)).drop n = readList m (a + n) k := by
  rw [readList_append, List.drop_left' (by simp)]

/-- What was stored reads back as a list. -/
theorem readList_writeList {m : Memory} (hm : m.wf) (a : Nat) (bs : List Byte) :
    readList (writeList m a bs) a bs.length = bs := by
  refine List.ext_getElem (by simp) fun k h h' => ?_
  rw [getElem_readList, read_writeList_in hm a bs h']

theorem readList_writeList_out {m : Memory} (hm : m.wf) (a : Nat) (bs : List Byte) {a' n : Nat}
    (h : n = 0 ∨ a' + n ≤ a ∨ a + bs.length ≤ a') :
    readList (writeList m a bs) a' n = readList m a' n :=
  readList_congr fun k hk => read_writeList_out hm a bs (by omega)

theorem writeList_append (m : Memory) (a : Nat) (xs ys : List Byte) :
    writeList m a (xs ++ ys) = writeList (writeList m a xs) (a + xs.length) ys := by
  induction xs generalizing m a with
  | nil => rfl
  | cons x xs ih =>
    simp only [List.cons_append, writeList_cons, ih, List.length_cons]
    rw [show a + 1 + xs.length = a + (xs.length + 1) by omega]

end Memory

end Sys2Proof.Machine
end

