-- ==== Sys2Proof/Laws/State.lean ====
section
/-! SUPPORT. One lemma for each field and each update of State, true by rfl: later proofs unfold no update. -/

namespace Sys2Proof.Machine

open Sys2Proof

variable (s : State)

/-! ### `State.withMem` -/

@[simp] theorem State.withMem_cfg (m : Memory) : (s.withMem m).cfg = s.cfg := rfl
@[simp] theorem State.withMem_result (m : Memory) : (s.withMem m).result = s.result := rfl
@[simp] theorem State.withMem_lastOp (m : Memory) : (s.withMem m).lastOp = s.lastOp := rfl
@[simp] theorem State.withMem_busy (m : Memory) : (s.withMem m).busy = s.busy := rfl
@[simp] theorem State.withMem_pending (m : Memory) : (s.withMem m).pending = s.pending := rfl
@[simp] theorem State.withMem_crcAcc (m : Memory) : (s.withMem m).crcAcc = s.crcAcc := rfl
@[simp] theorem State.withMem_srcAddr (m : Memory) : (s.withMem m).srcAddr = s.srcAddr := rfl
@[simp] theorem State.withMem_srcLen (m : Memory) : (s.withMem m).srcLen = s.srcLen := rfl
@[simp] theorem State.withMem_dstAddr (m : Memory) : (s.withMem m).dstAddr = s.dstAddr := rfl
@[simp] theorem State.withMem_dstLen (m : Memory) : (s.withMem m).dstLen = s.dstLen := rfl
@[simp] theorem State.withMem_dstOff (m : Memory) : (s.withMem m).dstOff = s.dstOff := rfl
@[simp] theorem State.withMem_payAddr (m : Memory) : (s.withMem m).payAddr = s.payAddr := rfl
@[simp] theorem State.withMem_recKind (m : Memory) : (s.withMem m).recKind = s.recKind := rfl
@[simp] theorem State.withMem_recLen (m : Memory) : (s.withMem m).recLen = s.recLen := rfl
@[simp] theorem State.withMem_recSeq (m : Memory) : (s.withMem m).recSeq = s.recSeq := rfl
@[simp] theorem State.withMem_recSrcId (m : Memory) : (s.withMem m).recSrcId = s.recSrcId := rfl
@[simp] theorem State.withMem_recDstId (m : Memory) : (s.withMem m).recDstId = s.recDstId := rfl
@[simp] theorem State.withMem_workOff (m : Memory) : (s.withMem m).workOff = s.workOff := rfl
@[simp] theorem State.withMem_workCrc (m : Memory) : (s.withMem m).workCrc = s.workCrc := rfl
@[simp] theorem State.withMem_mem (m : Memory) : (s.withMem m).mem = m := rfl
@[simp] theorem State.withMem_regions (m : Memory) : (s.withMem m).regions = s.regions := rfl
@[simp] theorem State.withMem_others (m : Memory) : (s.withMem m).others = s.others := rfl
@[simp] theorem State.withMem_bus (m : Memory) : (s.withMem m).bus = s.bus := rfl
@[simp] theorem State.withMem_turns (m : Memory) : (s.withMem m).turns = s.turns := rfl
@[simp] theorem State.withMem_replies (m : Memory) : (s.withMem m).replies = s.replies := rfl
@[simp] theorem State.withMem_draws (m : Memory) : (s.withMem m).draws = s.draws := rfl

/-! ### `State.withCrcAcc` -/

@[simp] theorem State.withCrcAcc_cfg (v : Half) : (s.withCrcAcc v).cfg = s.cfg := rfl
@[simp] theorem State.withCrcAcc_result (v : Half) : (s.withCrcAcc v).result = s.result := rfl
@[simp] theorem State.withCrcAcc_lastOp (v : Half) : (s.withCrcAcc v).lastOp = s.lastOp := rfl
@[simp] theorem State.withCrcAcc_busy (v : Half) : (s.withCrcAcc v).busy = s.busy := rfl
@[simp] theorem State.withCrcAcc_pending (v : Half) : (s.withCrcAcc v).pending = s.pending := rfl
@[simp] theorem State.withCrcAcc_crcAcc (v : Half) : (s.withCrcAcc v).crcAcc = v := rfl
@[simp] theorem State.withCrcAcc_srcAddr (v : Half) : (s.withCrcAcc v).srcAddr = s.srcAddr := rfl
@[simp] theorem State.withCrcAcc_srcLen (v : Half) : (s.withCrcAcc v).srcLen = s.srcLen := rfl
@[simp] theorem State.withCrcAcc_dstAddr (v : Half) : (s.withCrcAcc v).dstAddr = s.dstAddr := rfl
@[simp] theorem State.withCrcAcc_dstLen (v : Half) : (s.withCrcAcc v).dstLen = s.dstLen := rfl
@[simp] theorem State.withCrcAcc_dstOff (v : Half) : (s.withCrcAcc v).dstOff = s.dstOff := rfl
@[simp] theorem State.withCrcAcc_payAddr (v : Half) : (s.withCrcAcc v).payAddr = s.payAddr := rfl
@[simp] theorem State.withCrcAcc_recKind (v : Half) : (s.withCrcAcc v).recKind = s.recKind := rfl
@[simp] theorem State.withCrcAcc_recLen (v : Half) : (s.withCrcAcc v).recLen = s.recLen := rfl
@[simp] theorem State.withCrcAcc_recSeq (v : Half) : (s.withCrcAcc v).recSeq = s.recSeq := rfl
@[simp] theorem State.withCrcAcc_recSrcId (v : Half) : (s.withCrcAcc v).recSrcId = s.recSrcId := rfl
@[simp] theorem State.withCrcAcc_recDstId (v : Half) : (s.withCrcAcc v).recDstId = s.recDstId := rfl
@[simp] theorem State.withCrcAcc_workOff (v : Half) : (s.withCrcAcc v).workOff = s.workOff := rfl
@[simp] theorem State.withCrcAcc_workCrc (v : Half) : (s.withCrcAcc v).workCrc = s.workCrc := rfl
@[simp] theorem State.withCrcAcc_mem (v : Half) : (s.withCrcAcc v).mem = s.mem := rfl
@[simp] theorem State.withCrcAcc_regions (v : Half) : (s.withCrcAcc v).regions = s.regions := rfl
@[simp] theorem State.withCrcAcc_others (v : Half) : (s.withCrcAcc v).others = s.others := rfl
@[simp] theorem State.withCrcAcc_bus (v : Half) : (s.withCrcAcc v).bus = s.bus := rfl
@[simp] theorem State.withCrcAcc_turns (v : Half) : (s.withCrcAcc v).turns = s.turns := rfl
@[simp] theorem State.withCrcAcc_replies (v : Half) : (s.withCrcAcc v).replies = s.replies := rfl
@[simp] theorem State.withCrcAcc_draws (v : Half) : (s.withCrcAcc v).draws = s.draws := rfl

/-! ### `State.withDstLen` -/

@[simp] theorem State.withDstLen_cfg (v : Half) : (s.withDstLen v).cfg = s.cfg := rfl
@[simp] theorem State.withDstLen_result (v : Half) : (s.withDstLen v).result = s.result := rfl
@[simp] theorem State.withDstLen_lastOp (v : Half) : (s.withDstLen v).lastOp = s.lastOp := rfl
@[simp] theorem State.withDstLen_busy (v : Half) : (s.withDstLen v).busy = s.busy := rfl
@[simp] theorem State.withDstLen_pending (v : Half) : (s.withDstLen v).pending = s.pending := rfl
@[simp] theorem State.withDstLen_crcAcc (v : Half) : (s.withDstLen v).crcAcc = s.crcAcc := rfl
@[simp] theorem State.withDstLen_srcAddr (v : Half) : (s.withDstLen v).srcAddr = s.srcAddr := rfl
@[simp] theorem State.withDstLen_srcLen (v : Half) : (s.withDstLen v).srcLen = s.srcLen := rfl
@[simp] theorem State.withDstLen_dstAddr (v : Half) : (s.withDstLen v).dstAddr = s.dstAddr := rfl
@[simp] theorem State.withDstLen_dstLen (v : Half) : (s.withDstLen v).dstLen = v := rfl
@[simp] theorem State.withDstLen_dstOff (v : Half) : (s.withDstLen v).dstOff = s.dstOff := rfl
@[simp] theorem State.withDstLen_payAddr (v : Half) : (s.withDstLen v).payAddr = s.payAddr := rfl
@[simp] theorem State.withDstLen_recKind (v : Half) : (s.withDstLen v).recKind = s.recKind := rfl
@[simp] theorem State.withDstLen_recLen (v : Half) : (s.withDstLen v).recLen = s.recLen := rfl
@[simp] theorem State.withDstLen_recSeq (v : Half) : (s.withDstLen v).recSeq = s.recSeq := rfl
@[simp] theorem State.withDstLen_recSrcId (v : Half) : (s.withDstLen v).recSrcId = s.recSrcId := rfl
@[simp] theorem State.withDstLen_recDstId (v : Half) : (s.withDstLen v).recDstId = s.recDstId := rfl
@[simp] theorem State.withDstLen_workOff (v : Half) : (s.withDstLen v).workOff = s.workOff := rfl
@[simp] theorem State.withDstLen_workCrc (v : Half) : (s.withDstLen v).workCrc = s.workCrc := rfl
@[simp] theorem State.withDstLen_mem (v : Half) : (s.withDstLen v).mem = s.mem := rfl
@[simp] theorem State.withDstLen_regions (v : Half) : (s.withDstLen v).regions = s.regions := rfl
@[simp] theorem State.withDstLen_others (v : Half) : (s.withDstLen v).others = s.others := rfl
@[simp] theorem State.withDstLen_bus (v : Half) : (s.withDstLen v).bus = s.bus := rfl
@[simp] theorem State.withDstLen_turns (v : Half) : (s.withDstLen v).turns = s.turns := rfl
@[simp] theorem State.withDstLen_replies (v : Half) : (s.withDstLen v).replies = s.replies := rfl
@[simp] theorem State.withDstLen_draws (v : Half) : (s.withDstLen v).draws = s.draws := rfl

/-! ### `State.withDstOff` -/

@[simp] theorem State.withDstOff_cfg (v : Half) : (s.withDstOff v).cfg = s.cfg := rfl
@[simp] theorem State.withDstOff_result (v : Half) : (s.withDstOff v).result = s.result := rfl
@[simp] theorem State.withDstOff_lastOp (v : Half) : (s.withDstOff v).lastOp = s.lastOp := rfl
@[simp] theorem State.withDstOff_busy (v : Half) : (s.withDstOff v).busy = s.busy := rfl
@[simp] theorem State.withDstOff_pending (v : Half) : (s.withDstOff v).pending = s.pending := rfl
@[simp] theorem State.withDstOff_crcAcc (v : Half) : (s.withDstOff v).crcAcc = s.crcAcc := rfl
@[simp] theorem State.withDstOff_srcAddr (v : Half) : (s.withDstOff v).srcAddr = s.srcAddr := rfl
@[simp] theorem State.withDstOff_srcLen (v : Half) : (s.withDstOff v).srcLen = s.srcLen := rfl
@[simp] theorem State.withDstOff_dstAddr (v : Half) : (s.withDstOff v).dstAddr = s.dstAddr := rfl
@[simp] theorem State.withDstOff_dstLen (v : Half) : (s.withDstOff v).dstLen = s.dstLen := rfl
@[simp] theorem State.withDstOff_dstOff (v : Half) : (s.withDstOff v).dstOff = v := rfl
@[simp] theorem State.withDstOff_payAddr (v : Half) : (s.withDstOff v).payAddr = s.payAddr := rfl
@[simp] theorem State.withDstOff_recKind (v : Half) : (s.withDstOff v).recKind = s.recKind := rfl
@[simp] theorem State.withDstOff_recLen (v : Half) : (s.withDstOff v).recLen = s.recLen := rfl
@[simp] theorem State.withDstOff_recSeq (v : Half) : (s.withDstOff v).recSeq = s.recSeq := rfl
@[simp] theorem State.withDstOff_recSrcId (v : Half) : (s.withDstOff v).recSrcId = s.recSrcId := rfl
@[simp] theorem State.withDstOff_recDstId (v : Half) : (s.withDstOff v).recDstId = s.recDstId := rfl
@[simp] theorem State.withDstOff_workOff (v : Half) : (s.withDstOff v).workOff = s.workOff := rfl
@[simp] theorem State.withDstOff_workCrc (v : Half) : (s.withDstOff v).workCrc = s.workCrc := rfl
@[simp] theorem State.withDstOff_mem (v : Half) : (s.withDstOff v).mem = s.mem := rfl
@[simp] theorem State.withDstOff_regions (v : Half) : (s.withDstOff v).regions = s.regions := rfl
@[simp] theorem State.withDstOff_others (v : Half) : (s.withDstOff v).others = s.others := rfl
@[simp] theorem State.withDstOff_bus (v : Half) : (s.withDstOff v).bus = s.bus := rfl
@[simp] theorem State.withDstOff_turns (v : Half) : (s.withDstOff v).turns = s.turns := rfl
@[simp] theorem State.withDstOff_replies (v : Half) : (s.withDstOff v).replies = s.replies := rfl
@[simp] theorem State.withDstOff_draws (v : Half) : (s.withDstOff v).draws = s.draws := rfl

/-! ### `State.withRecord` -/

@[simp] theorem State.withRecord_cfg (k l : Byte) : (s.withRecord k l).cfg = s.cfg := rfl
@[simp] theorem State.withRecord_result (k l : Byte) : (s.withRecord k l).result = s.result := rfl
@[simp] theorem State.withRecord_lastOp (k l : Byte) : (s.withRecord k l).lastOp = s.lastOp := rfl
@[simp] theorem State.withRecord_busy (k l : Byte) : (s.withRecord k l).busy = s.busy := rfl
@[simp] theorem State.withRecord_pending (k l : Byte) : (s.withRecord k l).pending = s.pending := rfl
@[simp] theorem State.withRecord_crcAcc (k l : Byte) : (s.withRecord k l).crcAcc = s.crcAcc := rfl
@[simp] theorem State.withRecord_srcAddr (k l : Byte) : (s.withRecord k l).srcAddr = s.srcAddr := rfl
@[simp] theorem State.withRecord_srcLen (k l : Byte) : (s.withRecord k l).srcLen = s.srcLen := rfl
@[simp] theorem State.withRecord_dstAddr (k l : Byte) : (s.withRecord k l).dstAddr = s.dstAddr := rfl
@[simp] theorem State.withRecord_dstLen (k l : Byte) : (s.withRecord k l).dstLen = s.dstLen := rfl
@[simp] theorem State.withRecord_dstOff (k l : Byte) : (s.withRecord k l).dstOff = s.dstOff := rfl
@[simp] theorem State.withRecord_payAddr (k l : Byte) : (s.withRecord k l).payAddr = s.payAddr := rfl
@[simp] theorem State.withRecord_recKind (k l : Byte) : (s.withRecord k l).recKind = k := rfl
@[simp] theorem State.withRecord_recLen (k l : Byte) : (s.withRecord k l).recLen = l := rfl
@[simp] theorem State.withRecord_recSeq (k l : Byte) : (s.withRecord k l).recSeq = s.recSeq := rfl
@[simp] theorem State.withRecord_recSrcId (k l : Byte) : (s.withRecord k l).recSrcId = s.recSrcId := rfl
@[simp] theorem State.withRecord_recDstId (k l : Byte) : (s.withRecord k l).recDstId = s.recDstId := rfl
@[simp] theorem State.withRecord_workOff (k l : Byte) : (s.withRecord k l).workOff = s.workOff := rfl
@[simp] theorem State.withRecord_workCrc (k l : Byte) : (s.withRecord k l).workCrc = s.workCrc := rfl
@[simp] theorem State.withRecord_mem (k l : Byte) : (s.withRecord k l).mem = s.mem := rfl
@[simp] theorem State.withRecord_regions (k l : Byte) : (s.withRecord k l).regions = s.regions := rfl
@[simp] theorem State.withRecord_others (k l : Byte) : (s.withRecord k l).others = s.others := rfl
@[simp] theorem State.withRecord_bus (k l : Byte) : (s.withRecord k l).bus = s.bus := rfl
@[simp] theorem State.withRecord_turns (k l : Byte) : (s.withRecord k l).turns = s.turns := rfl
@[simp] theorem State.withRecord_replies (k l : Byte) : (s.withRecord k l).replies = s.replies := rfl
@[simp] theorem State.withRecord_draws (k l : Byte) : (s.withRecord k l).draws = s.draws := rfl

/-! ### `State.withIds` -/

@[simp] theorem State.withIds_cfg (a b c : Byte) : (s.withIds a b c).cfg = s.cfg := rfl
@[simp] theorem State.withIds_result (a b c : Byte) : (s.withIds a b c).result = s.result := rfl
@[simp] theorem State.withIds_lastOp (a b c : Byte) : (s.withIds a b c).lastOp = s.lastOp := rfl
@[simp] theorem State.withIds_busy (a b c : Byte) : (s.withIds a b c).busy = s.busy := rfl
@[simp] theorem State.withIds_pending (a b c : Byte) : (s.withIds a b c).pending = s.pending := rfl
@[simp] theorem State.withIds_crcAcc (a b c : Byte) : (s.withIds a b c).crcAcc = s.crcAcc := rfl
@[simp] theorem State.withIds_srcAddr (a b c : Byte) : (s.withIds a b c).srcAddr = s.srcAddr := rfl
@[simp] theorem State.withIds_srcLen (a b c : Byte) : (s.withIds a b c).srcLen = s.srcLen := rfl
@[simp] theorem State.withIds_dstAddr (a b c : Byte) : (s.withIds a b c).dstAddr = s.dstAddr := rfl
@[simp] theorem State.withIds_dstLen (a b c : Byte) : (s.withIds a b c).dstLen = s.dstLen := rfl
@[simp] theorem State.withIds_dstOff (a b c : Byte) : (s.withIds a b c).dstOff = s.dstOff := rfl
@[simp] theorem State.withIds_payAddr (a b c : Byte) : (s.withIds a b c).payAddr = s.payAddr := rfl
@[simp] theorem State.withIds_recKind (a b c : Byte) : (s.withIds a b c).recKind = s.recKind := rfl
@[simp] theorem State.withIds_recLen (a b c : Byte) : (s.withIds a b c).recLen = s.recLen := rfl
@[simp] theorem State.withIds_recSeq (a b c : Byte) : (s.withIds a b c).recSeq = a := rfl
@[simp] theorem State.withIds_recSrcId (a b c : Byte) : (s.withIds a b c).recSrcId = b := rfl
@[simp] theorem State.withIds_recDstId (a b c : Byte) : (s.withIds a b c).recDstId = c := rfl
@[simp] theorem State.withIds_workOff (a b c : Byte) : (s.withIds a b c).workOff = s.workOff := rfl
@[simp] theorem State.withIds_workCrc (a b c : Byte) : (s.withIds a b c).workCrc = s.workCrc := rfl
@[simp] theorem State.withIds_mem (a b c : Byte) : (s.withIds a b c).mem = s.mem := rfl
@[simp] theorem State.withIds_regions (a b c : Byte) : (s.withIds a b c).regions = s.regions := rfl
@[simp] theorem State.withIds_others (a b c : Byte) : (s.withIds a b c).others = s.others := rfl
@[simp] theorem State.withIds_bus (a b c : Byte) : (s.withIds a b c).bus = s.bus := rfl
@[simp] theorem State.withIds_turns (a b c : Byte) : (s.withIds a b c).turns = s.turns := rfl
@[simp] theorem State.withIds_replies (a b c : Byte) : (s.withIds a b c).replies = s.replies := rfl
@[simp] theorem State.withIds_draws (a b c : Byte) : (s.withIds a b c).draws = s.draws := rfl

/-! ### `State.withWorkOff` -/

@[simp] theorem State.withWorkOff_cfg (v : Half) : (s.withWorkOff v).cfg = s.cfg := rfl
@[simp] theorem State.withWorkOff_result (v : Half) : (s.withWorkOff v).result = s.result := rfl
@[simp] theorem State.withWorkOff_lastOp (v : Half) : (s.withWorkOff v).lastOp = s.lastOp := rfl
@[simp] theorem State.withWorkOff_busy (v : Half) : (s.withWorkOff v).busy = s.busy := rfl
@[simp] theorem State.withWorkOff_pending (v : Half) : (s.withWorkOff v).pending = s.pending := rfl
@[simp] theorem State.withWorkOff_crcAcc (v : Half) : (s.withWorkOff v).crcAcc = s.crcAcc := rfl
@[simp] theorem State.withWorkOff_srcAddr (v : Half) : (s.withWorkOff v).srcAddr = s.srcAddr := rfl
@[simp] theorem State.withWorkOff_srcLen (v : Half) : (s.withWorkOff v).srcLen = s.srcLen := rfl
@[simp] theorem State.withWorkOff_dstAddr (v : Half) : (s.withWorkOff v).dstAddr = s.dstAddr := rfl
@[simp] theorem State.withWorkOff_dstLen (v : Half) : (s.withWorkOff v).dstLen = s.dstLen := rfl
@[simp] theorem State.withWorkOff_dstOff (v : Half) : (s.withWorkOff v).dstOff = s.dstOff := rfl
@[simp] theorem State.withWorkOff_payAddr (v : Half) : (s.withWorkOff v).payAddr = s.payAddr := rfl
@[simp] theorem State.withWorkOff_recKind (v : Half) : (s.withWorkOff v).recKind = s.recKind := rfl
@[simp] theorem State.withWorkOff_recLen (v : Half) : (s.withWorkOff v).recLen = s.recLen := rfl
@[simp] theorem State.withWorkOff_recSeq (v : Half) : (s.withWorkOff v).recSeq = s.recSeq := rfl
@[simp] theorem State.withWorkOff_recSrcId (v : Half) : (s.withWorkOff v).recSrcId = s.recSrcId := rfl
@[simp] theorem State.withWorkOff_recDstId (v : Half) : (s.withWorkOff v).recDstId = s.recDstId := rfl
@[simp] theorem State.withWorkOff_workOff (v : Half) : (s.withWorkOff v).workOff = v := rfl
@[simp] theorem State.withWorkOff_workCrc (v : Half) : (s.withWorkOff v).workCrc = s.workCrc := rfl
@[simp] theorem State.withWorkOff_mem (v : Half) : (s.withWorkOff v).mem = s.mem := rfl
@[simp] theorem State.withWorkOff_regions (v : Half) : (s.withWorkOff v).regions = s.regions := rfl
@[simp] theorem State.withWorkOff_others (v : Half) : (s.withWorkOff v).others = s.others := rfl
@[simp] theorem State.withWorkOff_bus (v : Half) : (s.withWorkOff v).bus = s.bus := rfl
@[simp] theorem State.withWorkOff_turns (v : Half) : (s.withWorkOff v).turns = s.turns := rfl
@[simp] theorem State.withWorkOff_replies (v : Half) : (s.withWorkOff v).replies = s.replies := rfl
@[simp] theorem State.withWorkOff_draws (v : Half) : (s.withWorkOff v).draws = s.draws := rfl

/-! ### `State.withWorkCrc` -/

@[simp] theorem State.withWorkCrc_cfg (v : Half) : (s.withWorkCrc v).cfg = s.cfg := rfl
@[simp] theorem State.withWorkCrc_result (v : Half) : (s.withWorkCrc v).result = s.result := rfl
@[simp] theorem State.withWorkCrc_lastOp (v : Half) : (s.withWorkCrc v).lastOp = s.lastOp := rfl
@[simp] theorem State.withWorkCrc_busy (v : Half) : (s.withWorkCrc v).busy = s.busy := rfl
@[simp] theorem State.withWorkCrc_pending (v : Half) : (s.withWorkCrc v).pending = s.pending := rfl
@[simp] theorem State.withWorkCrc_crcAcc (v : Half) : (s.withWorkCrc v).crcAcc = s.crcAcc := rfl
@[simp] theorem State.withWorkCrc_srcAddr (v : Half) : (s.withWorkCrc v).srcAddr = s.srcAddr := rfl
@[simp] theorem State.withWorkCrc_srcLen (v : Half) : (s.withWorkCrc v).srcLen = s.srcLen := rfl
@[simp] theorem State.withWorkCrc_dstAddr (v : Half) : (s.withWorkCrc v).dstAddr = s.dstAddr := rfl
@[simp] theorem State.withWorkCrc_dstLen (v : Half) : (s.withWorkCrc v).dstLen = s.dstLen := rfl
@[simp] theorem State.withWorkCrc_dstOff (v : Half) : (s.withWorkCrc v).dstOff = s.dstOff := rfl
@[simp] theorem State.withWorkCrc_payAddr (v : Half) : (s.withWorkCrc v).payAddr = s.payAddr := rfl
@[simp] theorem State.withWorkCrc_recKind (v : Half) : (s.withWorkCrc v).recKind = s.recKind := rfl
@[simp] theorem State.withWorkCrc_recLen (v : Half) : (s.withWorkCrc v).recLen = s.recLen := rfl
@[simp] theorem State.withWorkCrc_recSeq (v : Half) : (s.withWorkCrc v).recSeq = s.recSeq := rfl
@[simp] theorem State.withWorkCrc_recSrcId (v : Half) : (s.withWorkCrc v).recSrcId = s.recSrcId := rfl
@[simp] theorem State.withWorkCrc_recDstId (v : Half) : (s.withWorkCrc v).recDstId = s.recDstId := rfl
@[simp] theorem State.withWorkCrc_workOff (v : Half) : (s.withWorkCrc v).workOff = s.workOff := rfl
@[simp] theorem State.withWorkCrc_workCrc (v : Half) : (s.withWorkCrc v).workCrc = v := rfl
@[simp] theorem State.withWorkCrc_mem (v : Half) : (s.withWorkCrc v).mem = s.mem := rfl
@[simp] theorem State.withWorkCrc_regions (v : Half) : (s.withWorkCrc v).regions = s.regions := rfl
@[simp] theorem State.withWorkCrc_others (v : Half) : (s.withWorkCrc v).others = s.others := rfl
@[simp] theorem State.withWorkCrc_bus (v : Half) : (s.withWorkCrc v).bus = s.bus := rfl
@[simp] theorem State.withWorkCrc_turns (v : Half) : (s.withWorkCrc v).turns = s.turns := rfl
@[simp] theorem State.withWorkCrc_replies (v : Half) : (s.withWorkCrc v).replies = s.replies := rfl
@[simp] theorem State.withWorkCrc_draws (v : Half) : (s.withWorkCrc v).draws = s.draws := rfl

/-! ### `State.complete` -/

@[simp] theorem State.complete_cfg (r : Result) : (s.complete r).cfg = s.cfg := rfl
@[simp] theorem State.complete_result (r : Result) : (s.complete r).result = r := rfl
@[simp] theorem State.complete_lastOp (r : Result) : (s.complete r).lastOp = s.lastOp := rfl
@[simp] theorem State.complete_busy (r : Result) : (s.complete r).busy = false := rfl
@[simp] theorem State.complete_pending (r : Result) : (s.complete r).pending = s.pending := rfl
@[simp] theorem State.complete_crcAcc (r : Result) : (s.complete r).crcAcc = s.crcAcc := rfl
@[simp] theorem State.complete_srcAddr (r : Result) : (s.complete r).srcAddr = s.srcAddr := rfl
@[simp] theorem State.complete_srcLen (r : Result) : (s.complete r).srcLen = s.srcLen := rfl
@[simp] theorem State.complete_dstAddr (r : Result) : (s.complete r).dstAddr = s.dstAddr := rfl
@[simp] theorem State.complete_dstLen (r : Result) : (s.complete r).dstLen = s.dstLen := rfl
@[simp] theorem State.complete_dstOff (r : Result) : (s.complete r).dstOff = s.dstOff := rfl
@[simp] theorem State.complete_payAddr (r : Result) : (s.complete r).payAddr = s.payAddr := rfl
@[simp] theorem State.complete_recKind (r : Result) : (s.complete r).recKind = s.recKind := rfl
@[simp] theorem State.complete_recLen (r : Result) : (s.complete r).recLen = s.recLen := rfl
@[simp] theorem State.complete_recSeq (r : Result) : (s.complete r).recSeq = s.recSeq := rfl
@[simp] theorem State.complete_recSrcId (r : Result) : (s.complete r).recSrcId = s.recSrcId := rfl
@[simp] theorem State.complete_recDstId (r : Result) : (s.complete r).recDstId = s.recDstId := rfl
@[simp] theorem State.complete_workOff (r : Result) : (s.complete r).workOff = s.workOff := rfl
@[simp] theorem State.complete_workCrc (r : Result) : (s.complete r).workCrc = s.workCrc := rfl
@[simp] theorem State.complete_mem (r : Result) : (s.complete r).mem = s.mem := rfl
@[simp] theorem State.complete_regions (r : Result) : (s.complete r).regions = s.regions := rfl
@[simp] theorem State.complete_others (r : Result) : (s.complete r).others = s.others := rfl
@[simp] theorem State.complete_bus (r : Result) : (s.complete r).bus = s.bus := rfl
@[simp] theorem State.complete_turns (r : Result) : (s.complete r).turns = s.turns := rfl
@[simp] theorem State.complete_replies (r : Result) : (s.complete r).replies = s.replies := rfl
@[simp] theorem State.complete_draws (r : Result) : (s.complete r).draws = s.draws + 1 := rfl

/-! ### `State.startCommand` -/

@[simp] theorem State.startCommand_cfg (w : Word) : (s.startCommand w).cfg = s.cfg := rfl
@[simp] theorem State.startCommand_result (w : Word) : (s.startCommand w).result = s.result := rfl
@[simp] theorem State.startCommand_lastOp (w : Word) : (s.startCommand w).lastOp = opField w := rfl
@[simp] theorem State.startCommand_busy (w : Word) : (s.startCommand w).busy = true := rfl
@[simp] theorem State.startCommand_pending (w : Word) : (s.startCommand w).pending = w := rfl
@[simp] theorem State.startCommand_crcAcc (w : Word) : (s.startCommand w).crcAcc = s.crcAcc := rfl
@[simp] theorem State.startCommand_srcAddr (w : Word) : (s.startCommand w).srcAddr = s.srcAddr := rfl
@[simp] theorem State.startCommand_srcLen (w : Word) : (s.startCommand w).srcLen = s.srcLen := rfl
@[simp] theorem State.startCommand_dstAddr (w : Word) : (s.startCommand w).dstAddr = s.dstAddr := rfl
@[simp] theorem State.startCommand_dstLen (w : Word) : (s.startCommand w).dstLen = s.dstLen := rfl
@[simp] theorem State.startCommand_dstOff (w : Word) : (s.startCommand w).dstOff = s.dstOff := rfl
@[simp] theorem State.startCommand_payAddr (w : Word) : (s.startCommand w).payAddr = s.payAddr := rfl
@[simp] theorem State.startCommand_recKind (w : Word) : (s.startCommand w).recKind = s.recKind := rfl
@[simp] theorem State.startCommand_recLen (w : Word) : (s.startCommand w).recLen = s.recLen := rfl
@[simp] theorem State.startCommand_recSeq (w : Word) : (s.startCommand w).recSeq = s.recSeq := rfl
@[simp] theorem State.startCommand_recSrcId (w : Word) : (s.startCommand w).recSrcId = s.recSrcId := rfl
@[simp] theorem State.startCommand_recDstId (w : Word) : (s.startCommand w).recDstId = s.recDstId := rfl
@[simp] theorem State.startCommand_workOff (w : Word) : (s.startCommand w).workOff = s.workOff := rfl
@[simp] theorem State.startCommand_workCrc (w : Word) : (s.startCommand w).workCrc = s.workCrc := rfl
@[simp] theorem State.startCommand_mem (w : Word) : (s.startCommand w).mem = s.mem := rfl
@[simp] theorem State.startCommand_regions (w : Word) : (s.startCommand w).regions = s.regions := rfl
@[simp] theorem State.startCommand_others (w : Word) : (s.startCommand w).others = s.others := rfl
@[simp] theorem State.startCommand_bus (w : Word) : (s.startCommand w).bus = s.bus := rfl
@[simp] theorem State.startCommand_turns (w : Word) : (s.startCommand w).turns = s.turns := rfl
@[simp] theorem State.startCommand_replies (w : Word) : (s.startCommand w).replies = s.replies := rfl
@[simp] theorem State.startCommand_draws (w : Word) : (s.startCommand w).draws = s.draws := rfl

/-! ### `State.latchCommand` -/

@[simp] theorem State.latchCommand_cfg (w : Word) : (s.latchCommand w).cfg = s.cfg := rfl
@[simp] theorem State.latchCommand_result (w : Word) : (s.latchCommand w).result = s.result := rfl
@[simp] theorem State.latchCommand_lastOp (w : Word) : (s.latchCommand w).lastOp = opField w := rfl
@[simp] theorem State.latchCommand_busy (w : Word) : (s.latchCommand w).busy = true := rfl
@[simp] theorem State.latchCommand_pending (w : Word) : (s.latchCommand w).pending = w := rfl
@[simp] theorem State.latchCommand_crcAcc (w : Word) : (s.latchCommand w).crcAcc = s.crcAcc := rfl
@[simp] theorem State.latchCommand_srcAddr (w : Word) : (s.latchCommand w).srcAddr = s.srcAddr := rfl
@[simp] theorem State.latchCommand_srcLen (w : Word) : (s.latchCommand w).srcLen = s.srcLen := rfl
@[simp] theorem State.latchCommand_dstAddr (w : Word) : (s.latchCommand w).dstAddr = s.dstAddr := rfl
@[simp] theorem State.latchCommand_dstLen (w : Word) : (s.latchCommand w).dstLen = s.dstLen := rfl
@[simp] theorem State.latchCommand_dstOff (w : Word) : (s.latchCommand w).dstOff = s.dstOff := rfl
@[simp] theorem State.latchCommand_payAddr (w : Word) : (s.latchCommand w).payAddr = s.payAddr := rfl
@[simp] theorem State.latchCommand_recKind (w : Word) : (s.latchCommand w).recKind = s.recKind := rfl
@[simp] theorem State.latchCommand_recLen (w : Word) : (s.latchCommand w).recLen = s.recLen := rfl
@[simp] theorem State.latchCommand_recSeq (w : Word) : (s.latchCommand w).recSeq = s.recSeq := rfl
@[simp] theorem State.latchCommand_recSrcId (w : Word) : (s.latchCommand w).recSrcId = s.recSrcId := rfl
@[simp] theorem State.latchCommand_recDstId (w : Word) : (s.latchCommand w).recDstId = s.recDstId := rfl
@[simp] theorem State.latchCommand_workOff (w : Word) : (s.latchCommand w).workOff = s.workOff := rfl
@[simp] theorem State.latchCommand_workCrc (w : Word) : (s.latchCommand w).workCrc = s.workCrc := rfl
@[simp] theorem State.latchCommand_mem (w : Word) : (s.latchCommand w).mem = s.mem := rfl
@[simp] theorem State.latchCommand_regions (w : Word) : (s.latchCommand w).regions = s.regions := rfl
@[simp] theorem State.latchCommand_others (w : Word) : (s.latchCommand w).others = s.others := rfl
@[simp] theorem State.latchCommand_bus (w : Word) : (s.latchCommand w).bus = s.bus := rfl
@[simp] theorem State.latchCommand_turns (w : Word) : (s.latchCommand w).turns = [] := rfl
@[simp] theorem State.latchCommand_replies (w : Word) : (s.latchCommand w).replies = s.replies := rfl
@[simp] theorem State.latchCommand_draws (w : Word) : (s.latchCommand w).draws = s.draws := rfl

/-! ### `State.reply` -/

@[simp] theorem State.reply_cfg (r : Reply) : (s.reply r).cfg = s.cfg := rfl
@[simp] theorem State.reply_result (r : Reply) : (s.reply r).result = s.result := rfl
@[simp] theorem State.reply_lastOp (r : Reply) : (s.reply r).lastOp = s.lastOp := rfl
@[simp] theorem State.reply_busy (r : Reply) : (s.reply r).busy = s.busy := rfl
@[simp] theorem State.reply_pending (r : Reply) : (s.reply r).pending = s.pending := rfl
@[simp] theorem State.reply_crcAcc (r : Reply) : (s.reply r).crcAcc = s.crcAcc := rfl
@[simp] theorem State.reply_srcAddr (r : Reply) : (s.reply r).srcAddr = s.srcAddr := rfl
@[simp] theorem State.reply_srcLen (r : Reply) : (s.reply r).srcLen = s.srcLen := rfl
@[simp] theorem State.reply_dstAddr (r : Reply) : (s.reply r).dstAddr = s.dstAddr := rfl
@[simp] theorem State.reply_dstLen (r : Reply) : (s.reply r).dstLen = s.dstLen := rfl
@[simp] theorem State.reply_dstOff (r : Reply) : (s.reply r).dstOff = s.dstOff := rfl
@[simp] theorem State.reply_payAddr (r : Reply) : (s.reply r).payAddr = s.payAddr := rfl
@[simp] theorem State.reply_recKind (r : Reply) : (s.reply r).recKind = s.recKind := rfl
@[simp] theorem State.reply_recLen (r : Reply) : (s.reply r).recLen = s.recLen := rfl
@[simp] theorem State.reply_recSeq (r : Reply) : (s.reply r).recSeq = s.recSeq := rfl
@[simp] theorem State.reply_recSrcId (r : Reply) : (s.reply r).recSrcId = s.recSrcId := rfl
@[simp] theorem State.reply_recDstId (r : Reply) : (s.reply r).recDstId = s.recDstId := rfl
@[simp] theorem State.reply_workOff (r : Reply) : (s.reply r).workOff = s.workOff := rfl
@[simp] theorem State.reply_workCrc (r : Reply) : (s.reply r).workCrc = s.workCrc := rfl
@[simp] theorem State.reply_mem (r : Reply) : (s.reply r).mem = s.mem := rfl
@[simp] theorem State.reply_regions (r : Reply) : (s.reply r).regions = s.regions := rfl
@[simp] theorem State.reply_others (r : Reply) : (s.reply r).others = s.others := rfl
@[simp] theorem State.reply_bus (r : Reply) : (s.reply r).bus = s.bus := rfl
@[simp] theorem State.reply_turns (r : Reply) : (s.reply r).turns = s.turns := rfl
@[simp] theorem State.reply_replies (r : Reply) : (s.reply r).replies = s.replies ++ [r] := rfl
@[simp] theorem State.reply_draws (r : Reply) : (s.reply r).draws = s.draws := rfl

/-! ### `State.tick` -/

@[simp] theorem State.tick_cfg : (s.tick).cfg = s.cfg := rfl
@[simp] theorem State.tick_result : (s.tick).result = s.result := rfl
@[simp] theorem State.tick_lastOp : (s.tick).lastOp = s.lastOp := rfl
@[simp] theorem State.tick_busy : (s.tick).busy = s.busy := rfl
@[simp] theorem State.tick_pending : (s.tick).pending = s.pending := rfl
@[simp] theorem State.tick_crcAcc : (s.tick).crcAcc = s.crcAcc := rfl
@[simp] theorem State.tick_srcAddr : (s.tick).srcAddr = s.srcAddr := rfl
@[simp] theorem State.tick_srcLen : (s.tick).srcLen = s.srcLen := rfl
@[simp] theorem State.tick_dstAddr : (s.tick).dstAddr = s.dstAddr := rfl
@[simp] theorem State.tick_dstLen : (s.tick).dstLen = s.dstLen := rfl
@[simp] theorem State.tick_dstOff : (s.tick).dstOff = s.dstOff := rfl
@[simp] theorem State.tick_payAddr : (s.tick).payAddr = s.payAddr := rfl
@[simp] theorem State.tick_recKind : (s.tick).recKind = s.recKind := rfl
@[simp] theorem State.tick_recLen : (s.tick).recLen = s.recLen := rfl
@[simp] theorem State.tick_recSeq : (s.tick).recSeq = s.recSeq := rfl
@[simp] theorem State.tick_recSrcId : (s.tick).recSrcId = s.recSrcId := rfl
@[simp] theorem State.tick_recDstId : (s.tick).recDstId = s.recDstId := rfl
@[simp] theorem State.tick_workOff : (s.tick).workOff = s.workOff := rfl
@[simp] theorem State.tick_workCrc : (s.tick).workCrc = s.workCrc := rfl
@[simp] theorem State.tick_mem : (s.tick).mem = s.mem := rfl
@[simp] theorem State.tick_regions : (s.tick).regions = s.regions := rfl
@[simp] theorem State.tick_others : (s.tick).others = s.others := rfl
@[simp] theorem State.tick_bus : (s.tick).bus = s.bus := rfl
@[simp] theorem State.tick_turns : (s.tick).turns = s.turns := rfl
@[simp] theorem State.tick_replies : (s.tick).replies = s.replies := rfl
@[simp] theorem State.tick_draws : (s.tick).draws = s.draws + 1 := rfl

/-! ### `State.answered` -/

@[simp] theorem State.answered_cfg : (s.answered).cfg = s.cfg := rfl
@[simp] theorem State.answered_result : (s.answered).result = s.result := rfl
@[simp] theorem State.answered_lastOp : (s.answered).lastOp = s.lastOp := rfl
@[simp] theorem State.answered_busy : (s.answered).busy = s.busy := rfl
@[simp] theorem State.answered_pending : (s.answered).pending = s.pending := rfl
@[simp] theorem State.answered_crcAcc : (s.answered).crcAcc = s.crcAcc := rfl
@[simp] theorem State.answered_srcAddr : (s.answered).srcAddr = s.srcAddr := rfl
@[simp] theorem State.answered_srcLen : (s.answered).srcLen = s.srcLen := rfl
@[simp] theorem State.answered_dstAddr : (s.answered).dstAddr = s.dstAddr := rfl
@[simp] theorem State.answered_dstLen : (s.answered).dstLen = s.dstLen := rfl
@[simp] theorem State.answered_dstOff : (s.answered).dstOff = s.dstOff := rfl
@[simp] theorem State.answered_payAddr : (s.answered).payAddr = s.payAddr := rfl
@[simp] theorem State.answered_recKind : (s.answered).recKind = s.recKind := rfl
@[simp] theorem State.answered_recLen : (s.answered).recLen = s.recLen := rfl
@[simp] theorem State.answered_recSeq : (s.answered).recSeq = s.recSeq := rfl
@[simp] theorem State.answered_recSrcId : (s.answered).recSrcId = s.recSrcId := rfl
@[simp] theorem State.answered_recDstId : (s.answered).recDstId = s.recDstId := rfl
@[simp] theorem State.answered_workOff : (s.answered).workOff = s.workOff := rfl
@[simp] theorem State.answered_workCrc : (s.answered).workCrc = s.workCrc := rfl
@[simp] theorem State.answered_mem : (s.answered).mem = s.mem := rfl
@[simp] theorem State.answered_regions : (s.answered).regions = s.regions.map Region.answered := rfl
@[simp] theorem State.answered_others : (s.answered).others = s.others := rfl
@[simp] theorem State.answered_bus : (s.answered).bus = s.bus := rfl
@[simp] theorem State.answered_turns : (s.answered).turns = s.turns := rfl
@[simp] theorem State.answered_replies : (s.answered).replies = s.replies := rfl
@[simp] theorem State.answered_draws : (s.answered).draws = s.draws := rfl

/-! ### `State.resetRegisters` -/

@[simp] theorem State.resetRegisters_cfg : (s.resetRegisters).cfg = s.cfg := rfl
@[simp] theorem State.resetRegisters_result : (s.resetRegisters).result = State.reset.result := rfl
@[simp] theorem State.resetRegisters_lastOp : (s.resetRegisters).lastOp = State.reset.lastOp := rfl
@[simp] theorem State.resetRegisters_busy : (s.resetRegisters).busy = State.reset.busy := rfl
@[simp] theorem State.resetRegisters_pending : (s.resetRegisters).pending = State.reset.pending := rfl
@[simp] theorem State.resetRegisters_crcAcc : (s.resetRegisters).crcAcc = State.reset.crcAcc := rfl
@[simp] theorem State.resetRegisters_srcAddr : (s.resetRegisters).srcAddr = State.reset.srcAddr := rfl
@[simp] theorem State.resetRegisters_srcLen : (s.resetRegisters).srcLen = State.reset.srcLen := rfl
@[simp] theorem State.resetRegisters_dstAddr : (s.resetRegisters).dstAddr = State.reset.dstAddr := rfl
@[simp] theorem State.resetRegisters_dstLen : (s.resetRegisters).dstLen = State.reset.dstLen := rfl
@[simp] theorem State.resetRegisters_dstOff : (s.resetRegisters).dstOff = State.reset.dstOff := rfl
@[simp] theorem State.resetRegisters_payAddr : (s.resetRegisters).payAddr = State.reset.payAddr := rfl
@[simp] theorem State.resetRegisters_recKind : (s.resetRegisters).recKind = State.reset.recKind := rfl
@[simp] theorem State.resetRegisters_recLen : (s.resetRegisters).recLen = State.reset.recLen := rfl
@[simp] theorem State.resetRegisters_recSeq : (s.resetRegisters).recSeq = State.reset.recSeq := rfl
@[simp] theorem State.resetRegisters_recSrcId : (s.resetRegisters).recSrcId = State.reset.recSrcId := rfl
@[simp] theorem State.resetRegisters_recDstId : (s.resetRegisters).recDstId = State.reset.recDstId := rfl
@[simp] theorem State.resetRegisters_workOff : (s.resetRegisters).workOff = State.reset.workOff := rfl
@[simp] theorem State.resetRegisters_workCrc : (s.resetRegisters).workCrc = State.reset.workCrc := rfl
@[simp] theorem State.resetRegisters_mem : (s.resetRegisters).mem = s.mem := rfl
@[simp] theorem State.resetRegisters_regions : (s.resetRegisters).regions = s.regions := rfl
@[simp] theorem State.resetRegisters_others : (s.resetRegisters).others = s.others := rfl
@[simp] theorem State.resetRegisters_bus : (s.resetRegisters).bus = s.bus := rfl
@[simp] theorem State.resetRegisters_turns : (s.resetRegisters).turns = s.turns := rfl
@[simp] theorem State.resetRegisters_replies : (s.resetRegisters).replies = s.replies := rfl
@[simp] theorem State.resetRegisters_draws : (s.resetRegisters).draws = s.draws := rfl

end Sys2Proof.Machine
end

