-- ==== Sys2Proof/Laws/Ops.lean ====
section
/-! SUPPORT. One lemma for each shared operation that says what it can do: chaining, spans, reads and writes, the
bounded append, the span stages. Callers cite these and unfold none of them. -/

namespace Sys2Proof.Machine

open Sys2Proof

/-! ### Chaining -/

@[simp] theorem andThen_next {α β : Type} (a : α) (f : α → Res β) : andThen (.next a) f = f a := rfl

@[simp] theorem andThen_fault {α β : Type} (r : Fault) (f : α → Res β) : andThen (.fault r) f = .fault r := rfl

@[simp] theorem andThen_refused {α β : Type} (r : Refusal) (f : α → Res β) :
    andThen (.refused r) f = .refused r := rfl

/-- A chain answers a value only if both its parts do. -/
theorem andThen_eq_next {α β : Type} {x : Res α} {f : α → Res β} {b : β} :
    andThen x f = .next b ↔ ∃ a, x = .next a ∧ f a = .next b := by
  cases x <;> simp [andThen]

/-- A chain completes if its first part does, and its second part on whatever the first answers. -/
theorem andThen_completes {α β : Type} {x : Res α} {f : α → Res β} (hx : ∃ a, x = .next a)
    (hf : ∀ a, x = .next a → ∃ b, f a = .next b) : ∃ b, andThen x f = .next b := by
  obtain ⟨a, rfl⟩ := hx
  exact hf a rfl

@[simp] theorem raise_eq (r : Result) (s : State) : raise r s = .next (s.complete r) := rfl

@[simp] theorem finishOk_eq (s : State) : finishOk s = .next (s.complete .ok) := rfl

/-! ### Bytes of a 16-bit value -/

/-- The two bytes make the value again (R50). -/
@[simp] theorem half_lo_hi (v : Half) : half (lo v) (hi v) = v := by
  apply BitVec.eq_of_getLsbD_eq
  intro k hk
  simp only [half, lo, hi, BitVec.getLsbD_or, BitVec.getLsbD_setWidth, BitVec.getLsbD_shiftLeft,
    BitVec.getLsbD_extractLsb']
  interval_cases k <;> simp

/-- The low byte comes back (R50). -/
@[simp] theorem lo_half (x y : Byte) : lo (half x y) = x := by
  apply BitVec.eq_of_getLsbD_eq
  intro k hk
  simp only [lo, half, BitVec.getLsbD_or, BitVec.getLsbD_setWidth, BitVec.getLsbD_shiftLeft,
    BitVec.getLsbD_extractLsb']
  interval_cases k <;> simp

/-- The high byte comes back (R50). -/
@[simp] theorem hi_half (x y : Byte) : hi (half x y) = y := by
  apply BitVec.eq_of_getLsbD_eq
  intro k hk
  simp only [hi, half, BitVec.getLsbD_or, BitVec.getLsbD_setWidth, BitVec.getLsbD_shiftLeft,
    BitVec.getLsbD_extractLsb']
  interval_cases k <;> simp

/-! ### Spans -/

theorem Span.inRange_iff {sp : Span} {w : Nat} : sp.inRange w = true ↔ sp.start + sp.len ≤ 2 ^ w := by
  simp [Span.inRange]

theorem Span.overlaps_iff {x y : Span} : x.overlaps y = true ↔
    0 < x.len ∧ 0 < y.len ∧ x.start < y.start + y.len ∧ y.start < x.start + x.len := by
  simp [Span.overlaps, and_assoc]

/-- Spans that do not overlap share no address (R19). -/
theorem Span.not_overlaps {x y : Span} (h : x.overlaps y = false) :
    x.len = 0 ∨ y.len = 0 ∨ y.start + y.len ≤ x.start ∨ x.start + x.len ≤ y.start := by
  by_contra hc
  have : x.overlaps y = true := Span.overlaps_iff.2 (by omega)
  simp [this] at h

theorem Span.contains_iff {sp : Span} {a : Nat} :
    sp.contains a = true ↔ sp.start ≤ a ∧ a < sp.start + sp.len := by simp [Span.contains]

/-- A span inside another touches no kind of region that the other does not. -/
theorem State.touches_mono {s : State} {k : RegionKind} {x y : Span} (h : s.touches k y = false)
    (hs : y.start ≤ x.start) (he : x.start + x.len ≤ y.start + y.len) : s.touches k x = false := by
  simp only [State.touches, List.any_eq_false, Bool.and_eq_true, not_and, Bool.not_eq_true] at h ⊢
  intro r hr hk
  have hn := h r hr hk
  by_contra hc
  have hc := Span.overlaps_iff.1 (by simpa using hc)
  have : r.span.overlaps y = true := Span.overlaps_iff.2 (by omega)
  simp [this] at hn

theorem State.touches_congr {s t : State} (h : t.regions = s.regions) (k : RegionKind) (sp : Span) :
    t.touches k sp = s.touches k sp := by simp [State.touches, h]

/-- No region touches an empty span. -/
@[simp] theorem State.touches_empty (s : State) (k : RegionKind) (a : Nat) : s.touches k ⟨a, 0⟩ = false := by
  simp [State.touches, Span.overlaps]

/-- A region touches a span if it touches the first part or the rest. -/
theorem State.touches_add (s : State) (k : RegionKind) (a x y : Nat) :
    s.touches k ⟨a, x + y⟩ = (s.touches k ⟨a, x⟩ || s.touches k ⟨a + x, y⟩) := by
  rw [Bool.eq_iff_iff]
  simp only [State.touches, Bool.or_eq_true, List.any_eq_true, Bool.and_eq_true, Span.overlaps_iff, ← exists_or,
    ← and_or_left]
  refine exists_congr fun r => and_congr_right fun _ => and_congr_right fun _ => ?_
  omega

/-- An ordinary span: each part of it is ordinary. -/
theorem State.ordinary_iff {s : State} {sp : Span} : s.ordinary sp = true ↔
    s.touches .device sp = false ∧ s.touches .unmapped sp = false ∧ s.touches .shared sp = false := by
  simp [State.ordinary, and_assoc]

/-! ### Reads and writes -/

theorem State.byteAt_ordinary {s : State} {k a : Nat} (h : s.touches .shared ⟨a, 1⟩ = false) :
    s.byteAt k a = s.mem.read a := by simp [State.byteAt, h]

@[simp] theorem State.length_bytes (s : State) (k a n : Nat) : (s.bytes k a n).length = n := by
  induction n generalizing k a with
  | zero => rfl
  | succ n ih => simp [State.bytes, ih]

/-- On memory no other agent writes, bytes(a, n) are the memory's bytes (R56). -/
theorem State.bytes_ordinary {s : State} {k a n : Nat} (h : s.touches .shared ⟨a, n⟩ = false) :
    s.bytes k a n = s.mem.readList a n := by
  induction n generalizing k a with
  | zero => rfl
  | succ n ih =>
    rw [State.bytes, Memory.readList_succ, State.byteAt_ordinary (s.touches_mono h (by simp) (by simp)),
      ih (s.touches_mono h (by simp) (by simp; omega))]

theorem readBytes_eq_next {k a n : Nat} {s : State} {bs : List Byte} :
    readBytes k a n s = .next bs ↔ s.touches .unmapped ⟨a, n⟩ = false ∧ bs = s.bytes k a n := by
  unfold readBytes
  split <;> rename_i h <;> simp [h, eq_comm (a := bs)]

theorem readByte_eq_next {k a : Nat} {s : State} {b : Byte} :
    readByte k a s = .next b ↔ s.touches .unmapped ⟨a, 1⟩ = false ∧ b = s.byteAt k a := by
  unfold readByte
  split <;> rename_i h <;> simp [h, eq_comm (a := b)]

theorem writeBytes_eq_next {a : Nat} {bs : List Byte} {s t : State} :
    writeBytes a bs s = .next t ↔
      s.touches .unmapped ⟨a, bs.length⟩ = false ∧ t = s.withMem (s.mem.writeList a bs) := by
  unfold writeBytes
  split <;> rename_i h <;> simp [h, eq_comm (a := t)]

/-- `ordinary` reads only the regions. -/
theorem State.ordinary_congr {s t : State} (h : t.regions = s.regions) (sp : Span) :
    t.ordinary sp = s.ordinary sp := by simp [State.ordinary, State.touches_congr h]

/-- Reading a part of a span that is ordinary in a state with the same regions. -/
theorem readBytes_ordinary {s t : State} {k a n : Nat} {sp : Span} (hr : t.regions = s.regions)
    (h : s.ordinary sp = true) (hs : sp.start ≤ a) (he : a + n ≤ sp.start + sp.len) :
    readBytes k a n t = .next (t.mem.readList a n) := by
  rw [← State.ordinary_congr hr] at h
  obtain ⟨-, hu, hsh⟩ := State.ordinary_iff.1 h
  exact readBytes_eq_next.2 ⟨t.touches_mono hu hs he, (State.bytes_ordinary (t.touches_mono hsh hs he)).symm⟩

theorem readByte_ordinary {s t : State} {k a : Nat} {sp : Span} (hr : t.regions = s.regions)
    (h : s.ordinary sp = true) (hs : sp.start ≤ a) (he : a < sp.start + sp.len) :
    readByte k a t = .next (t.mem.read a) := by
  rw [← State.ordinary_congr hr] at h
  obtain ⟨-, hu, hsh⟩ := State.ordinary_iff.1 h
  exact readByte_eq_next.2 ⟨t.touches_mono hu hs he, (State.byteAt_ordinary (t.touches_mono hsh hs he)).symm⟩

theorem writeBytes_ordinary {s t : State} {a : Nat} {bs : List Byte} {sp : Span} (hr : t.regions = s.regions)
    (h : s.ordinary sp = true) (hs : sp.start ≤ a) (he : a + bs.length ≤ sp.start + sp.len) :
    writeBytes a bs t = .next (t.withMem (t.mem.writeList a bs)) := by
  rw [← State.ordinary_congr hr] at h
  obtain ⟨-, hu, -⟩ := State.ordinary_iff.1 h
  exact writeBytes_eq_next.2 ⟨t.touches_mono hu hs he, rfl⟩

/-! What completes: reads and writes inside a span where the platform completes every access. -/

theorem readBytes_completes {s t : State} {k a n : Nat} {sp : Span} (hr : t.regions = s.regions)
    (h : s.touches .unmapped sp = false) (hs : sp.start ≤ a) (he : a + n ≤ sp.start + sp.len) :
    ∃ bs, readBytes k a n t = .next bs :=
  ⟨_, readBytes_eq_next.2 ⟨(State.touches_congr hr _ _).trans (s.touches_mono h hs he), rfl⟩⟩

theorem readByte_completes {s t : State} {k a : Nat} {sp : Span} (hr : t.regions = s.regions)
    (h : s.touches .unmapped sp = false) (hs : sp.start ≤ a) (he : a < sp.start + sp.len) :
    ∃ b, readByte k a t = .next b :=
  ⟨_, readByte_eq_next.2 ⟨(State.touches_congr hr _ _).trans (s.touches_mono h hs he), rfl⟩⟩

theorem writeBytes_completes {s t : State} {a : Nat} {bs : List Byte} {sp : Span} (hr : t.regions = s.regions)
    (h : s.touches .unmapped sp = false) (hs : sp.start ≤ a) (he : a + bs.length ≤ sp.start + sp.len) :
    ∃ u, writeBytes a bs t = .next u :=
  ⟨_, writeBytes_eq_next.2 ⟨(State.touches_congr hr _ _).trans (s.touches_mono h hs he), rfl⟩⟩

/-! ### The bounded append (R103) -/

/-- What an append does: nothing to do, no room, or the bytes stored and the offset advanced (R104 to R106). -/
theorem boundedAppend_eq_next {d cap off k : Nat} {source : Res (List Byte)} {s : State} {r : Appended} :
    boundedAppend d cap off k source s = .next r ↔
      (k = 0 ∧ r = (true, off, s)) ∨
      (k ≠ 0 ∧ cap < off + k ∧ r = (false, off, s)) ∨
      (k ≠ 0 ∧ off + k ≤ cap ∧ ∃ bs, source = .next bs ∧ s.touches .unmapped ⟨d + off, bs.length⟩ = false ∧
        r = (true, off + k, s.withMem (s.mem.writeList (d + off) bs))) := by
  unfold boundedAppend
  split
  · rename_i hk
    simp [hk, eq_comm (a := r)]
  · split
    · rename_i hk hgt
      simp only [Host.Outcome.next.injEq]
      constructor
      · rintro rfl; exact .inr (.inl ⟨hk, hgt, rfl⟩)
      · rintro (⟨h, -⟩ | ⟨-, -, rfl⟩ | ⟨-, h, -⟩)
        · exact absurd h hk
        · rfl
        · omega
    · rename_i hk hgt
      constructor
      · intro h
        obtain ⟨bs, hs, h⟩ := andThen_eq_next.1 h
        obtain ⟨t, ht, h⟩ := andThen_eq_next.1 h
        obtain ⟨hu, rfl⟩ := writeBytes_eq_next.1 ht
        refine .inr (.inr ⟨hk, by omega, bs, hs, hu, ?_⟩)
        simpa [eq_comm] using h
      · rintro (⟨h, -⟩ | ⟨-, h, -⟩ | ⟨-, -, bs, hs, hu, rfl⟩)
        · exact absurd h hk
        · omega
        · rw [hs, andThen_next, writeBytes_eq_next.2 ⟨hu, rfl⟩, andThen_next]

/-! ### The stages of a command (R80) -/

/-- A command answers a next state in two ways: AddressRange, or all its stages passed and its own rule answers. -/
theorem runStages_eq_next {i : Instr} {op : State → Res State} {s t : State} :
    runStages i op s = .next t ↔
      ((checkedSpans i s).all (fun sp => sp.inRange s.cfg.addrW) = false ∧ t = s.complete .addressRange) ∨
      ((checkedSpans i s).all (fun sp => sp.inRange s.cfg.addrW) = true ∧ spansOverlap i s = false ∧
        (checkedSpans i s).any (fun sp => s.touches .device sp) = false ∧
        s.claimed (readSpans i s) (writeSpans i s) = false ∧ op s = .next t) := by
  unfold runStages
  generalize (checkedSpans i s).all (fun sp => sp.inRange s.cfg.addrW) = r
  generalize spansOverlap i s = o
  generalize (checkedSpans i s).any (fun sp => s.touches .device sp) = d
  generalize s.claimed (readSpans i s) (writeSpans i s) = c
  cases r <;> cases o <;> cases d <;> cases c <;> simp [eq_comm]

/-- What `ready` says. -/
theorem State.ready_iff {s : State} {i : Instr} : s.ready i = true ↔
    (checkedSpans i s).all (fun sp => sp.inRange s.cfg.addrW) = true ∧ spansOverlap i s = false ∧
    (checkedSpans i s).all (fun sp => s.ordinary sp) = true ∧
    s.claimed (readSpans i s) (writeSpans i s) = false := by
  simp [State.ready, and_assoc]

/-- A ready command goes on to its own rule. -/
theorem runStages_ready {i : Instr} {op : State → Res State} {s : State} (h : s.ready i = true) :
    runStages i op s = op s := by
  obtain ⟨hr, ho, hord, hc⟩ := State.ready_iff.1 h
  have hd : (checkedSpans i s).any (fun sp => s.touches .device sp) = false := by
    simp only [List.any_eq_false, Bool.not_eq_true]
    exact fun sp hsp => (State.ordinary_iff.1 (List.all_eq_true.1 hord sp hsp)).1
  simp [runStages, hr, ho, hd, hc]

/-- A command that passes the stages goes to its own rule, whatever its memory is like. -/
theorem runStages_passed {i : Instr} {op : State → Res State} {s : State} (h : s.passed i = true) :
    runStages i op s = op s := by
  simp only [State.passed, Bool.and_eq_true, Bool.not_eq_true', List.all_eq_true] at h
  obtain ⟨⟨⟨hr, ho⟩, hd⟩, hc⟩ := h
  have hr : (checkedSpans i s).all (fun sp => sp.inRange s.cfg.addrW) = true := by simpa using hr
  have hd : (checkedSpans i s).any (fun sp => s.touches .device sp) = false := by simpa using hd
  simp [runStages, hr, ho, hd, hc]

/-- A command without spans goes straight to its own rule. -/
theorem runStages_spanless {i : Instr} {op : State → Res State} {s : State} (h : checkedSpans i s = [])
    (hp : overlapPair i s = none) (hr : readSpans i s = []) (hw : writeSpans i s = []) :
    runStages i op s = op s := by
  simp [runStages, spansOverlap, h, hp, hr, hw, State.claimed]

end Sys2Proof.Machine
end

