-- ==== Sys2Proof/Laws/Checksum.lean ====
section
/-! SUPPORT. The algebra of the checksum step: it is linear over exclusive or, injective in the state and in the
byte, and a zero state stays zero under zero bytes. -/

namespace Sys2Proof.Machine

open Sys2Proof

/-- One round is linear. -/
theorem crcRound_xor (x y : Half) : crcRound (x ^^^ y) = crcRound x ^^^ crcRound y := by
  simp only [crcRound, BitVec.getLsbD_xor]
  cases x.getLsbD 0 <;> cases y.getLsbD 0 <;> simp [BitVec.ushiftRight_xor_distrib]
  · rw [BitVec.xor_assoc]
  · rw [BitVec.xor_assoc, BitVec.xor_assoc, BitVec.xor_comm (y >>> 1)]
  · rw [BitVec.xor_assoc, ← BitVec.xor_assoc 0x8408#16, BitVec.xor_comm 0x8408#16 (y >>> 1), BitVec.xor_assoc,
      BitVec.xor_self, BitVec.xor_zero]

theorem crcRounds_xor (n : Nat) (x y : Half) : crcRounds n (x ^^^ y) = crcRounds n x ^^^ crcRounds n y := by
  induction n generalizing x y with
  | zero => rfl
  | succ n ih => simp [crcRounds, crcRound_xor, ih]

@[simp] theorem crcRound_zero : crcRound 0#16 = 0#16 := by decide

@[simp] theorem crcRounds_zero (n : Nat) : crcRounds n 0#16 = 0#16 := by
  induction n with
  | zero => rfl
  | succ n ih => simpa [crcRounds] using ih

/-- A round loses nothing: only zero goes to zero. -/
theorem crcRound_eq_zero {x : Half} (h : crcRound x = 0#16) : x = 0#16 := by
  unfold crcRound at h
  split at h
  · have h15 := congrArg (fun v : Half => v.getLsbD 15) h
    simp at h15
  · rename_i h0
    apply BitVec.eq_of_toNat_eq
    have h1 := congrArg BitVec.toNat h
    simp [BitVec.getLsbD, Nat.shiftRight_eq_div_pow] at h0 h1 ⊢
    omega

theorem crcRounds_eq_zero {n : Nat} {x : Half} (h : crcRounds n x = 0#16) : x = 0#16 := by
  induction n generalizing x with
  | zero => exact h
  | succ n ih => exact crcRound_eq_zero (ih h)

theorem crcRounds_injective (n : Nat) {x y : Half} (h : crcRounds n x = crcRounds n y) : x = y := by
  have hz : crcRounds n (x ^^^ y) = 0#16 := by rw [crcRounds_xor, h, BitVec.xor_self]
  exact BitVec.xor_eq_zero_iff.1 (crcRounds_eq_zero hz)

/-- The step depends on state and byte through their exclusive or. -/
theorem crcStep_eq (c : Half) (b : Byte) : crcStep c b = crcRounds 8 (c ^^^ b.setWidth 16) := rfl

/-- Two states that a step of one byte makes equal were equal. -/
theorem crcStep_injective_state {c c' : Half} {b : Byte} (h : crcStep c b = crcStep c' b) : c = c' := by
  have := crcRounds_injective 8 h
  have h2 := congrArg (· ^^^ b.setWidth 16) this
  simpa [BitVec.xor_assoc] using h2

/-- Two bytes that a step from one state makes equal were equal. -/
theorem crcStep_injective_byte {c : Half} {b b' : Byte} (h : crcStep c b = crcStep c b') : b = b' := by
  have := crcRounds_injective 8 h
  have h2 := congrArg (c ^^^ ·) this
  simp only [← BitVec.xor_assoc, BitVec.xor_self, BitVec.zero_xor] at h2
  have h3 := congrArg (fun v : Half => v.setWidth 8) h2
  simpa using h3

/-- A difference of states survives any bytes. -/
theorem foldl_crcStep_injective {c c' : Half} (bs : List Byte) (h : bs.foldl crcStep c = bs.foldl crcStep c') :
    c = c' := by
  induction bs generalizing c c' with
  | nil => exact h
  | cons b bs ih => exact crcStep_injective_state (ih h)

@[simp] theorem checksum_nil : checksum [] = 0xFFFF#16 := rfl

/-- Concatenation (R93). -/
theorem checksum_append (xs ys : List Byte) : checksum (xs ++ ys) = ys.foldl crcStep (checksum xs) := by
  simp [checksum, List.foldl_append]

end Sys2Proof.Machine
end

