-- ==== Sys2Proof/Laws/Frame.lean ====
section
/-! SUPPORT. What the shared encoder can do: `encodeFrame_eq_next` says what any next state looks like, whatever the
memory, `encodeFrame_ordinary` which one it is on ordinary memory, `encodeFrame_completes` that there is one. -/

namespace Sys2Proof.Machine

open Sys2Proof

/-! ### The profiles -/

@[simp] theorem Profile.length_header (p : Profile) (s : State) : (p.header s).length = p.hdrLen := by
  cases p <;> rfl

theorem Profile.minLen_eq (p : Profile) : p.minLen = p.hdrLen + 2 := by cases p <;> rfl

theorem Profile.hdrLen_pos (p : Profile) : 3 ≤ p.hdrLen ∧ p.hdrLen ≤ 6 := by cases p <;> decide

theorem Profile.kindAt_lt (p : Profile) : 0 < p.kindAt ∧ p.kindAt < p.hdrLen := by cases p <;> decide

theorem Profile.lenAt_lt (p : Profile) : p.lenAt + 1 = p.hdrLen := by cases p <;> decide

theorem Profile.kindAt_lt_lenAt (p : Profile) : p.kindAt < p.lenAt := by cases p <;> decide

/-! ### Encoding -/

/-- What an encoder leaves: bytes `w` written from DST_ADDR up, never more than the capacity or the frame; on OK the
frame's length in DST_LEN; otherwise BufferTooSmall and DST_LEN as it was. -/
def EncoderLeaves (p : Profile) (s t : State) : Prop :=
  ∃ (w : List Byte) (wo wc : Half), w.length ≤ s.dstLen.toNat ∧ w.length ≤ p.hdrLen + s.recLen.toNat + 2 ∧
    (t = (((s.withMem (s.mem.writeList s.dstAddr.toNat w)).withWorkOff wo).withWorkCrc wc).complete
        .bufferTooSmall ∨
     t = ((((s.withMem (s.mem.writeList s.dstAddr.toNat w)).withWorkOff wo).withWorkCrc wc).withDstLen
        (BitVec.ofNat 16 (p.hdrLen + s.recLen.toNat + 2))).complete .ok)

theorem encodeTrailer_eq_next {p : Profile} {s t : State} {wo : Half} {w : List Byte}
    (hw : w.length = p.hdrLen + s.recLen.toNat) (hle : w.length ≤ s.dstLen.toNat)
    (h : encodeTrailer s.dstAddr.toNat s.dstLen.toNat w.length
      ((s.withMem (s.mem.writeList s.dstAddr.toNat w)).withWorkOff wo) = .next t) : EncoderLeaves p s t := by
  obtain ⟨frame, -, h⟩ := andThen_eq_next.1 h
  obtain ⟨r, hr, h⟩ := andThen_eq_next.1 h
  rcases boundedAppend_eq_next.1 hr with ⟨h0, -⟩ | ⟨-, hgt, rfl⟩ | ⟨-, hle2, cs, hcs, -, rfl⟩
  · simp at h0
  · refine ⟨w, wo, checksum frame, by omega, by omega, .inl ?_⟩
    simpa [encodeOutcome, eq_comm] using h
  · simp only [Host.Outcome.next.injEq] at hcs
    subst hcs
    refine ⟨w ++ [lo (checksum frame), hi (checksum frame)], BitVec.ofNat 16 (w.length + 2), checksum frame,
      by simp; omega, by simp; omega, .inr ?_⟩
    rw [Memory.writeList_append, ← hw]
    simpa [encodeOutcome, State.withMem, State.withWorkOff, State.withWorkCrc, State.withDstLen, eq_comm] using h

theorem encodeFrame_eq_next {p : Profile} {s t : State} (h : encodeFrame p s = .next t) : EncoderLeaves p s t := by
  unfold encodeFrame at h
  split at h
  · refine ⟨[], s.workOff, s.workCrc, by simp, by simp, .inl ?_⟩
    simpa [State.withMem, State.withWorkOff, State.withWorkCrc, eq_comm] using h
  · rename_i hcap
    obtain ⟨s1, h1, h⟩ := andThen_eq_next.1 h
    obtain ⟨-, rfl⟩ := writeBytes_eq_next.1 h1
    obtain ⟨r, hr, h⟩ := andThen_eq_next.1 h
    rcases boundedAppend_eq_next.1 hr with ⟨h0, rfl⟩ | ⟨-, -, rfl⟩ | ⟨-, hle, bs, hbs, -, rfl⟩
    · have h0 : s.recLen.toNat = 0 := h0
      refine encodeTrailer_eq_next (w := p.header s) (wo := BitVec.ofNat 16 p.hdrLen) (by simp [h0])
        (by simp; omega) ?_
      simpa [encodePayloadOutcome, State.withMem, State.withWorkOff] using h
    · refine ⟨p.header s, BitVec.ofNat 16 p.hdrLen, s.workCrc, by simp; omega, by simp; omega, .inl ?_⟩
      simpa [encodePayloadOutcome, State.withMem, State.withWorkOff, State.withWorkCrc, eq_comm] using h
    · have hlen : bs.length = s.recLen.toNat := by
        obtain ⟨-, rfl⟩ := readBytes_eq_next.1 hbs
        simp
      have hle : p.hdrLen + s.recLen.toNat ≤ s.dstLen.toNat := hle
      refine encodeTrailer_eq_next (w := p.header s ++ bs) (wo := BitVec.ofNat 16 (p.hdrLen + s.recLen.toNat))
        (by simp [hlen]) (by simp [hlen]; omega) ?_
      rw [Memory.writeList_append]
      simpa [encodePayloadOutcome, State.withMem, State.withWorkOff, hlen] using h

/-- The bytes of a frame before its checksum: header and payload. -/
def frameBody (p : Profile) (s : State) : List Byte :=
  p.header s ++ s.mem.readList s.payAddr.toNat s.recLen.toNat

@[simp] theorem length_frameBody (p : Profile) (s : State) :
    (frameBody p s).length = p.hdrLen + s.recLen.toNat := by simp [frameBody]

/-- The state of an encoder after it has written `w`, with the working registers it leaves. -/
def encoded (s : State) (w : List Byte) (wo wc : Half) : State :=
  ((s.withMem (s.mem.writeList s.dstAddr.toNat w)).withWorkOff wo).withWorkCrc wc

/-- The trailer on ordinary memory: the bytes so far are read back as they were written (R61, R111). -/
theorem encodeTrailer_ordinary {s : State} {wo : Half} {w : List Byte} (hm : s.mem.wf)
    (hd : s.ordinary s.dstSpan = true) (hw : w.length ≤ s.dstLen.toNat) :
    encodeTrailer s.dstAddr.toNat s.dstLen.toNat w.length
        ((s.withMem (s.mem.writeList s.dstAddr.toNat w)).withWorkOff wo) =
      if s.dstLen.toNat < w.length + 2 then .next ((encoded s w wo (checksum w)).complete .bufferTooSmall)
      else .next (((encoded s (w ++ [lo (checksum w), hi (checksum w)]) (BitVec.ofNat 16 (w.length + 2))
        (checksum w)).withDstLen (BitVec.ofNat 16 (w.length + 2))).complete .ok) := by
  have hread : readBytes s.recLen.toNat s.dstAddr.toNat w.length
      ((s.withMem (s.mem.writeList s.dstAddr.toNat w)).withWorkOff wo) = .next w := by
    rw [readBytes_ordinary (sp := s.dstSpan) ?_ hd]
    · simp [Memory.readList_writeList hm]
    · simp [State.dstSpan]
    · simp [State.dstSpan]; omega
    · rfl
  unfold encodeTrailer
  simp only [State.withWorkOff_recLen, State.withMem_recLen]
  rw [hread, andThen_next]
  split
  · rename_i hlt
    rw [boundedAppend_eq_next.2 (.inr (.inl ⟨by simp, hlt, rfl⟩)), andThen_next]
    rfl
  · rename_i hge
    rw [boundedAppend_eq_next.2 (.inr (.inr ⟨by simp, by omega, _, rfl, ?_, rfl⟩)), andThen_next]
    · simp [encodeOutcome, encoded, Memory.writeList_append, State.withMem, State.withWorkOff, State.withWorkCrc,
        State.withDstLen]
    · obtain ⟨-, hu, -⟩ := State.ordinary_iff.1 hd
      exact (State.touches_congr (s := s) rfl _ _).trans
        (s.touches_mono hu (by simp [State.dstSpan]) (by simp [State.dstSpan]; omega))

/-- The payload on ordinary memory. -/
theorem encodePayload_ordinary {p : Profile} {s : State} (hm : s.mem.wf) (hp : s.ordinary s.paySpan = true)
    (hd : s.ordinary s.dstSpan = true) (ho : s.paySpan.overlaps s.dstSpan = false)
    (hcap : p.hdrLen ≤ s.dstLen.toNat) :
    encodePayload p ((s.withMem (s.mem.writeList s.dstAddr.toNat (p.header s))).withWorkOff
        (BitVec.ofNat 16 p.hdrLen)) =
      if s.recLen.toNat ≠ 0 ∧ s.dstLen.toNat < p.hdrLen + s.recLen.toNat then
        .next (((s.withMem (s.mem.writeList s.dstAddr.toNat (p.header s))).withWorkOff
          (BitVec.ofNat 16 p.hdrLen)).complete .bufferTooSmall)
      else encodeTrailer s.dstAddr.toNat s.dstLen.toNat (p.hdrLen + s.recLen.toNat)
        ((s.withMem (s.mem.writeList s.dstAddr.toNat (frameBody p s))).withWorkOff
          (BitVec.ofNat 16 (p.hdrLen + s.recLen.toNat))) := by
  unfold encodePayload
  simp only [State.withWorkOff_dstAddr, State.withMem_dstAddr, State.withWorkOff_dstLen, State.withMem_dstLen,
    State.withWorkOff_recLen, State.withMem_recLen, State.withWorkOff_payAddr, State.withMem_payAddr]
  by_cases hn : s.recLen.toNat = 0
  · rw [boundedAppend_eq_next.2 (.inl ⟨hn, rfl⟩), andThen_next]
    simp [hn, encodePayloadOutcome, frameBody, State.withMem, State.withWorkOff]
  · by_cases hlt : s.dstLen.toNat < p.hdrLen + s.recLen.toNat
    · rw [boundedAppend_eq_next.2 (.inr (.inl ⟨hn, hlt, rfl⟩)), andThen_next]
      simp [hn, hlt, encodePayloadOutcome]
    · have hread : readBytes 0 s.payAddr.toNat s.recLen.toNat
          ((s.withMem (s.mem.writeList s.dstAddr.toNat (p.header s))).withWorkOff (BitVec.ofNat 16 p.hdrLen)) =
          .next (s.mem.readList s.payAddr.toNat s.recLen.toNat) := by
        rw [readBytes_ordinary (sp := s.paySpan) ?_ hp]
        · have := Span.not_overlaps ho
          simp only [State.paySpan, State.dstSpan] at this
          simp only [State.withWorkOff_mem, State.withMem_mem]
          rw [Memory.readList_writeList_out hm]
          simp only [Profile.length_header]
          omega
        · simp [State.paySpan]
        · simp [State.paySpan]
        · rfl
      rw [boundedAppend_eq_next.2 (.inr (.inr ⟨hn, by omega, _, hread, ?_, rfl⟩)), andThen_next]
      · simp [hlt, encodePayloadOutcome, frameBody, Memory.writeList_append, State.withMem, State.withWorkOff]
      · obtain ⟨-, hu, -⟩ := State.ordinary_iff.1 hd
        exact (State.touches_congr (s := s) rfl _ _).trans
          (s.touches_mono hu (by simp [State.dstSpan]) (by simp [State.dstSpan]; omega))

/-- The encoder on ordinary memory (R117, R127), for both profiles. -/
theorem encodeFrame_ordinary {p : Profile} {s : State} (hm : s.mem.wf) (hp : s.ordinary s.paySpan = true)
    (hd : s.ordinary s.dstSpan = true) (ho : s.paySpan.overlaps s.dstSpan = false) :
    encodeFrame p s =
      if s.dstLen.toNat < p.hdrLen then .next (s.complete .bufferTooSmall)
      else if s.recLen.toNat ≠ 0 ∧ s.dstLen.toNat < p.hdrLen + s.recLen.toNat then
        .next (((s.withMem (s.mem.writeList s.dstAddr.toNat (p.header s))).withWorkOff
          (BitVec.ofNat 16 p.hdrLen)).complete .bufferTooSmall)
      else if s.dstLen.toNat < p.hdrLen + s.recLen.toNat + 2 then
        .next ((encoded s (frameBody p s) (BitVec.ofNat 16 (p.hdrLen + s.recLen.toNat))
          (checksum (frameBody p s))).complete .bufferTooSmall)
      else .next (((encoded s
          (frameBody p s ++ [lo (checksum (frameBody p s)), hi (checksum (frameBody p s))])
          (BitVec.ofNat 16 (p.hdrLen + s.recLen.toNat + 2)) (checksum (frameBody p s))).withDstLen
          (BitVec.ofNat 16 (p.hdrLen + s.recLen.toNat + 2))).complete .ok) := by
  unfold encodeFrame
  split
  · rfl
  · rename_i hcap
    rw [writeBytes_ordinary (sp := s.dstSpan) rfl hd (by simp [State.dstSpan]) (by simp [State.dstSpan]; omega),
      andThen_next, encodePayload_ordinary hm hp hd ho (by omega)]
    split
    · rfl
    · rename_i hroom
      have hle : (frameBody p s).length ≤ s.dstLen.toNat := by simp only [length_frameBody]; omega
      have := encodeTrailer_ordinary (wo := BitVec.ofNat 16 (p.hdrLen + s.recLen.toNat)) hm hd hle
      simp only [length_frameBody] at this
      rw [this]

theorem encodeTrailer_completes {s t : State} {n : Nat} (hreg : t.regions = s.regions)
    (hd : s.touches .unmapped s.dstSpan = false) (hn : n ≤ s.dstLen.toNat) :
    ∃ u, encodeTrailer s.dstAddr.toNat s.dstLen.toNat n t = .next u := by
  refine andThen_completes (readBytes_completes (sp := s.dstSpan) hreg hd (by simp [State.dstSpan])
    (by simpa [State.dstSpan] using hn)) fun frame _ => andThen_completes ?_ fun r _ => ?_
  · unfold boundedAppend
    rw [if_neg (by simp)]
    split
    · exact ⟨_, rfl⟩
    · rw [andThen_next]
      exact andThen_completes (writeBytes_completes (s := s) (sp := s.dstSpan) hreg hd (by simp [State.dstSpan])
        (by simp [State.dstSpan]; omega)) fun _ _ => ⟨_, rfl⟩
  · obtain ⟨_ | _, _, _⟩ := r <;> exact ⟨_, rfl⟩

/-- An encoder completes where the platform completes every access to its spans. -/
theorem encodeFrame_completes {p : Profile} {s : State} (hp : s.touches .unmapped s.paySpan = false)
    (hd : s.touches .unmapped s.dstSpan = false) : ∃ t, encodeFrame p s = .next t := by
  unfold encodeFrame
  split
  · exact ⟨_, rfl⟩
  rename_i hcap
  refine andThen_completes (writeBytes_completes (sp := s.dstSpan) rfl hd (by simp [State.dstSpan])
    (by simp [State.dstSpan]; omega)) fun u hu => ?_
  obtain ⟨-, rfl⟩ := writeBytes_eq_next.1 hu
  refine andThen_completes ?_ fun r hr => ?_
  · unfold boundedAppend
    split
    · exact ⟨_, rfl⟩
    split
    · exact ⟨_, rfl⟩
    rename_i hle
    have hle : p.hdrLen + s.recLen.toNat ≤ s.dstLen.toNat := Nat.not_lt.1 hle
    refine andThen_completes (readBytes_completes (s := s) (sp := s.paySpan) rfl hp (by simp [State.paySpan])
      (by simp [State.paySpan])) fun bs hbs => andThen_completes (writeBytes_completes (s := s) (sp := s.dstSpan)
      rfl hd (by simp [State.dstSpan]) ?_) fun _ _ => ⟨_, rfl⟩
    obtain ⟨-, rfl⟩ := readBytes_eq_next.1 hbs
    simp [State.dstSpan]
    omega
  · rcases boundedAppend_eq_next.1 hr with ⟨-, rfl⟩ | ⟨-, -, rfl⟩ | ⟨-, hle, bs, -, -, rfl⟩
    · exact encodeTrailer_completes (s := s) rfl hd (Nat.not_lt.1 hcap)
    · exact ⟨_, rfl⟩
    · exact encodeTrailer_completes (s := s) rfl hd hle

end Sys2Proof.Machine
end

