-- ==== Sys2Proof/Laws/FrameDecode.lean ====
section
/-! SUPPORT. What the shared decoder can do: `decodeFrame_eq_next` says what any next state looks like, whatever the
memory, `decodeFrame_rejects` and `decodeFrame_accepts` which one it is on ordinary memory. -/

namespace Sys2Proof.Machine

open Sys2Proof

/-- The record registers of the profile's own header fields: the serial profile has none (R115). -/
def decodedIds (p : Profile) (seq src dst : Byte) (s : State) : State :=
  match p with
  | .serial => s
  | .radio => s.withIds seq src dst

/-- The state a decoder leaves on OK. -/
def accepted (p : Profile) (s : State) (wc : Half) (payload : List Byte) (seq src dst kind len : Byte) : State :=
  ((decodedIds p seq src dst (((s.withWorkCrc wc).withMem (s.mem.writeList s.payAddr.toNat payload)).withWorkOff
    (BitVec.ofNat 16 len.toNat))).withRecord kind len).complete .ok

/-- What a decoder leaves: a rejection with nothing written but STATUS and the working checksum (R115, R125), or OK
with as many payload bytes as the record's length, which is L minus the overhead. -/
def DecoderLeaves (p : Profile) (s t : State) : Prop :=
  (∃ (r : Result) (wc : Half), r ≠ .ok ∧ t = (s.withWorkCrc wc).complete r) ∨
  ∃ (wc : Half) (payload : List Byte) (seq src dst kind len : Byte), p.minLen ≤ s.srcLen.toNat ∧
    len.toNat = s.srcLen.toNat - p.minLen ∧ payload.length = len.toNat ∧
    t = accepted p s wc payload seq src dst kind len

theorem decodeIds_eq_next {p : Profile} {k : Nat} {s t : State} (h : decodeIds p k s = .next t) :
    ∃ seq src dst, t = decodedIds p seq src dst s := by
  cases p with
  | serial => exact ⟨0#8, 0#8, 0#8, by simpa [decodeIds, decodedIds, eq_comm] using h⟩
  | radio =>
    obtain ⟨a, -, h⟩ := andThen_eq_next.1 h
    obtain ⟨b, -, h⟩ := andThen_eq_next.1 h
    obtain ⟨c, -, h⟩ := andThen_eq_next.1 h
    exact ⟨a, b, c, by simpa [decodedIds, eq_comm] using h⟩

theorem decodeFrame_eq_next {p : Profile} {s t : State} (h : decodeFrame p s = .next t) : DecoderLeaves p s t := by
  unfold decodeFrame at h
  split at h
  · exact .inl ⟨.frameTooShort, s.workCrc, by simp, by simpa [State.withWorkCrc, eq_comm] using h⟩
  rename_i hmin
  obtain ⟨magic, -, h⟩ := andThen_eq_next.1 h
  split at h
  · exact .inl ⟨.magicMismatch, s.workCrc, by simp, by simpa [State.withWorkCrc, eq_comm] using h⟩
  obtain ⟨low, -, h⟩ := andThen_eq_next.1 h
  obtain ⟨high, -, h⟩ := andThen_eq_next.1 h
  obtain ⟨body, -, h⟩ := andThen_eq_next.1 h
  split at h
  · exact .inl ⟨.checksumMismatch, checksum body, by simp, by simpa [eq_comm] using h⟩
  obtain ⟨kind, -, h⟩ := andThen_eq_next.1 h
  split at h
  · exact .inl ⟨.invalidMessageKind, checksum body, by simp, by simpa [eq_comm] using h⟩
  obtain ⟨len, -, h⟩ := andThen_eq_next.1 h
  split at h
  · exact .inl ⟨.lengthMismatch, checksum body, by simp, by simpa [eq_comm] using h⟩
  rename_i hlen
  obtain ⟨payload, hp, h⟩ := andThen_eq_next.1 h
  obtain ⟨s1, h1, h⟩ := andThen_eq_next.1 h
  obtain ⟨s2, h2, h⟩ := andThen_eq_next.1 h
  obtain ⟨-, rfl⟩ := readBytes_eq_next.1 hp
  obtain ⟨-, rfl⟩ := writeBytes_eq_next.1 h1
  obtain ⟨seq, src, dst, rfl⟩ := decodeIds_eq_next h2
  have hlen : len.toNat = s.srcLen.toNat - p.minLen := Decidable.not_not.1 hlen
  have hmin : p.minLen ≤ s.srcLen.toNat := Nat.not_lt.1 hmin
  exact .inr ⟨checksum body, _, seq, src, dst, kind, len, by omega, hlen, State.length_bytes ..,
    by simpa [accepted, eq_comm] using h⟩

/-- The five stages of this profile's rule on the frame's bytes (R114, R124). -/
def Profile.verdict (p : Profile) (c : Config) (f : List Byte) : Result :=
  frameVerdict (p.magic c) c.kindCount p.minLen p.kindAt p.lenAt f

theorem serialVerdict_eq (c : Config) (f : List Byte) : serialVerdict c f = Profile.serial.verdict c f := rfl

theorem radioVerdict_eq (c : Config) (f : List Byte) : radioVerdict c f = Profile.radio.verdict c f := rfl

/-- The bytes of the received frame. -/
def State.frame (s : State) : List Byte := s.mem.readList s.srcAddr.toNat s.srcLen.toNat

@[simp] theorem State.length_frame (s : State) : s.frame.length = s.srcLen.toNat := by simp [State.frame]

theorem State.getD_frame (s : State) {k : Nat} (h : k < s.srcLen.toNat) (b : Byte) :
    s.frame.getD k b = s.mem.read (s.srcAddr.toNat + k) := Memory.getD_readList _ _ h b

/-- An accepted frame passes all five stages. -/
theorem frameVerdict_eq_ok {magic kindCount : Byte} {minLen kindAt lenAt : Nat} {f : List Byte} :
    frameVerdict magic kindCount minLen kindAt lenAt f = .ok ↔
      minLen ≤ f.length ∧ f.getD 0 0#8 = magic ∧
      checksum (f.take (f.length - 2)) = half (f.getD (f.length - 2) 0#8) (f.getD (f.length - 1) 0#8) ∧
      (f.getD kindAt 0#8).toNat < kindCount.toNat ∧ (f.getD lenAt 0#8).toNat = f.length - minLen := by
  unfold frameVerdict
  generalize f.getD 0 0#8 = b0
  generalize checksum (f.take (f.length - 2)) = sum
  generalize half (f.getD (f.length - 2) 0#8) (f.getD (f.length - 1) 0#8) = carried
  generalize f.getD kindAt 0#8 = kind
  generalize f.getD lenAt 0#8 = len
  split
  · simp; omega
  split
  · simp_all
  split
  · simp_all
  split
  · simp; omega
  split
  · simp_all
  · simp_all

variable {p : Profile} {s : State}

/-- One byte of the frame, read on ordinary memory. -/
theorem readByte_frame {t : State} {k a j : Nat} (hreg : t.regions = s.regions)
    (hs : s.ordinary s.srcSpan = true) (ha : a = s.srcAddr.toNat + j) (hj : j < s.srcLen.toNat) :
    readByte k a t = .next (t.mem.read a) :=
  readByte_ordinary hreg hs (by simp [State.srcSpan]; omega) (by simp [State.srcSpan]; omega)

/-- The first three stages on ordinary memory, with the decoder's reads replaced by the frame's bytes. -/
theorem decodeFrame_stages (hs : s.ordinary s.srcSpan = true) :
    decodeFrame p s =
      if s.frame.length < p.minLen then raise .frameTooShort s
      else if s.frame.getD 0 0#8 ≠ p.magic s.cfg then raise .magicMismatch s
      else if checksum (s.frame.take (s.frame.length - 2)) ≠
          half (s.frame.getD (s.frame.length - 2) 0#8) (s.frame.getD (s.frame.length - 1) 0#8) then
        raise .checksumMismatch (s.withWorkCrc (checksum (s.frame.take (s.frame.length - 2))))
      else decodeKind p (s.srcLen.toNat + 1)
        (s.withWorkCrc (checksum (s.frame.take (s.frame.length - 2)))) := by
  have hmin := p.minLen_eq
  have hpos := p.hdrLen_pos
  unfold decodeFrame
  simp only [State.length_frame]
  split
  · rfl
  rename_i hL
  rw [readByte_frame (j := 0) rfl hs (by simp) (by omega), andThen_next, State.getD_frame s (by omega),
    State.getD_frame s (by omega), State.getD_frame s (by omega)]
  simp only [Nat.add_zero]
  split
  · rfl
  unfold decodeChecksum
  rw [readByte_frame (j := s.srcLen.toNat - 2) rfl hs (by omega) (by omega), andThen_next,
    readByte_frame (j := s.srcLen.toNat - 1) rfl hs (by omega) (by omega), andThen_next,
    readBytes_ordinary (sp := s.srcSpan) rfl hs (by simp [State.srcSpan]) (by simp [State.srcSpan]),
    andThen_next, State.frame, Memory.take_readList _ _ (by omega),
    show s.srcAddr.toNat + (s.srcLen.toNat - 2) = s.srcAddr.toNat + s.srcLen.toNat - 2 by omega,
    show s.srcAddr.toNat + (s.srcLen.toNat - 1) = s.srcAddr.toNat + s.srcLen.toNat - 1 by omega]

/-- Stage 4 on ordinary memory. -/
theorem decodeKind_frame {k : Nat} {wc : Half} (hs : s.ordinary s.srcSpan = true)
    (hL : p.minLen ≤ s.srcLen.toNat) :
    decodeKind p k (s.withWorkCrc wc) =
      if s.cfg.kindCount.toNat ≤ (s.frame.getD p.kindAt 0#8).toNat then
        raise .invalidMessageKind (s.withWorkCrc wc)
      else decodeLength p (k + 1) (s.frame.getD p.kindAt 0#8) (s.withWorkCrc wc) := by
  have hmin := p.minLen_eq
  have hk := p.kindAt_lt
  unfold decodeKind
  rw [readByte_frame (s := s) (j := p.kindAt) ?_ hs (by simp) (by omega), andThen_next,
    State.getD_frame s (by omega)]
  · by_cases h : s.cfg.kindCount.toNat ≤ (s.mem.read (s.srcAddr.toNat + p.kindAt)).toNat
    · simp [kindValid, h, Nat.not_lt.2 h]
    · simp [kindValid, h, Nat.lt_of_not_le h]
  · rfl

/-- Stage 5 on ordinary memory. -/
theorem decodeLength_frame {k : Nat} {wc : Half} {kind : Byte} (hs : s.ordinary s.srcSpan = true)
    (hL : p.minLen ≤ s.srcLen.toNat) :
    decodeLength p k kind (s.withWorkCrc wc) =
      if (s.frame.getD p.lenAt 0#8).toNat ≠ s.frame.length - p.minLen then
        raise .lengthMismatch (s.withWorkCrc wc)
      else decodeAccept p (k + 1) kind (s.frame.getD p.lenAt 0#8) (s.withWorkCrc wc) := by
  have hmin := p.minLen_eq
  have hl := p.lenAt_lt
  unfold decodeLength
  rw [readByte_frame (s := s) (j := p.lenAt) ?_ hs (by simp) (by omega), andThen_next,
    State.getD_frame s (by omega), State.length_frame]
  · rfl
  · rfl

/-- Acceptance on ordinary memory: the payload is copied as it was, the record is the frame's fields. -/
theorem decodeAccept_frame {k : Nat} {wc : Half} {kind len : Byte} (hm : s.mem.wf)
    (hs : s.ordinary s.srcSpan = true) (hp : s.ordinary s.payArea = true)
    (ho : s.srcSpan.overlaps s.payArea = false) (hL : p.minLen ≤ s.srcLen.toNat)
    (hlen : len.toNat = s.srcLen.toNat - p.minLen) :
    decodeAccept p k kind len (s.withWorkCrc wc) =
      .next (accepted p s wc ((s.frame.drop p.hdrLen).take len.toNat) (s.frame.getD 1 0#8) (s.frame.getD 2 0#8)
        (s.frame.getD 3 0#8) kind len) := by
  have hmin := p.minLen_eq
  have hpos := p.hdrLen_pos
  have hpay : (s.frame.drop p.hdrLen).take len.toNat =
      s.mem.readList (s.srcAddr.toNat + p.hdrLen) len.toNat := by
    rw [State.frame, show s.srcLen.toNat = p.hdrLen + (len.toNat + 2) by omega, Memory.drop_readList,
      Memory.take_readList _ _ (by omega)]
  have hno := Span.not_overlaps ho
  simp only [State.srcSpan, State.payArea] at hno
  have hsame : ∀ j, j < s.srcLen.toNat →
      (s.mem.writeList s.payAddr.toNat ((s.frame.drop p.hdrLen).take len.toNat)).read (s.srcAddr.toNat + j) =
        s.frame.getD j 0#8 := by
    intro j hj
    rw [State.getD_frame s hj, Memory.read_writeList_out hm]
    rw [hpay, Memory.length_readList]
    have := len.isLt
    omega
  unfold decodeAccept
  rw [readBytes_ordinary (s := s) (sp := s.srcSpan) ?_ hs (by simp [State.srcSpan])
    (by simp [State.srcSpan]; omega), andThen_next]
  · simp only [State.withWorkCrc_mem, State.withWorkCrc_srcAddr, State.withWorkCrc_payAddr]
    rw [← hpay, writeBytes_ordinary (s := s) (sp := s.payArea) ?_ hp (by simp [State.payArea]) ?_, andThen_next]
    · cases p with
      | serial => simp [decodeIds, accepted, decodedIds]
      | radio =>
        unfold decodeIds
        simp only [State.withWorkOff_srcAddr, State.withMem_srcAddr, State.withWorkCrc_srcAddr]
        rw [readByte_frame (s := s) (j := 1) ?_ hs rfl (by omega), andThen_next,
          readByte_frame (s := s) (j := 2) ?_ hs rfl (by omega), andThen_next,
          readByte_frame (s := s) (j := 3) ?_ hs rfl (by omega), andThen_next, andThen_next]
        · simp only [State.withWorkOff_mem, State.withMem_mem]
          simp [accepted, decodedIds, hsame 1 (by omega), hsame 2 (by omega), hsame 3 (by omega)]
        all_goals rfl
    · rfl
    · have := len.isLt
      rw [hpay, Memory.length_readList]
      simp [State.payArea]
      omega
  · rfl

/-- On ordinary memory a frame that a stage rejects ends with that stage's code and nothing written (R115, R125). -/
theorem decodeFrame_rejects (hs : s.ordinary s.srcSpan = true) (hv : p.verdict s.cfg s.frame ≠ .ok) :
    ∃ wc, decodeFrame p s = .next ((s.withWorkCrc wc).complete (p.verdict s.cfg s.frame)) := by
  rw [decodeFrame_stages hs]
  unfold Profile.verdict frameVerdict at hv ⊢
  split
  · exact ⟨s.workCrc, rfl⟩
  rename_i hL
  simp only [State.length_frame, Nat.not_lt] at hL
  split
  · exact ⟨s.workCrc, rfl⟩
  split
  · exact ⟨_, rfl⟩
  rw [decodeKind_frame hs hL]
  split
  · exact ⟨_, rfl⟩
  rw [decodeLength_frame hs hL]
  split
  · exact ⟨_, rfl⟩
  · rename_i h0 hc hk hl
    exact absurd (by rw [if_neg (by simpa using hL), if_neg h0, if_neg hc, if_neg hk, if_neg hl]) hv

/-- On ordinary memory a frame that passes every stage is accepted (R116, R126). -/
theorem decodeFrame_accepts (hm : s.mem.wf) (hs : s.ordinary s.srcSpan = true) (hp : s.ordinary s.payArea = true)
    (ho : s.srcSpan.overlaps s.payArea = false) (hv : p.verdict s.cfg s.frame = .ok) :
    ∃ wc, decodeFrame p s = .next (accepted p s wc
      ((s.frame.drop p.hdrLen).take (s.srcLen.toNat - p.minLen)) (s.frame.getD 1 0#8) (s.frame.getD 2 0#8)
      (s.frame.getD 3 0#8) (s.frame.getD p.kindAt 0#8) (s.frame.getD p.lenAt 0#8)) := by
  obtain ⟨hL, h0, hc, hk, hl⟩ := frameVerdict_eq_ok.1 hv
  rw [decodeFrame_stages hs]
  have hL' : p.minLen ≤ s.srcLen.toNat := by simpa using hL
  have hl' : (s.frame.getD p.lenAt 0#8).toNat = s.srcLen.toNat - p.minLen := by simpa using hl
  refine ⟨checksum (s.frame.take (s.frame.length - 2)), ?_⟩
  rw [if_neg (by omega), if_neg (by simpa using h0), if_neg (by simpa using hc), decodeKind_frame hs hL',
    if_neg (by omega), decodeLength_frame hs hL', if_neg (by simpa using hl),
    decodeAccept_frame hm hs hp ho hL' hl', hl']

/-- A decoder completes where the platform completes every access to its spans. -/
theorem decodeFrame_completes (hs : s.touches .unmapped s.srcSpan = false)
    (hp : s.touches .unmapped s.payArea = false) : ∃ t, decodeFrame p s = .next t := by
  have hmin := p.minLen_eq
  have hpos := p.hdrLen_pos
  have hk := p.kindAt_lt
  have hl := p.lenAt_lt
  have byte : ∀ {t : State} {k a : Nat}, t.regions = s.regions → s.srcAddr.toNat ≤ a →
      a < s.srcAddr.toNat + s.srcLen.toNat → ∃ b, readByte k a t = .next b :=
    fun hr h1 h2 => readByte_completes (s := s) (sp := s.srcSpan) hr hs h1 h2
  have bytes : ∀ {t : State} {k a n : Nat}, t.regions = s.regions → s.srcAddr.toNat ≤ a →
      a + n ≤ s.srcAddr.toNat + s.srcLen.toNat → ∃ bs, readBytes k a n t = .next bs :=
    fun hr h1 h2 => readBytes_completes (s := s) (sp := s.srcSpan) hr hs h1 h2
  unfold decodeFrame
  split
  · exact ⟨_, rfl⟩
  rename_i hL
  refine andThen_completes (byte rfl (by omega) (by omega)) fun magic _ => ?_
  split
  · exact ⟨_, rfl⟩
  refine andThen_completes (byte rfl (by omega) (by omega)) fun low _ =>
    andThen_completes (byte rfl (by omega) (by omega)) fun high _ =>
    andThen_completes (bytes rfl (by omega) (by omega)) fun body _ => ?_
  split
  · exact ⟨_, rfl⟩
  refine andThen_completes (byte rfl (by simp) (by simp; omega)) fun kind _ => ?_
  split
  · exact ⟨_, rfl⟩
  refine andThen_completes (byte rfl (by simp) (by simp; omega)) fun len _ => ?_
  split
  · exact ⟨_, rfl⟩
  rename_i hlen
  have hlt := len.isLt
  simp only [State.withWorkCrc_srcLen, ne_eq, Decidable.not_not] at hlen
  refine andThen_completes (bytes rfl (by simp) (by simp; omega)) fun bs hbs =>
    andThen_completes (writeBytes_completes (s := s) (sp := s.payArea) rfl hp (by simp [State.payArea]) ?_)
      fun t ht => andThen_completes ?_ fun _ _ => ⟨_, rfl⟩
  · obtain ⟨-, rfl⟩ := readBytes_eq_next.1 hbs
    simp [State.payArea]
    omega
  · obtain ⟨-, rfl⟩ := writeBytes_eq_next.1 ht
    cases p with
    | serial => exact ⟨_, rfl⟩
    | radio =>
      have h8 : Profile.radio.minLen = 8 := rfl
      exact andThen_completes (byte rfl (by simp) (by simp; omega)) fun _ _ =>
        andThen_completes (byte rfl (by simp) (by simp; omega)) fun _ _ =>
        andThen_completes (byte rfl (by simp) (by simp; omega)) fun _ _ => ⟨_, rfl⟩

end Sys2Proof.Machine
end

