-- ==== Sys2Proof/Laws/Exec.lean ====
section
/-! SUPPORT. What each command can do: `exec_eq_next` says what any next state of a command looks like, `exec_ready`
that a ready command goes straight to its own rule. -/

namespace Sys2Proof.Machine

open Sys2Proof

/-- The command's own rule, after the stages (R80 stage 4). -/
def operation (i : Instr) (s : State) : Res State :=
  match i with
  | .crcInit => finishOk (s.withCrcAcc crcInitValue)
  | .crcByte imm8 => finishOk (s.withCrcAcc (crcStep s.crcAcc imm8))
  | .crcSpan => checksumSpan s
  | .append => appendSource s
  | .serEnc => encodeFrame .serial s
  | .serDec => decodeFrame .serial s
  | .radEnc => encodeFrame .radio s
  | .radDec => decodeFrame .radio s
  | .kindCheck => checkKind s

/-- Every command is its stages followed by its own rule (R80). -/
theorem exec_eq_stages (i : Instr) (s : State) : exec i s = runStages i (operation i) s := by cases i <;> rfl

/-- A ready command goes straight to its own rule. -/
theorem exec_ready {i : Instr} {s : State} (h : s.ready i = true) : exec i s = operation i s :=
  (exec_eq_stages i s).trans (runStages_ready h)

/-- So does a command that passes the stages, whatever its memory is like. -/
theorem exec_passed {i : Instr} {s : State} (h : s.passed i = true) : exec i s = operation i s :=
  (exec_eq_stages i s).trans (runStages_passed h)

/-- The stages before the command's own rule are passed (R80 stages 2 and 3, R151). -/
structure State.Passes (s : State) (i : Instr) : Prop where
  inRange : (checkedSpans i s).all (fun sp => sp.inRange s.cfg.addrW) = true
  apart : spansOverlap i s = false
  noDevice : (checkedSpans i s).any (fun sp => s.touches .device sp) = false
  unclaimed : s.claimed (readSpans i s) (writeSpans i s) = false

/-- What APPEND leaves: nothing changed but STATUS, or the bytes copied and DST_OFF advanced. -/
def AppendLeaves (s t : State) : Prop :=
  (s.srcLen.toNat = 0 ∧ t = (s.withDstOff s.dstOff).complete .ok) ∨
  (s.srcLen.toNat ≠ 0 ∧ s.dstLen.toNat < s.dstOff.toNat + s.srcLen.toNat ∧ t = s.complete .bufferTooSmall) ∨
  (s.srcLen.toNat ≠ 0 ∧ s.dstOff.toNat + s.srcLen.toNat ≤ s.dstLen.toNat ∧
    t = ((s.withMem (s.mem.writeList (s.dstAddr.toNat + s.dstOff.toNat)
      (s.bytes 0 s.srcAddr.toNat s.srcLen.toNat))).withDstOff
      (BitVec.ofNat 16 (s.dstOff.toNat + s.srcLen.toNat))).complete .ok)

theorem appendSource_eq_next {s t : State} (h : appendSource s = .next t) : AppendLeaves s t := by
  obtain ⟨r, hr, h⟩ := andThen_eq_next.1 h
  rcases boundedAppend_eq_next.1 hr with ⟨h0, rfl⟩ | ⟨h0, hgt, rfl⟩ | ⟨h0, hle, bs, hbs, -, rfl⟩
  · exact .inl ⟨h0, by simpa [appendOutcome, eq_comm] using h⟩
  · exact .inr (.inl ⟨h0, hgt, by simpa [appendOutcome, eq_comm] using h⟩)
  · obtain ⟨-, rfl⟩ := readBytes_eq_next.1 hbs
    exact .inr (.inr ⟨h0, hle, by simpa [appendOutcome, eq_comm] using h⟩)

/-- A command's own rule completes where the platform completes every access to the checked spans. -/
theorem operation_completes {i : Instr} {s : State}
    (h : ∀ sp ∈ checkedSpans i s, s.touches .unmapped sp = false) : ∃ t, operation i s = .next t := by
  cases i with
  | crcInit | crcByte => exact ⟨_, rfl⟩
  | crcSpan =>
    exact andThen_completes (readBytes_completes (sp := s.srcSpan) rfl (h _ (.head _)) (by simp [State.srcSpan])
      (by simp [State.srcSpan])) fun _ _ => ⟨_, rfl⟩
  | append =>
    refine andThen_completes ?_ fun r _ => by obtain ⟨_ | _, _, _⟩ := r <;> exact ⟨_, rfl⟩
    unfold boundedAppend
    split
    · exact ⟨_, rfl⟩
    split
    · exact ⟨_, rfl⟩
    refine andThen_completes (readBytes_completes (sp := s.srcSpan) rfl (h _ (.head _)) (by simp [State.srcSpan])
      (by simp [State.srcSpan])) fun bs hbs => andThen_completes (writeBytes_completes (s := s) (sp := s.dstSpan) rfl
      (h _ (.tail _ (.head _))) (by simp [State.dstSpan]) ?_) fun _ _ => ⟨_, rfl⟩
    obtain ⟨-, rfl⟩ := readBytes_eq_next.1 hbs
    simp [State.dstSpan]
    omega
  | serEnc | radEnc => exact encodeFrame_completes (h _ (.head _)) (h _ (.tail _ (.head _)))
  | serDec | radDec => exact decodeFrame_completes (h _ (.head _)) (h _ (.tail _ (.head _)))
  | kindCheck =>
    simp only [operation, checkKind]
    split <;> exact ⟨_, rfl⟩

/-- A ready command completes. -/
theorem exec_ready_completes {i : Instr} {s : State} (h : s.ready i = true) : ∃ t, exec i s = .next t := by
  rw [exec_ready h]
  obtain ⟨-, -, ho, -⟩ := State.ready_iff.1 h
  exact operation_completes fun sp hsp => (State.ordinary_iff.1 (List.all_eq_true.1 ho sp hsp)).2.1

/-- What a command's own rule leaves. -/
def OperationLeaves (i : Instr) (s t : State) : Prop :=
  match i with
  | .crcInit => t = (s.withCrcAcc crcInitValue).complete .ok
  | .crcByte imm8 => t = (s.withCrcAcc (crcStep s.crcAcc imm8)).complete .ok
  | .crcSpan => t = (s.withCrcAcc (checksum (s.bytes 0 s.srcAddr.toNat s.srcLen.toNat))).complete .ok
  | .append => AppendLeaves s t
  | .serEnc => EncoderLeaves .serial s t
  | .serDec => DecoderLeaves .serial s t
  | .radEnc => EncoderLeaves .radio s t
  | .radDec => DecoderLeaves .radio s t
  | .kindCheck => t = s.complete (if kindValid s.cfg s.recKind then .ok else .invalidMessageKind)

theorem operation_eq_next {i : Instr} {s t : State} (h : operation i s = .next t) : OperationLeaves i s t := by
  cases i with
  | crcInit | crcByte => simpa [operation, OperationLeaves, eq_comm] using h
  | crcSpan =>
    obtain ⟨bs, hbs, h⟩ := andThen_eq_next.1 h
    obtain ⟨-, rfl⟩ := readBytes_eq_next.1 hbs
    simpa [OperationLeaves, eq_comm] using h
  | append => exact appendSource_eq_next h
  | serEnc | radEnc => exact encodeFrame_eq_next h
  | serDec | radDec => exact decodeFrame_eq_next h
  | kindCheck =>
    simp only [operation, checkKind, raise_eq, finishOk_eq] at h
    unfold OperationLeaves
    split at h <;> rename_i hk <;> simpa [hk, eq_comm] using h

/-- A command answers a next state in two ways: AddressRange, or the stages passed and its own rule's state. -/
theorem exec_eq_next {i : Instr} {s t : State} (h : exec i s = .next t) :
    t = s.complete .addressRange ∨ (s.Passes i ∧ operation i s = .next t ∧ OperationLeaves i s t) := by
  rw [exec_eq_stages] at h
  rcases runStages_eq_next.1 h with ⟨-, rfl⟩ | ⟨h1, h2, h3, h4, h⟩
  · exact .inl rfl
  · exact .inr ⟨⟨h1, h2, h3, h4⟩, h, operation_eq_next h⟩

end Sys2Proof.Machine
end

