-- ==== Sys2Proof/Laws/Engine.lean ====
section
/-! SUPPORT. What a step can do: one inversion lemma for each of the engine's step, the host's operation and the
machine's step, and the laws of the memory a reset leaves (R154). -/

namespace Sys2Proof.Machine

open Sys2Proof

/-! ### The engine -/

/-- The engine's step ends an illegal command or runs a legal one. -/
theorem engineStep_eq_next {s t : State} (h : engineStep s = .next t) :
    ((∃ e, decode s.pending = .error e) ∧ t = s.complete .illegalCommand) ∨
    ∃ i, decode s.pending = .ok i ∧ exec i s = .next t := by
  unfold engineStep at h
  split at h
  · rename_i e he
    exact .inl ⟨⟨e, he⟩, by simpa [eq_comm] using h⟩
  · rename_i i hi
    exact .inr ⟨i, hi, h⟩

/-- What no command changes, and BUSY, which every command clears (R78, R82). -/
theorem exec_keeps {i : Instr} {s t : State} (h : exec i s = .next t) :
    t.busy = false ∧ t.cfg = s.cfg ∧ t.lastOp = s.lastOp ∧ t.pending = s.pending ∧ t.srcAddr = s.srcAddr ∧
      t.srcLen = s.srcLen ∧ t.dstAddr = s.dstAddr ∧ t.payAddr = s.payAddr ∧ t.regions = s.regions ∧
      t.others = s.others ∧ t.bus = s.bus ∧ t.turns = s.turns ∧ t.replies = s.replies := by
  rcases exec_eq_next h with rfl | ⟨-, -, h⟩
  · simp
  cases i with
  | crcInit | crcByte | crcSpan | kindCheck => simp only [OperationLeaves] at h; subst h; simp
  | append => rcases h with ⟨-, rfl⟩ | ⟨-, -, rfl⟩ | ⟨-, -, rfl⟩ <;> simp
  | serEnc | radEnc => obtain ⟨_, _, _, -, -, rfl | rfl⟩ := h <;> simp
  | serDec | radDec =>
    rcases h with ⟨_, _, -, rfl⟩ | ⟨_, _, _, _, _, _, _, -, -, -, rfl⟩ <;> simp [accepted, decodedIds]

/-- The engine keeps the memory canonical and inside the address space. -/
theorem engineStep_memory {s t : State} (h2 : s.mem.wf) (h3 : s.mem.within s.cfg.addrW)
    (h : engineStep s = .next t) : t.mem.wf ∧ t.mem.within s.cfg.addrW := by
  rcases engineStep_eq_next h with ⟨-, rfl⟩ | ⟨i, -, h⟩
  · exact ⟨h2, h3⟩
  rcases exec_eq_next h with rfl | ⟨hp, -, h⟩
  · exact ⟨h2, h3⟩
  have hr := hp.inRange
  cases i with
  | crcInit | crcByte | crcSpan | kindCheck => simp only [OperationLeaves] at h; subst h; exact ⟨h2, h3⟩
  | append =>
    rcases h with ⟨-, rfl⟩ | ⟨-, -, rfl⟩ | ⟨-, hle, rfl⟩
    · exact ⟨h2, h3⟩
    · exact ⟨h2, h3⟩
    · simp [checkedSpans, Span.inRange, State.dstSpan] at hr
      exact ⟨Memory.writeList_wf h2 _ _, Memory.writeList_within h3 _ (by simp; omega)⟩
  | serEnc | radEnc =>
    simp [checkedSpans, Span.inRange, State.dstSpan] at hr
    obtain ⟨_, _, _, _, -, rfl | rfl⟩ := h <;>
    exact ⟨Memory.writeList_wf h2 _ _, Memory.writeList_within h3 _ (by omega)⟩
  | serDec | radDec =>
    simp [checkedSpans, Span.inRange, State.payArea] at hr
    rcases h with ⟨_, _, -, rfl⟩ | ⟨_, _, _, _, _, _, len, -, -, hl, rfl⟩
    · exact ⟨h2, h3⟩
    · have := len.isLt
      exact ⟨Memory.writeList_wf h2 _ _, Memory.writeList_within h3 _ (by omega)⟩

/-! ### The memory a reset leaves (R154) -/

theorem mixBytes_wf {d k a n : Nat} {after : Nat → Byte} {m : Memory} (hm : m.wf) : (mixBytes d after k a n m).wf := by
  induction n generalizing k a m with
  | zero => exact hm
  | succ n ih =>
    unfold mixBytes
    split
    · exact ih (Memory.write_wf hm _ _)
    · exact ih hm

theorem mixBytes_within {d k a n w : Nat} {after : Nat → Byte} {m : Memory} (hm : m.within w) (ha : ∀ a, 2 ^ w ≤ a → after a = unlistedByte) :
    (mixBytes d after k a n m).within w := by
  induction n generalizing k a m with
  | zero => exact hm
  | succ n ih =>
    unfold mixBytes
    split
    · exact ih (Memory.write_within_of_beyond hm (ha _))
    · exact ih hm

theorem read_mixBytes_out {d k a n : Nat} {after : Nat → Byte} {m : Memory} (hm : m.wf) {x : Nat} (h : x < a ∨ a + n ≤ x) :
    (mixBytes d after k a n m).read x = m.read x := by
  induction n generalizing k a m with
  | zero => rfl
  | succ n ih =>
    unfold mixBytes
    split
    · rw [ih (Memory.write_wf hm _ _) (by omega), Memory.read_write_ne hm _ (by omega)]
    · rw [ih hm (by omega)]

theorem read_mixBytes_in {d k a n : Nat} {after : Nat → Byte} {m : Memory} (hm : m.wf) {j : Nat} (h : j < n) :
    (mixBytes d after k a n m).read (a + j) =
      if Config.freeBit d (k + j) then after (a + j) else m.read (a + j) := by
  induction n generalizing k a m j with
  | zero => omega
  | succ n ih =>
    unfold mixBytes
    cases j with
    | zero =>
      simp only [Nat.add_zero]
      split
      · rw [read_mixBytes_out (Memory.write_wf hm _ _) (by omega), Memory.read_write_same hm]
      · rw [read_mixBytes_out hm (by omega)]
    | succ j =>
      have e : a + (j + 1) = a + 1 + j := by omega
      have e' : k + (j + 1) = k + 1 + j := by omega
      rw [e, e']
      split
      · rw [ih (Memory.write_wf hm _ _) (by omega), Memory.read_write_ne hm _ (by omega)]
      · rw [ih hm (by omega)]

theorem mixSpans_wf {d : Nat} {after : Nat → Byte} {m : Memory} {sps : List Span} (hm : m.wf) : (mixSpans d after sps m).wf := by
  induction sps generalizing m with
  | nil => exact hm
  | cons sp sps ih => exact ih (mixBytes_wf hm)

theorem mixSpans_within {d w : Nat} {after : Nat → Byte} {m : Memory} {sps : List Span} (hm : m.within w)
    (ha : ∀ a, 2 ^ w ≤ a → after a = unlistedByte) : (mixSpans d after sps m).within w := by
  induction sps generalizing m with
  | nil => exact hm
  | cons sp sps ih => exact ih (mixBytes_within hm ha)

theorem read_mixSpans_out {d : Nat} {after : Nat → Byte} {m : Memory} {sps : List Span} (hm : m.wf) {x : Nat}
    (h : ∀ sp ∈ sps, sp.contains x = false) : (mixSpans d after sps m).read x = m.read x := by
  induction sps generalizing m with
  | nil => rfl
  | cons sp sps ih =>
    have hx := h sp (by simp)
    unfold mixSpans
    rw [ih (mixBytes_wf hm) fun sp' hsp => h sp' (by simp [hsp]), read_mixBytes_out hm]
    simp only [Span.contains, Bool.and_eq_false_iff, decide_eq_false_iff_not] at hx
    omega

/-- In the answered state no access is left that is not completed. -/
@[simp] theorem State.touches_answered_unmapped (s : State) (sp : Span) :
    s.answered.touches .unmapped sp = false := by
  simp only [State.touches, State.answered, List.any_map, List.any_eq_false, Function.comp_apply]
  intro r _
  rcases r with ⟨_, _ | _ | _⟩ <;> simp [Region.answered]

@[simp] theorem State.touches_answered_device (s : State) (sp : Span) :
    s.answered.touches .device sp = s.touches .device sp := by
  simp only [State.touches, State.answered, List.any_map]
  congr 1
  funext r
  rcases r with ⟨_, _ | _ | _⟩ <;> rfl

/-- A stuck command completes in the answered state. -/
theorem engineStep_answered {s : State} {f : Fault} (h : engineStep s = .fault f) :
    ∃ u, engineStep s.answered = .next u := by
  unfold engineStep at h ⊢
  rw [State.answered_pending]
  split at h
  · cases h
  rename_i i hi
  simp only [exec_eq_stages]
  rw [exec_eq_stages] at h
  have hc : checkedSpans i s.answered = checkedSpans i s := by cases i <;> rfl
  have ho : spansOverlap i s.answered = spansOverlap i s := by cases i <;> rfl
  have hr : readSpans i s.answered = readSpans i s := by cases i <;> rfl
  have hw : writeSpans i s.answered = writeSpans i s := by cases i <;> rfl
  have hcl : ∀ x y, s.answered.claimed x y = s.claimed x y := fun _ _ => rfl
  unfold runStages at h ⊢
  simp only [hc, ho, hr, hw, hcl, State.answered_cfg, State.touches_answered_device]
  split at h
  · cases h
  rename_i h1
  rw [if_neg h1]
  split at h
  · cases h
  rename_i h2
  rw [if_neg h2]
  split at h
  · cases h
  rename_i h3
  rw [if_neg h3]
  split at h
  · cases h
  rename_i h4
  rw [if_neg h4]
  exact operation_completes fun sp _ => s.touches_answered_unmapped sp

/-- Beyond the address space an abandoned command leaves nothing. -/
theorem abandonedBytes_beyond {s : State} (h2 : s.mem.wf) (h3 : s.mem.within s.cfg.addrW) (a : Nat)
    (ha : 2 ^ s.cfg.addrW ≤ a) : abandonedBytes s a = unlistedByte := by
  have any : anyByte s a = unlistedByte :=
    (if_neg (by simp [canWrite, Nat.not_lt.2 ha])).trans (Memory.read_beyond h3 ha)
  rcases ht : engineStep s with t | _ | _ <;> simp only [abandonedBytes, ht]
  · exact Memory.read_beyond (engineStep_memory h2 h3 ht).2 ha
  · obtain ⟨u, hu⟩ := engineStep_answered ht
    simp only [hu]
    exact Memory.read_beyond (engineStep_memory (s := s.answered) h2 h3 hu).2 ha
  · exact any

/-- What a command with a next state would have left. -/
theorem abandonedBytes_of_step {s t : State} (h : engineStep s = .next t) : abandonedBytes s = t.mem.read := by
  simp only [abandonedBytes, h]

/-- What a stuck command would have left. -/
theorem abandonedBytes_of_stuck {s u : State} {f : Fault} (h : engineStep s = .fault f)
    (hu : engineStep s.answered = .next u) : abandonedBytes s = u.mem.read := by
  simp only [abandonedBytes, h, hu]

/-- What a refused command would have left. -/
theorem abandonedBytes_of_refused {s : State} {r : Refusal} (h : engineStep s = .refused r) :
    abandonedBytes s = anyByte s := by
  simp only [abandonedBytes, h]

/-- A reset of a running command keeps the memory canonical and inside the address space. -/
theorem abandonCommand_memory {s : State} (h2 : s.mem.wf) (h3 : s.mem.within s.cfg.addrW) :
    (abandonCommand s).mem.wf ∧ (abandonCommand s).mem.within s.cfg.addrW :=
  ⟨mixSpans_wf h2, mixSpans_within h3 (abandonedBytes_beyond h2 h3)⟩

/-- A command writes at most one span (R48). -/
theorem runningWrites_cases (s : State) : runningWrites s = [] ∨ ∃ sp, runningWrites s = [sp] := by
  unfold runningWrites
  split
  · exact .inl rfl
  · rename_i i _
    cases i <;> simp only [writeSpans] <;> first | (split <;> simp) | simp

/-! ### The host -/

/-- A host access of data memory goes on only at an address that exists, outside the running commands' spans, and
that the platform completes. -/
theorem hostAccess_eq_next {a : Nat} {s t : State} {k : State → Res State} :
    hostAccess a s k = .next t ↔
      a < 2 ^ s.cfg.addrW ∧ inRunningSpans s a = false ∧ inClaims s a = false ∧
        s.touches .unmapped ⟨a, 1⟩ = false ∧ k s = .next t := by
  unfold hostAccess
  split
  · simp; omega
  rename_i ha
  split
  · rename_i hr
    simp only [Bool.or_eq_true] at hr
    simp
    rintro - h1 h2
    simp [h1, h2] at hr
  rename_i hr
  simp only [Bool.or_eq_true, not_or, Bool.not_eq_true] at hr
  split
  · rename_i hu
    simp [hu]
  · rename_i hu
    simp only [Bool.not_eq_true] at hu
    simp [hr.1, hr.2, hu, Nat.not_le.1 ha]

/-- Where the host may access data memory, no span and no claim forbids it. -/
theorem State.hostMayAccess.free {s : State} {a : Nat} (h : s.hostMayAccess a) :
    inRunningSpans s a = false ∧ inClaims s a = false := by
  refine ⟨?_, by simpa [inClaims] using h.1⟩
  unfold inRunningSpans
  cases hb : s.busy
  · rfl
  · simp only [Bool.true_and, runningReads, runningWrites]
    cases hd : decode s.pending with
    | error e => simp
    | ok i => simpa only [List.any_eq_false, Bool.not_eq_true] using h.2 hb i hd

/-- What the host's byte write can do to the memory. -/
theorem hostStored_cases (a : Nat) (b : Byte) (s : State) :
    hostStored a b s = s.mem ∨ hostStored a b s = s.mem.write a b := by
  unfold hostStored
  split
  · exact .inl rfl
  · exact .inr rfl

/-! What runs in the other instances (R148). -/

theorem claimsCollide_iff {cs : List Claim} : claimsCollide cs = true ↔
    ∃ c ∈ cs, ∃ d ∈ cs, c.owner ≠ d.owner ∧ (c.writes = true ∨ d.writes = true) ∧
      c.span.overlaps d.span = true := by
  simp [claimsCollide, Claim.collides, and_assoc]

theorem runningCollides_iff {s : State} {cs : List Claim} : runningCollides cs s = true ↔
    s.busy = true ∧ ∃ i, decode s.pending = .ok i ∧ ∃ c ∈ s.others ++ cs,
      (∃ sp ∈ writeSpans i s, c.span.overlaps sp = true) ∨
        (c.writes = true ∧ ∃ sp ∈ readSpans i s, c.span.overlaps sp = true) := by
  unfold runningCollides
  rw [Bool.and_eq_true]
  refine and_congr_right fun hb => ?_
  simp only [runningReads, runningWrites, State.claimed, ← List.any_append]
  cases hd : decode s.pending with
  | error e => simp
  | ok i =>
    simp only [List.any_eq_true, Bool.or_eq_true, Bool.and_eq_true]
    simp

theorem State.writeClaimed_iff {s : State} {a : Nat} : s.writeClaimed a = true ↔
    a < 2 ^ s.cfg.addrW ∧ ∃ c ∈ s.others, c.writes = true ∧ c.span.contains a = true := by
  simp [State.writeClaimed]

theorem State.otherWrites_wf {s : State} {cells : List Host.Cell} {m : Memory} (hm : m.wf) :
    (s.otherWrites cells m).wf := by
  induction cells generalizing m with
  | nil => exact hm
  | cons c cells ih =>
    unfold State.otherWrites
    split
    · exact ih (Memory.write_wf hm _ _)
    · exact ih hm

theorem State.otherWrites_within {s : State} {cells : List Host.Cell} {m : Memory}
    (hm : m.within s.cfg.addrW) : (s.otherWrites cells m).within s.cfg.addrW := by
  induction cells generalizing m with
  | nil => exact hm
  | cons c cells ih =>
    unfold State.otherWrites
    split
    · rename_i h
      exact ih (Memory.write_within hm (by simpa using (Bool.and_eq_true_iff.1 h).1) _)
    · exact ih hm

/-- A byte in no write claim, or that no cell names, stays. -/
theorem State.read_otherWrites_out {s : State} {cells : List Host.Cell} {m : Memory} (hm : m.wf) {a : Nat}
    (h : s.writeClaimed a = false ∨ ∀ c ∈ cells, c.1 ≠ a) : (s.otherWrites cells m).read a = m.read a := by
  induction cells generalizing m with
  | nil => rfl
  | cons c cells ih =>
    have h' : s.writeClaimed a = false ∨ ∀ c ∈ cells, c.1 ≠ a := h.imp_right fun h d hd => h d (.tail _ hd)
    unfold State.otherWrites
    split
    · rename_i hc
      rw [ih (Memory.write_wf hm _ _) h', Memory.read_write_ne hm]
      rintro rfl
      rcases h with h | h
      · rw [h] at hc
        cases hc
      · exact h c (.head _) rfl
    · exact ih hm h'

/-- A byte in a write claim holds the last byte written there. -/
theorem State.read_otherWrites_in {s : State} {before after : List Host.Cell} {m : Memory} (hm : m.wf) {a : Nat}
    {b : Byte} (hc : s.writeClaimed a = true) (h : ∀ c ∈ after, c.1 ≠ a) :
    (s.otherWrites (before ++ (a, b) :: after) m).read a = b := by
  induction before generalizing m with
  | nil =>
    simp only [List.nil_append, State.otherWrites, hc, if_true]
    rw [State.read_otherWrites_out (Memory.write_wf hm _ _) (.inr h), Memory.read_write_same hm]
  | cons c before ih =>
    simp only [List.cons_append, State.otherWrites]
    split
    · exact ih (Memory.write_wf hm _ _)
    · exact ih hm

/-- What an operation of the outside world leaves. -/
def HostLeaves (op : HostOp) (s t : State) : Prop :=
  match op with
  | .portRead _ _ | .memRead _ => ∃ r, t = s.reply r ∨ t = (s.reply r).tick
  | .portWrite off w v => portForm off w = true ∧ ((Reg.ofOffset off = none ∧ t = s) ∨
      ∃ r, Reg.ofOffset off = some r ∧ s.busy = false ∧ t = writeReg r v s)
  | .poll => ∃ r, (s.busy = false ∧ t = s.reply r) ∨
      (s.busy = true ∧ t = { (s.reply r).tick with bus := .poll :: s.bus })
  | .memWrite a b => a < 2 ^ s.cfg.addrW ∧ t = s.withMem (hostStored a b s)
  | .claims cs written => t = { s with others := cs, mem := s.otherWrites written s.mem }
  | .resetInput => (s.busy = false ∧ t = s.resetRegisters) ∨ (s.busy = true ∧ t = abandonCommand s)

theorem hostPortRead_eq_next {off : Byte} {w : Width} {s t : State} (h : hostPortRead off w s = .next t) :
    portForm off w = true ∧
      ∃ r, (s.busy = false ∧ t = s.reply r) ∨ (s.busy = true ∧ t = (s.reply r).tick) := by
  unfold hostPortRead at h
  split at h
  · cases h
  rename_i hf
  refine ⟨by simpa using hf, ?_⟩
  split at h
  · rename_i hb
    exact ⟨_, .inr ⟨hb, by simpa [eq_comm] using h⟩⟩
  · rename_i hb
    exact ⟨_, .inl ⟨by simpa using hb, by simpa [eq_comm] using h⟩⟩

theorem hostOp_eq_next {op : HostOp} {s t : State} (h : hostOp op s = .next t) : HostLeaves op s t := by
  cases op with
  | portRead off w =>
    obtain ⟨-, r, ⟨-, rfl⟩ | ⟨-, rfl⟩⟩ := hostPortRead_eq_next h
    · exact ⟨r, .inl rfl⟩
    · exact ⟨r, .inr rfl⟩
  | portWrite off w v =>
    change hostPortWrite off w v s = .next t at h
    unfold hostPortWrite at h
    split at h
    · cases h
    rename_i hf
    refine ⟨by simpa using hf, ?_⟩
    split at h <;> rename_i hr
    · exact .inl ⟨hr, (Host.Outcome.next.inj h).symm⟩
    · split at h
      · cases h
      · rename_i hb
        exact .inr ⟨_, hr, by simpa using hb, (Host.Outcome.next.inj h).symm⟩
  | poll =>
    obtain ⟨u, hu, h⟩ := andThen_eq_next.1 h
    obtain ⟨-, r, ⟨hb, rfl⟩ | ⟨hb, rfl⟩⟩ := hostPortRead_eq_next hu
    · exact ⟨r, .inl ⟨hb, by simpa [hb, eq_comm] using h⟩⟩
    · refine ⟨r, .inr ⟨hb, ?_⟩⟩
      simp only [hb, if_true, Host.Outcome.next.injEq] at h
      exact h.symm
  | memRead a =>
    change hostMemRead a s = .next t at h
    obtain ⟨-, -, -, -, h⟩ := hostAccess_eq_next.1 h
    exact ⟨_, .inr (by simpa [eq_comm] using h)⟩
  | memWrite a b =>
    change hostMemWrite a b s = .next t at h
    obtain ⟨ha, -, -, -, h⟩ := hostAccess_eq_next.1 h
    exact ⟨ha, by simpa [eq_comm] using h⟩
  | claims cs written =>
    change otherClaims cs written s = .next t at h
    unfold otherClaims at h
    split at h
    · cases h
    · exact (Host.Outcome.next.inj h).symm
  | resetInput =>
    have ht := Host.Outcome.next.inj h
    cases hb : s.busy <;> rw [hb] at ht
    · exact .inl ⟨hb, ht.symm⟩
    · exact .inr ⟨hb, ht.symm⟩

/-! ### The step -/

/-- The three ways the machine steps: the engine's step, a host operation, or a turn with nothing to do. -/
theorem step_eq_next {s t : State} (h : step s = .next t) :
    (s.mover = .engine ∧ s.busy = true ∧ engineStep { s with turns := s.turns.tail } = .next t) ∨
    (∃ op rest, s.mover = .host ∧ s.bus = op :: rest ∧
      hostOp op { s with bus := rest, turns := s.turns.tail } = .next t) ∨
    t = { s with turns := s.turns.tail } := by
  have host : ∀ {u : State}, s.mover = .host → u = { s with turns := s.turns.tail } → hostStep u = .next t →
      (∃ op rest, s.mover = .host ∧ s.bus = op :: rest ∧
        hostOp op { s with bus := rest, turns := s.turns.tail } = .next t) ∨
      t = { s with turns := s.turns.tail } := by
    rintro u hmv rfl hu
    unfold hostStep at hu
    split at hu
    · exact .inr (by simpa [eq_comm] using hu)
    · rename_i op rest hbus
      exact .inl ⟨op, rest, hmv, hbus, hu⟩
  unfold step runTurn at h
  unfold State.mover
  split at h
  · rename_i ht
    split at h
    · rename_i hb
      exact .inl ⟨by simp [ht, hb], hb, by rw [← h, ht]; congr 1; cases s; simp_all⟩
    · rename_i hb
      refine .inr (host (by simp [State.mover, ht, hb]) ?_ h)
      cases s; simp_all
  · rename_i rest ht
    unfold engineTurn at h
    split at h
    · rename_i hb
      exact .inl ⟨by simp [ht], hb, by rw [← h, ht]; rfl⟩
    · exact .inr (.inr (by rw [ht]; simpa [eq_comm] using h))
  · rename_i rest ht
    exact .inr (host (by simp [State.mover, ht]) (by rw [ht]; rfl) h)

end Sys2Proof.Machine
end

