-- ==== Sys2Proof/Laws/Agree.lean ====
section
/-! SUPPORT. Two states that differ in the data memory at most, and there only outside a set of addresses: what the
shared operations that read inside the set make of both differs in the same way (for claims about what a command can
learn from memory). The set may grow by what an operation writes, since it writes the same bytes in both. -/

namespace Sys2Proof.Machine

open Sys2Proof

/-- The states differ in memory at most; the memories read alike on P, and where they do not, they still hold what
the memories m and m', which they began with, held. -/
structure Agree (m m' : Memory) (P : Nat → Prop) (s s' : State) : Prop where
  eq : s' = s.withMem s'.mem
  wf : s.mem.wf
  wf' : s'.mem.wf
  read : ∀ a, P a → s'.mem.read a = s.mem.read a
  rest : ∀ a, s'.mem.read a = s.mem.read a ∨ (s.mem.read a = m.read a ∧ s'.mem.read a = m'.read a)

/-- Where the first answers a state, the second answers one that agrees. -/
def AgreeRes (m m' : Memory) (P : Nat → Prop) (x x' : Res State) : Prop :=
  ∀ t, x = .next t → ∃ t', x' = .next t' ∧ Agree m m' P t t'

/-- The same for an append. -/
def AgreeAppend (m m' : Memory) (P : Nat → Prop) (x x' : Res Appended) : Prop :=
  ∀ b o t, x = .next (b, o, t) → ∃ t', x' = .next (b, o, t') ∧ Agree m m' P t t'

variable {m m' : Memory} {P Q : Nat → Prop} {s s' : State}

theorem Agree.mono (h : Agree m m' P s s') (hq : ∀ a, Q a → P a) : Agree m m' Q s s' :=
  ⟨h.eq, h.wf, h.wf', fun a ha => h.read a (hq a ha), h.rest⟩

theorem AgreeRes.mono {x x' : Res State} (h : AgreeRes m m' P x x') (hq : ∀ a, Q a → P a) :
    AgreeRes m m' Q x x' := fun t ht => by
  obtain ⟨t', ht', ha⟩ := h t ht
  exact ⟨t', ht', ha.mono hq⟩

/-- An update that neither reads nor writes the memory keeps agreement. -/
theorem Agree.update (h : Agree m m' P s s') (f : State → State)
    (hf : ∀ (s : State) (m : Memory), f (s.withMem m) = (f s).withMem m) (hm : ∀ s : State, (f s).mem = s.mem) :
    Agree m m' P (f s) (f s') := by
  refine ⟨?_, by rw [hm]; exact h.wf, by rw [hm]; exact h.wf', by rw [hm, hm]; exact h.read,
    by rw [hm, hm]; exact h.rest⟩
  rw [hm]
  conv_lhs => rw [h.eq, hf]

/-- The same bytes written to both: they agree there too. -/
theorem Agree.grow (h : Agree m m' P s s') (a : Nat) (bs : List Byte) :
    Agree m m' (fun x => P x ∨ (a ≤ x ∧ x < a + bs.length)) (s.withMem (s.mem.writeList a bs))
      (s'.withMem (s'.mem.writeList a bs)) := by
  have inside : ∀ x, a ≤ x → x < a + bs.length → (s'.mem.writeList a bs).read x = (s.mem.writeList a bs).read x :=
    fun x h1 h2 => by
      obtain ⟨j, rfl⟩ := Nat.exists_eq_add_of_le h1
      rw [Memory.read_writeList_in h.wf' a bs (by omega), Memory.read_writeList_in h.wf a bs (by omega)]
  refine ⟨?_, Memory.writeList_wf h.wf _ _, Memory.writeList_wf h.wf' _ _, fun x hx => ?_, fun x => ?_⟩
  · conv_lhs => rw [h.eq]
    rfl
  · rcases hx with hx | ⟨h1, h2⟩
    · exact Memory.read_writeList_congr h.wf' h.wf a bs (h.read x hx)
    · exact inside x h1 h2
  · by_cases hx : a ≤ x ∧ x < a + bs.length
    · exact .inl (inside x hx.1 hx.2)
    · simp only [State.withMem_mem]
      rw [Memory.read_writeList_out h.wf' a bs (by omega), Memory.read_writeList_out h.wf a bs (by omega)]
      exact h.rest x

theorem Agree.withMem (h : Agree m m' P s s') (a : Nat) (bs : List Byte) :
    Agree m m' P (s.withMem (s.mem.writeList a bs)) (s'.withMem (s'.mem.writeList a bs)) :=
  (h.grow a bs).mono fun _ => .inl

theorem Agree.touches (h : Agree m m' P s s') (k : RegionKind) (sp : Span) : s'.touches k sp = s.touches k sp := by
  rw [h.eq]; rfl

theorem Agree.byteAt (h : Agree m m' P s s') {k a : Nat} (ha : P a) : s'.byteAt k a = s.byteAt k a := by
  have hd : s'.draws = s.draws := by rw [h.eq]; rfl
  unfold State.byteAt
  rw [h.touches, h.read a ha, hd]

theorem Agree.bytes (h : Agree m m' P s s') {k a n : Nat} (ha : ∀ j, j < n → P (a + j)) :
    s'.bytes k a n = s.bytes k a n := by
  induction n generalizing k a with
  | zero => rfl
  | succ n ih =>
    rw [State.bytes, State.bytes, h.byteAt (by simpa using ha 0 (by omega)), ih fun j hj => by
      rw [Nat.add_assoc, Nat.add_comm 1]; exact ha (j + 1) (by omega)]

theorem Agree.readByte (h : Agree m m' P s s') {k a : Nat} (ha : P a) :
    Machine.readByte k a s' = Machine.readByte k a s := by
  simp [Machine.readByte, h.touches, h.byteAt ha]

theorem Agree.readBytes (h : Agree m m' P s s') {k a n : Nat} (ha : ∀ j, j < n → P (a + j)) :
    Machine.readBytes k a n s' = Machine.readBytes k a n s := by
  simp [Machine.readBytes, h.touches, h.bytes ha]

theorem Agree.writeBytes (h : Agree m m' P s s') (a : Nat) (bs : List Byte) :
    AgreeRes m m' P (Machine.writeBytes a bs s) (Machine.writeBytes a bs s') := by
  intro t ht
  obtain ⟨hu, rfl⟩ := writeBytes_eq_next.1 ht
  exact ⟨_, writeBytes_eq_next.2 ⟨by rw [h.touches]; exact hu, rfl⟩, h.withMem _ _⟩

theorem Agree.raise (h : Agree m m' P s s') (r : Result) : AgreeRes m m' P (Machine.raise r s) (Machine.raise r s') := by
  intro t ht
  rw [raise_eq, Host.Outcome.next.injEq] at ht
  subst ht
  exact ⟨_, rfl, h.update (fun s => s.complete r) (fun _ _ => rfl) (fun _ => rfl)⟩

theorem Agree.append (h : Agree m m' P s s') {d cap off k : Nat} {source source' : Res (List Byte)}
    (hs : k ≠ 0 → source' = source) :
    AgreeAppend m m' P (boundedAppend d cap off k source s) (boundedAppend d cap off k source' s') := by
  intro b o t ht
  rcases boundedAppend_eq_next.1 ht with ⟨h0, he⟩ | ⟨h0, h1, he⟩ | ⟨h0, h1, bs, hb, hu, he⟩ <;> cases he
  · exact ⟨s', boundedAppend_eq_next.2 (.inl ⟨h0, rfl⟩), h⟩
  · exact ⟨s', boundedAppend_eq_next.2 (.inr (.inl ⟨h0, h1, rfl⟩)), h⟩
  · exact ⟨_, boundedAppend_eq_next.2 (.inr (.inr ⟨h0, h1, bs, by rw [hs h0, hb], by rw [h.touches]; exact hu,
      rfl⟩)), h.withMem _ _⟩

/-- A chain of agreeing parts agrees. -/
theorem AgreeRes.chain {x x' : Res State} {f f' : State → Res State} (hx : AgreeRes m m' P x x')
    (hf : ∀ t t', x = .next t → Agree m m' P t t' → AgreeRes m m' P (f t) (f' t')) :
    AgreeRes m m' P (andThen x f) (andThen x' f') := by
  intro t ht
  obtain ⟨a, ha, hb⟩ := andThen_eq_next.1 ht
  obtain ⟨a', ha', hs⟩ := hx a ha
  obtain ⟨t', ht', hs'⟩ := hf a a' ha hs t hb
  exact ⟨t', by rw [ha', andThen_next, ht'], hs'⟩

theorem AgreeAppend.chain {x x' : Res Appended} {f f' : Appended → Res State} (hx : AgreeAppend m m' P x x')
    (hf : ∀ b o t t', x = .next (b, o, t) → Agree m m' P t t' → AgreeRes m m' P (f (b, o, t)) (f' (b, o, t'))) :
    AgreeRes m m' P (andThen x f) (andThen x' f') := by
  intro t ht
  obtain ⟨⟨b, o, a⟩, ha, hb⟩ := andThen_eq_next.1 ht
  obtain ⟨a', ha', hs⟩ := hx b o a ha
  obtain ⟨t', ht', hs'⟩ := hf b o a a' ha hs t hb
  exact ⟨t', by rw [ha', andThen_next, ht'], hs'⟩

/-- A chain whose first part is a read that is the same in both. -/
theorem AgreeRes.read {α : Type} {x x' : Res α} {f f' : α → Res State} (hx : x' = x)
    (hf : ∀ b, AgreeRes m m' P (f b) (f' b)) : AgreeRes m m' P (andThen x f) (andThen x' f') := by
  subst hx
  intro t ht
  obtain ⟨a, ha, hb⟩ := andThen_eq_next.1 ht
  obtain ⟨t', ht', hs'⟩ := hf a t hb
  exact ⟨t', by rw [ha, andThen_next, ht'], hs'⟩

theorem AgreeRes.ite {c : Prop} [Decidable c] {x x' y y' : Res State} (hx : AgreeRes m m' P x x')
    (hy : AgreeRes m m' P y y') : AgreeRes m m' P (if c then x else y) (if c then x' else y') := by
  split
  · exact hx
  · exact hy

/-- Agreeing states have the same registers, parameters and surroundings. -/
theorem Agree.field {α : Type} (h : Agree m m' P s s') (f : State → α)
    (hf : ∀ (s : State) (m : Memory), f (s.withMem m) = f s) : f s' = f s := by
  rw [h.eq, hf]

theorem Agree.srcAddr (h : Agree m m' P s s') : s'.srcAddr = s.srcAddr := h.field State.srcAddr fun _ _ => rfl

theorem Agree.srcLen (h : Agree m m' P s s') : s'.srcLen = s.srcLen := h.field State.srcLen fun _ _ => rfl

theorem Agree.dstAddr (h : Agree m m' P s s') : s'.dstAddr = s.dstAddr := h.field State.dstAddr fun _ _ => rfl

theorem Agree.dstLen (h : Agree m m' P s s') : s'.dstLen = s.dstLen := h.field State.dstLen fun _ _ => rfl

theorem Agree.payAddr (h : Agree m m' P s s') : s'.payAddr = s.payAddr := h.field State.payAddr fun _ _ => rfl

theorem Agree.recLen (h : Agree m m' P s s') : s'.recLen = s.recLen := h.field State.recLen fun _ _ => rfl

theorem Agree.cfg (h : Agree m m' P s s') : s'.cfg = s.cfg := h.field State.cfg fun _ _ => rfl

theorem Agree.withWorkOff (h : Agree m m' P s s') (v : Half) : Agree m m' P (s.withWorkOff v) (s'.withWorkOff v) :=
  h.update (fun s => s.withWorkOff v) (fun _ _ => rfl) fun _ => rfl

theorem Agree.withWorkCrc (h : Agree m m' P s s') (v : Half) : Agree m m' P (s.withWorkCrc v) (s'.withWorkCrc v) :=
  h.update (fun s => s.withWorkCrc v) (fun _ _ => rfl) fun _ => rfl

theorem Agree.withDstLen (h : Agree m m' P s s') (v : Half) : Agree m m' P (s.withDstLen v) (s'.withDstLen v) :=
  h.update (fun s => s.withDstLen v) (fun _ _ => rfl) fun _ => rfl

theorem Agree.withRecord (h : Agree m m' P s s') (k l : Byte) : Agree m m' P (s.withRecord k l) (s'.withRecord k l) :=
  h.update (fun s => s.withRecord k l) (fun _ _ => rfl) fun _ => rfl

theorem Agree.withIds (h : Agree m m' P s s') (a b c : Byte) : Agree m m' P (s.withIds a b c) (s'.withIds a b c) :=
  h.update (fun s => s.withIds a b c) (fun _ _ => rfl) fun _ => rfl

/-! ### The codecs -/

theorem encodeTrailer_agrees (h : Agree m m' P s s') {d cap off : Nat} (hd : ∀ j, j < off → P (d + j)) :
    AgreeRes m m' P (encodeTrailer d cap off s) (encodeTrailer d cap off s') := by
  unfold encodeTrailer
  rw [h.recLen]
  refine .read (h.readBytes hd) fun frame => AgreeAppend.chain ((h.withWorkCrc _).append fun _ => rfl) ?_
  rintro (_ | _) o t t' - ht
  · exact ht.raise _
  · exact ((ht.withWorkOff _).withDstLen _).raise .ok

theorem encodePayload_agrees {p : Profile} (h : Agree m m' P s s')
    (hp : ∀ j, j < s.recLen.toNat → P (s.payAddr.toNat + j)) (hd : ∀ j, j < p.hdrLen → P (s.dstAddr.toNat + j)) :
    AgreeRes m m' P (encodePayload p s) (encodePayload p s') := by
  unfold encodePayload
  rw [h.dstAddr, h.dstLen, h.recLen, h.payAddr]
  intro t ht
  obtain ⟨r, hr, ht⟩ := andThen_eq_next.1 ht
  rcases boundedAppend_eq_next.1 hr with ⟨h0, rfl⟩ | ⟨h0, h1, rfl⟩ | ⟨h0, h1, bs, hb, hu, rfl⟩
  · rw [boundedAppend_eq_next.2 (.inl ⟨h0, rfl⟩), andThen_next]
    exact encodeTrailer_agrees (h.withWorkOff _) hd t ht
  · rw [boundedAppend_eq_next.2 (.inr (.inl ⟨h0, h1, rfl⟩)), andThen_next]
    exact h.raise _ t ht
  · have hlen : bs.length = s.recLen.toNat := by
      obtain ⟨-, rfl⟩ := readBytes_eq_next.1 hb
      simp
    rw [boundedAppend_eq_next.2 (.inr (.inr ⟨h0, h1, bs, by rw [h.readBytes hp, hb], by rw [h.touches]; exact hu,
      rfl⟩)), andThen_next]
    refine (encodeTrailer_agrees ((h.grow _ bs).withWorkOff _) fun j hj => ?_).mono (fun _ => .inl) t ht
    by_cases hj' : j < p.hdrLen
    · exact .inl (hd j hj')
    · exact .inr ⟨by omega, by omega⟩

/-- An encoder learns only its payload from memory: what it reads in its buffer it has written itself (R48, R61). -/
theorem encodeFrame_agrees {p : Profile} (h : Agree m m' P s s')
    (hp : ∀ j, j < s.recLen.toNat → P (s.payAddr.toNat + j)) :
    AgreeRes m m' P (encodeFrame p s) (encodeFrame p s') := by
  have hh : p.header s' = p.header s := h.field p.header fun _ _ => by cases p <;> rfl
  unfold encodeFrame
  rw [h.dstAddr, h.dstLen, hh]
  refine .ite (h.raise _) fun t ht => ?_
  obtain ⟨u, hu, ht⟩ := andThen_eq_next.1 ht
  obtain ⟨hw, rfl⟩ := writeBytes_eq_next.1 hu
  rw [writeBytes_eq_next.2 ⟨by rw [h.touches]; exact hw, rfl⟩, andThen_next]
  exact (encodePayload_agrees ((h.grow _ (p.header s)).withWorkOff _) (fun j hj => .inl (hp j hj)) fun j hj =>
    .inr ⟨by simp, by simpa using hj⟩).mono (fun _ => .inl) t ht

theorem decodeIds_agrees {p : Profile} {k : Nat} (h : Agree m m' P s s') (hp : p.minLen ≤ s.srcLen.toNat)
    (hs : ∀ j, j < s.srcLen.toNat → P (s.srcAddr.toNat + j)) : AgreeRes m m' P (decodeIds p k s) (decodeIds p k s') := by
  cases p with
  | serial => exact fun t ht => ⟨s', rfl, by cases ht; exact h⟩
  | radio =>
    have hp : 8 ≤ s.srcLen.toNat := hp
    unfold decodeIds
    rw [h.srcAddr]
    refine .read (h.readByte (hs 1 (by omega))) fun a => .read (h.readByte (hs 2 (by omega))) fun b =>
      .read (h.readByte (hs 3 (by omega))) fun c t ht => ?_
    cases ht
    exact ⟨_, rfl, h.withIds a b c⟩

theorem decodeAccept_agrees {p : Profile} {k : Nat} {kind len : Byte} (h : Agree m m' P s s')
    (hL : p.minLen ≤ s.srcLen.toNat) (hlen : len.toNat = s.srcLen.toNat - p.minLen)
    (hs : ∀ j, j < s.srcLen.toNat → P (s.srcAddr.toNat + j)) :
    AgreeRes m m' P (decodeAccept p k kind len s) (decodeAccept p k kind len s') := by
  have hmin := p.minLen_eq
  unfold decodeAccept
  rw [h.srcAddr, h.payAddr]
  refine .read (h.readBytes fun j hj => ?_) fun payload => .chain (h.writeBytes _ _) fun t t' ht ha => ?_
  · rw [Nat.add_assoc]
    exact hs _ (by omega)
  · obtain ⟨-, rfl⟩ := writeBytes_eq_next.1 ht
    exact .chain (decodeIds_agrees (ha.withWorkOff _) hL hs) fun u u' _ hu => (hu.withRecord kind len).raise .ok

/-- A decoder reads only the received frame (R48). -/
theorem decodeFrame_agrees {p : Profile} (h : Agree m m' P s s')
    (hs : ∀ j, j < s.srcLen.toNat → P (s.srcAddr.toNat + j)) : AgreeRes m m' P (decodeFrame p s) (decodeFrame p s') := by
  have hmin := p.minLen_eq
  have hpos := p.hdrLen_pos
  have hk := p.kindAt_lt
  have hll := p.lenAt_lt
  have hs' : ∀ j, 0 < j → j ≤ s.srcLen.toNat → P (s.srcAddr.toNat + s.srcLen.toNat - j) := by
    intro j h0 hj
    rw [Nat.add_sub_assoc hj]
    exact hs _ (by omega)
  unfold decodeFrame
  rw [h.srcAddr, h.srcLen, h.cfg]
  split
  · exact h.raise _
  rename_i hL
  refine .read (h.readByte (hs 0 (by omega))) fun magic => .ite (h.raise _) ?_
  unfold decodeChecksum
  rw [h.srcAddr, h.srcLen]
  refine .read (h.readByte (hs' 2 (by omega) (by omega))) fun low =>
    .read (h.readByte (hs' 1 (by omega) (by omega))) fun high =>
    .read (h.readBytes fun j hj => hs j (by omega)) fun body => ?_
  have h := h.withWorkCrc (checksum body)
  refine .ite (h.raise _) ?_
  unfold decodeKind
  rw [h.srcAddr, h.cfg]
  refine .read (h.readByte (hs _ (by omega))) fun kind => .ite (h.raise _) ?_
  unfold decodeLength
  rw [h.srcAddr, h.srcLen]
  refine .read (h.readByte (hs _ (by omega))) fun len => ?_
  split
  · exact h.raise _
  · rename_i hlen
    exact decodeAccept_agrees h (Nat.not_lt.1 hL) (Decidable.not_not.1 hlen) hs

end Sys2Proof.Machine
end

