-- ==== Sys2Proof/Laws/PerInstr.lean ====
section
/-! SUPPORT. Statements made for each command: its word has zero reserved fields and passes the four checks of R73. -/

namespace Sys2Proof.Laws

open Sys2Proof

/-- RSV0 and RSV1 of the command's word are zero (R70), and the word is well formed (R73). -/
def EncodedReserved.Statement (i : Instr) : Prop :=
  (encode i).extractLsb' 4 4 = 0#4 ∧ (encode i).extractLsb' 16 16 = 0#16 ∧ wordWellFormed (encode i) = true

theorem EncodedReserved.crcInit : EncodedReserved.Statement .crcInit := by unfold Statement; decide

theorem EncodedReserved.crcByte (imm8 : Byte) : EncodedReserved.Statement (.crcByte imm8) := by
  revert imm8; unfold Statement; decide +kernel

theorem EncodedReserved.crcSpan : EncodedReserved.Statement .crcSpan := by unfold Statement; decide

theorem EncodedReserved.append : EncodedReserved.Statement .append := by unfold Statement; decide

theorem EncodedReserved.serEnc : EncodedReserved.Statement .serEnc := by unfold Statement; decide

theorem EncodedReserved.serDec : EncodedReserved.Statement .serDec := by unfold Statement; decide

theorem EncodedReserved.radEnc : EncodedReserved.Statement .radEnc := by unfold Statement; decide

theorem EncodedReserved.radDec : EncodedReserved.Statement .radDec := by unfold Statement; decide

theorem EncodedReserved.kindCheck : EncodedReserved.Statement .kindCheck := by unfold Statement; decide

end Sys2Proof.Laws
end

