-- ==== Sys2Proof/Tests/Slice0.lean ====
section
/-! SUPPORT. The model's own tests. Expected values come from spec/ (95_test_vectors.md, named by their V- ids, and
the rules cited), never from the model. The last part shows, for each statement with hypotheses, states that meet
them. -/

namespace Sys2Proof.Tests

open Sys2Proof Sys2Proof.Machine

/-! ### Helpers -/

/-- A value of the next state, if there is one. -/
def look {α : Type} (f : State → α) (r : Res State) : Option α :=
  match r with
  | .next s => some (f s)
  | .fault _ => none
  | .refused _ => none

/-- The refusal of a step, if it is one. -/
def refusal {α : Type} (r : Res α) : Option Refusal :=
  match r with
  | .next _ => none
  | .fault _ => none
  | .refused x => some x

/-- A value seen in the next state: there is one. -/
theorem next_of_look {α : Type} {f : State → α} {r : Res State} {v : α} (h : look f r = some v) :
    ∃ t, r = .next t ∧ f t = v := by
  cases r <;> simp [look] at h
  exact ⟨_, rfl, h⟩

/-- A step in whose outcome no next state can be seen has none. -/
theorem no_next_of_look {α : Type} {f : State → α} {r : Res State} (h : look f r = none) (t : State) :
    r ≠ .next t := by
  rintro rfl
  simp [look] at h

/-- The host may access an address in no claim and in no span of the running command. -/
theorem hostMayAccess_of {s : State} {a : Nat} {i : Instr} (hc : ∀ c ∈ s.others, c.span.contains a = false)
    (hd : decode s.pending = .ok i) (h : ∀ sp ∈ readSpans i s ++ writeSpans i s, sp.contains a = false) :
    s.hostMayAccess a := by
  refine ⟨hc, fun _ j hj => ?_⟩
  rw [hd] at hj
  cases hj
  exact h

/-- Memory with these bytes from an address up. -/
def bytesAt (a : Nat) (bs : List Byte) : Memory := Memory.writeList [] a bs

/-- Reset state with a span to read. -/
def withSource (a : Word) (n : Half) (bs : List Byte) : State :=
  { State.reset with srcAddr := a, srcLen := n, mem := bytesAt a.toNat bs }

/-- Reset state before a decode: the frame at 0x200, the payload area at 0x300. -/
def withFrame (bs : List Byte) : State :=
  { withSource 0x200#32 (BitVec.ofNat 16 bs.length) bs with payAddr := 0x300#32 }

/-- Reset state before a serial encode of kind 2 and payload 01 02 03 (V-SE2 to V-SE9). -/
def serialRecord (cap : Half) : State :=
  { State.reset with recKind := 0x02#8, recLen := 0x03#8, payAddr := 0x300#32, dstAddr := 0x200#32, dstLen := cap,
                     mem := bytesAt 0x300 [0x01#8, 0x02#8, 0x03#8] }

/-- Reset state before a radio encode of the record of V-RE1 to V-RE6. -/
def radioRecord (cap : Half) : State :=
  { State.reset with recSeq := 0x01#8, recSrcId := 0x02#8, recDstId := 0x03#8, recKind := 0x04#8, recLen := 0x01#8,
                     payAddr := 0x300#32, dstAddr := 0x200#32, dstLen := cap, mem := bytesAt 0x300 [0xAA#8] }

/-- The frame of V-SE2. -/
def serialFrame : List Byte := [0x7E#8, 0x02#8, 0x03#8, 0x01#8, 0x02#8, 0x03#8, 0x61#8, 0x9C#8]

/-- The frame of V-RE1. -/
def radioFrame : List Byte := [0xA5#8, 0x01#8, 0x02#8, 0x03#8, 0x04#8, 0x01#8, 0xAA#8, 0x35#8, 0x21#8]

/-- A busy state about to run the word. -/
def running (s : State) (w : Word) : State := s.startCommand w

/-- A source of `n` bytes at 0x100 and a buffer of capacity `cap` at 0x200, filled up to `off` (V-AP1 to V-AP7). -/
def withBuffer (n cap off : Half) (bs : List Byte) : State :=
  { withSource 0x100#32 n bs with dstAddr := 0x200#32, dstLen := cap, dstOff := off }

/-! ### Well-formedness (R73): one ill-formed word for each check, and the boundary that passes -/

theorem test_wellFormed_reserved_op : wordWellFormed 0x0000000A#32 = false ∧ wordWellFormed 0x00000000#32 = false ∧
    wordWellFormed 0x00000009#32 = true := by decide

theorem test_wellFormed_rsv0 : wordWellFormed 0x00000011#32 = false ∧ wordWellFormed 0x00000081#32 = false := by
  decide

theorem test_wellFormed_rsv1 : wordWellFormed 0x00010001#32 = false ∧ wordWellFormed 0x80000002#32 = false := by
  decide

theorem test_wellFormed_imm8 : wordWellFormed 0x00000103#32 = false ∧ wordWellFormed 0x0000FF09#32 = false ∧
    wordWellFormed 0x0000FF02#32 = true := by decide

/-! ### Decoding: words written out bit by bit from R70 and R72 -/

theorem test_decode_crcInit : decode 0b00000000000000000000000000000001#32 = .ok .crcInit := by decide
theorem test_decode_crcByte : decode 0b00000000000000000011000100000010#32 = .ok (.crcByte 0x31#8) := by decide
theorem test_decode_crcSpan : decode 0b00000000000000000000000000000011#32 = .ok .crcSpan := by decide
theorem test_decode_append : decode 0b00000000000000000000000000000100#32 = .ok .append := by decide
theorem test_decode_serEnc : decode 0b00000000000000000000000000000101#32 = .ok .serEnc := by decide
theorem test_decode_serDec : decode 0b00000000000000000000000000000110#32 = .ok .serDec := by decide
theorem test_decode_radEnc : decode 0b00000000000000000000000000000111#32 = .ok .radEnc := by decide
theorem test_decode_radDec : decode 0b00000000000000000000000000001000#32 = .ok .radDec := by decide
theorem test_decode_kindCheck : decode 0b00000000000000000000000000001001#32 = .ok .kindCheck := by decide

theorem test_decode_illegal : decode 0x00000000#32 = .error .reservedOp ∧ decode 0x00000112#32 = .error .rsv0 ∧
    decode 0x80000002#32 = .error .rsv1 ∧ decode 0x00000101#32 = .error .imm8 := by decide

theorem test_table_word_runs_after_reset :
    decodeTableWord 32 0x00003102 = some (.crcByte 0x31#8) ∧
    look State.statusWord (step (State.reset.withFetchWord 32 0x00000001)) = some 0x00000010#32 := by decide +kernel

/-! ### Commands: at most two vectors each -/

/-- V-CK1. -/
theorem test_crcInit_discards : look (fun t => (t.crcAcc, t.statusWord))
    (step ({ State.reset with crcAcc := 0x1234#16 }.withFetchWord 32 0x00000001)) =
      some (0xFFFF#16, 0x00000010#32) := by decide +kernel

/-- V-CK7: an IMM8 makes the word illegal, CRC_ACC stays. -/
theorem test_crcInit_with_imm8 : look (fun t => (t.crcAcc, t.statusWord))
    (step ({ State.reset with crcAcc := 0x1234#16 }.withFetchWord 32 0x00000101)) =
      some (0x1234#16, 0x00000017#32) := by decide +kernel

/-- V-CB5, through V-CK8's host write of a wider word. -/
theorem test_crcByte_after_write : look (fun t => (t.crcAcc, t.statusWord))
    (step ((writeReg .crcAcc 0xDEAD1234#32 State.reset).withFetchWord 32 0x00005602)) =
      some (0x4006#16, 0x00000020#32) := by decide +kernel

/-- V-CB8. -/
theorem test_crcByte_high_byte : look State.crcAcc
    (exec (.crcByte 0xCD#8) { State.reset with crcAcc := 0xABCD#16 }) = some 0x00AB#16 := by decide +kernel

/-- V-CS5, the check value (R97). -/
theorem test_crcSpan_check : look (fun t => (t.crcAcc, t.statusWord))
    (step ((withSource 0x1000#32 9#16
      [0x31#8, 0x32#8, 0x33#8, 0x34#8, 0x35#8, 0x36#8, 0x37#8, 0x38#8, 0x39#8]).withFetchWord 32 3)) =
      some (0x6F91#16, 0x00000030#32) := by decide +kernel

/-- V-CK4: one byte past the top of the address space. -/
theorem test_crcSpan_past_top : look (fun t => (t.crcAcc, t.statusWord))
    (step ({ withSource 0xFFFFFFFF#32 2#16 [] with crcAcc := 0x1234#16 }.withFetchWord 32 3)) =
      some (0x1234#16, 0x00000038#32) := by decide +kernel

/-- V-AP1. -/
theorem test_append_fills : look (fun t => (t.mem.readList 0x200 4, t.dstOff, t.statusWord))
    (step ((withBuffer 2#16 4#16 2#16 [0xAA#8, 0xBB#8]).withFetchWord 32 4)) =
      some ([0x00#8, 0x00#8, 0xAA#8, 0xBB#8], 4#16, 0x00000040#32) := by decide +kernel

/-- V-AP5: the sum 65535 + 1 does not wrap. -/
theorem test_append_does_not_wrap : look (fun t => (t.dstOff, t.statusWord))
    (step ({ withBuffer 1#16 65535#16 65535#16 [0x11#8] with dstAddr := 0x10000#32 }.withFetchWord 32 4)) =
      some (65535#16, 0x00000041#32) := by decide +kernel

/-- V-SE2. -/
theorem test_serEnc_frame : look (fun t => (t.mem.readList 0x200 8, t.dstLen, t.statusWord))
    (step ((serialRecord 16#16).withFetchWord 32 5)) = some (serialFrame, 8#16, 0x00000050#32) := by decide +kernel

/-- V-SE8: header and payload stay written, DST_LEN stays 7. -/
theorem test_serEnc_partial : look (fun t => (t.mem.readList 0x200 8, t.dstLen, t.statusWord))
    (step ((serialRecord 7#16).withFetchWord 32 5)) =
      some ([0x7E#8, 0x02#8, 0x03#8, 0x01#8, 0x02#8, 0x03#8, 0x00#8, 0x00#8], 7#16, 0x00000051#32) := by
  decide +kernel

/-- V-SD2. -/
theorem test_serDec_frame : look (fun t => (t.recKind, t.recLen, t.mem.readList 0x300 4, t.statusWord))
    (step ((withFrame serialFrame).withFetchWord 32 6)) =
      some (0x02#8, 0x03#8, [0x01#8, 0x02#8, 0x03#8, 0x00#8], 0x00000060#32) := by decide +kernel

/-- V-SD10: the kind stage comes before the length stage. -/
theorem test_serDec_kind_before_length : look State.statusWord
    (step ((withFrame [0x7E#8, 0x0A#8, 0x02#8, 0xAA#8, 0xBC#8, 0xBD#8]).withFetchWord 32 6)) =
      some 0x00000065#32 := by decide +kernel

/-- V-RE1. -/
theorem test_radEnc_frame : look (fun t => (t.mem.readList 0x200 9, t.dstLen, t.statusWord))
    (step ((radioRecord 16#16).withFetchWord 32 7)) = some (radioFrame, 9#16, 0x00000070#32) := by decide +kernel

/-- V-RE3: the header fits, nothing more is written. -/
theorem test_radEnc_header_only : look (fun t => (t.mem.readList 0x200 7, t.dstLen, t.statusWord))
    (step ((radioRecord 6#16).withFetchWord 32 7)) =
      some ([0xA5#8, 0x01#8, 0x02#8, 0x03#8, 0x04#8, 0x01#8, 0x00#8], 6#16, 0x00000071#32) := by decide +kernel

/-- V-RD1. -/
theorem test_radDec_frame : look (fun t => (t.recSeq, t.recSrcId, t.recDstId, t.recKind, t.recLen))
    (step ((withFrame radioFrame).withFetchWord 32 8)) = some (0x01#8, 0x02#8, 0x03#8, 0x04#8, 0x01#8) := by
  decide +kernel

/-- V-RD7. -/
theorem test_radDec_length : look State.statusWord
    (step ((withFrame
      [0xA5#8, 0x01#8, 0x02#8, 0x03#8, 0x04#8, 0x00#8, 0xAA#8, 0xED#8, 0x38#8]).withFetchWord 32 8)) =
      some 0x00000086#32 := by decide +kernel

/-- V-KC4. -/
theorem test_kindCheck_last : look State.statusWord
    (step ({ State.reset with recKind := 0x09#8 }.withFetchWord 32 9)) = some 0x00000090#32 := by decide +kernel

/-- V-KC5. -/
theorem test_kindCheck_sentinel : look State.statusWord
    (step ({ State.reset with recKind := 0x0A#8 }.withFetchWord 32 9)) = some 0x00000095#32 := by decide +kernel

/-! ### The register port and the hazards -/

/-- V-RG1, V-RG3 and V-RG11: what the host reads. -/
theorem test_port_reads : portValue 0x08#8 State.reset = 0x01A57E0A#32 ∧
    portValue 0x0C#8 State.reset = 0x0000FFFF#32 ∧ portValue 0x3C#8 State.reset = 0x00000000#32 := by decide

/-- V-RG14: with ADDR_W = 16. -/
theorem test_port_narrow_address :
    readReg .payAddr (writeReg .payAddr 0x00012345#32
      { State.reset with cfg := { Config.testInstance with addrW := 16 } }) = 0x00002345#32 := by decide +kernel

/-- V-HZ1. -/
theorem test_hazard_write_while_busy :
    refusal (hostOp (.portWrite 0x14#8 .word 9#32) (State.reset.startCommand 1#32)) =
      some .registerWriteWhileBusy := by
  decide +kernel

/-- R27 (c), U11: a write to a reserved offset is ignored while BUSY = 1 too. -/
theorem test_reserved_write_while_busy : look (fun t => (t.pending, t.busy))
    (hostOp (.portWrite 0x3C#8 .word 9#32) (State.reset.startCommand 1#32)) = some (1#32, true) := by decide +kernel

/-- R64: the host reads and writes a device while a command runs elsewhere; data memory stays. -/
theorem test_host_device_while_busy :
    let s := { (serialRecord 16#16).startCommand 5#32 with regions := [⟨⟨0x500, 4⟩, .device⟩] }
    look (fun t => (t.replies.length, t.busy)) (hostOp (.memRead 0x500) s) = some (1, true) ∧
      look State.mem (hostOp (.memWrite 0x503 0x11#8) s) = some s.mem := by decide +kernel

/-- R154: a reset abandons a CRC_SPAN that would be stuck; it has no write span. -/
theorem test_reset_of_stuck_command :
    let s := { (withSource 0x1000#32 1#16 [0x41#8]).startCommand 3#32 with regions := [⟨⟨0x1000, 1⟩, .unmapped⟩] }
    look (fun t => (t.busy, t.srcLen, t.mem)) (hostOp .resetInput s) = some (false, 0#16, s.mem) := by decide +kernel

/-- R154: what a stuck command would have written is what its rule gives, as far as the accesses that are not
completed let it. APPEND with a target byte that is not completed: the source bytes (R103). SER_ENC with capacity 7 and
a payload byte of its buffer that is not completed: header and payload (V-SE8), and past them nothing. -/
theorem test_reset_keeps_what_the_rules_give :
    let s := { running (withBuffer 2#16 4#16 2#16 [0xAA#8, 0xBB#8]) 4#32 with regions := [⟨⟨0x203, 1⟩, .unmapped⟩] }
    let u := { running (serialRecord 7#16) 5#32 with regions := [⟨⟨0x205, 1⟩, .unmapped⟩] }
    [0x202, 0x203].map (abandonedBytes s) = [0xAA#8, 0xBB#8] ∧
    [0x200, 0x201, 0x202, 0x203, 0x204, 0x205, 0x206, 0x207].map (abandonedBytes u) =
      [0x7E#8, 0x02#8, 0x03#8, 0x01#8, 0x02#8, 0x03#8, 0x00#8, 0x00#8] := by decide +kernel

/-- A refused SER_ENC (payload and buffer overlap): no byte past its capacity. -/
theorem test_reset_of_refused_command :
    let u := { running (serialRecord 4#16) 5#32 with payAddr := 0x200#32 }
    refusal (engineStep u) = some .overlap ∧ (canWrite u 0x202, canWrite u 0x203) = (true, false) ∧
      abandonedBytes u 0x203 = 0x00#8 := by decide +kernel

/-- R148: what another instance's command wrote is in the shared memory for this instance's next command; a byte
outside its write spans is not. -/
theorem test_other_instance_writes : look (fun t => (t.mem.readList 0x200 2, t.others))
    (hostOp (.claims [] [(0x200, 0x11#8), (0x200, 0x22#8), (0x201, 0x33#8)])
      { State.reset with others := [⟨0, ⟨0x200, 1⟩, true⟩, ⟨0, ⟨0x201, 4⟩, false⟩] }) =
      some ([0x22#8, 0x00#8], []) := by decide +kernel

/-- U9: spans of two other instances overlap; of one and the same instance they may. -/
theorem test_other_instances_overlap :
    refusal (hostOp (.claims [⟨0, ⟨0x200, 4⟩, true⟩, ⟨1, ⟨0x203, 1⟩, false⟩] []) State.reset) = some .otherInstance ∧
    refusal (hostOp (.claims [⟨0, ⟨0x200, 4⟩, true⟩, ⟨0, ⟨0x203, 1⟩, false⟩] []) State.reset) = none ∧
    refusal (hostOp (.claims [⟨0, ⟨0x200, 4⟩, false⟩, ⟨1, ⟨0x203, 1⟩, false⟩] []) State.reset) = none := by
  decide +kernel

/-- V-HZ2. -/
theorem test_hazard_status_while_busy : look State.replies
    (hostOp (.portRead 0x04#8 .word) (State.reset.startCommand 1#32)) = some [.port 0x00000110#32] := by decide +kernel

/-- V-HZ4: the host writes 0x204 in the buffer of a running SER_ENC. -/
theorem test_hazard_memory_while_busy :
    refusal (hostOp (.memWrite 0x204 0x00#8) ((serialRecord 16#16).startCommand 5#32)) =
      some .accessToRunningSpan := by
  decide +kernel

/-- V-AP8. -/
theorem test_overlap_refused :
    refusal (exec .append { withSource 0x200#32 4#16 [0x01#8] with dstAddr := 0x202#32, dstLen := 8#16 }) =
      some .overlap := by decide +kernel

/-- The host's `cmd` and `wait` (R85), four steps from reset: the write, the engine, the poll, nothing. -/
theorem test_host_program : look State.replies
    (runSteps 4 { State.reset with bus := assemble [.cmd (.crcByte 0x31#8), .wait] }) =
      some [.port 0x00000020#32] := by decide +kernel

/-- The memory after reset is canonical. -/
theorem test_reset_memory_wf : State.reset.mem.wf := by decide

/-- Writing the unlisted value removes the entry. -/
theorem test_memory_canonical : (Memory.write (Memory.write [] 5 0x01#8) 5 0x00#8) = [] := by decide

/-! ### Witnesses: states that meet the hypotheses of the statements

Each name is `test_meets_` and the statement's name. -/

/-- A state before a ready command of each kind. -/
def readyFor (i : Instr) : State :=
  match i with
  | .crcInit | .crcByte _ | .kindCheck => State.reset
  | .crcSpan => withSource 0x1000#32 1#16 [0x41#8]
  | .append => withBuffer 2#16 4#16 2#16 [0xAA#8, 0xBB#8]
  | .serEnc => serialRecord 16#16
  | .serDec => withFrame serialFrame
  | .radEnc => radioRecord 16#16
  | .radDec => withFrame radioFrame

theorem test_meets_IllegalWordsEndWithIllegalCommand :
    decode (running State.reset 0x00000101#32).pending = .error .imm8 := by decide

theorem test_meets_EngineStepRunsThePendingCommand :
    let s := running State.reset 0x00000001#32
    let u := { running State.reset 0x00003102#32 with turns := [.engine, .host] }
    (s.mover = .engine ∧ s.busy = true ∧ decode s.pending = .ok .crcInit) ∧
      (u.mover = .engine ∧ u.busy = true ∧ decode u.pending = .ok (.crcByte 0x31#8)) := by decide

theorem test_meets_HostStepRunsItsOldestOperation :
    let s := { State.reset with bus := [.poll, .resetInput] }
    let u := { running s 0x00000001#32 with turns := [.host] }
    (s.mover = .host ∧ s.bus = [.poll, .resetInput]) ∧ (u.mover = .host ∧ u.bus = [.poll, .resetInput]) := by decide

theorem test_meets_CmdWriteStartsACommand :
    State.reset.busy = false ∧ (running State.reset 0#32).busy = true ∧ (running State.reset 0#32).turns = [] := by
  decide

theorem test_meets_CmdStatementRunsItsCommand :
    let s := { State.reset with bus := assemble [.cmd .crcSpan, .wait] }
    s.busy = false ∧ s.turns = [] ∧ s.bus = assemble [.cmd .crcSpan] ++ [.poll] := by decide

theorem test_meets_WaitEndsAfterTheCommand :
    let s := { running (readyFor .serEnc) 0x00000005#32 with bus := [.poll], turns := [.host, .host] }
    s.busy = true ∧ s.bus = [.poll] ∧ s.turns = List.replicate 2 .host ∧ decode s.pending = .ok .serEnc ∧
      s.ready .serEnc = true := by decide +kernel

theorem test_meets_ReadyCommandsComplete :
    (readyFor .crcInit).ready .crcInit = true ∧ (readyFor (.crcByte 1#8)).ready (.crcByte 1#8) = true ∧
    (readyFor .crcSpan).ready .crcSpan = true ∧ (readyFor .append).ready .append = true ∧
    (readyFor .serEnc).ready .serEnc = true ∧ (readyFor .serDec).ready .serDec = true ∧
    (readyFor .radEnc).ready .radEnc = true ∧ (readyFor .radDec).ready .radDec = true ∧
    (readyFor .kindCheck).ready .kindCheck = true := by decide +kernel

theorem test_meets_IdleReadsReturnTheRegisters : State.reset.busy = false ∧
    ((0x3C#8 : Byte).toNat % 4 = 0 ∧ 0x3C ≤ (0x3C#8 : Byte).toNat) ∧
    ((0xFC#8 : Byte).toNat % 4 = 0 ∧ 0x3C ≤ (0xFC#8 : Byte).toNat) := by decide

theorem test_meets_IdleWritesKeepTheImplementedBits : (readyFor .serEnc).busy = false ∧
    ((0x3C#8 : Byte).toNat % 4 = 0 ∧ 0x3C ≤ (0x3C#8 : Byte).toNat) ∧
    ((0xFC#8 : Byte).toNat % 4 = 0 ∧ 0x3C ≤ (0xFC#8 : Byte).toNat) := by decide

theorem test_meets_WriteThenReadReturnsTheImplementedBits :
    State.reset.busy = false ∧ Reg.payAddr ≠ .cmd ∧ Reg.status ≠ .cmd := by decide

theorem test_meets_NonWordPortAccessesAreRefused :
    (Width.byte ≠ .word ∨ (0x00#8 : Byte).toNat % 4 ≠ 0) ∧ (Width.word ≠ .word ∨ (0x03#8 : Byte).toNat % 4 ≠ 0) := by
  decide

theorem test_meets_RegisterWritesWhileBusyAreRefused : (running State.reset 1#32).busy = true := by decide

theorem test_meets_BusyReadsReturnStatusConfigOrADraw :
    (running State.reset 1#32).busy = true ∧ (Reg.cmd ≠ .status ∧ Reg.cmd ≠ .config) ∧
    ((0x3C#8 : Byte).toNat % 4 = 0 ∧ 0x3C ≤ (0x3C#8 : Byte).toNat) := by decide

/-- The first and the last byte of the written span, and a byte of the payload that is read. -/
theorem test_meets_HostAccessToRunningSpansIsRefused :
    let s := running (serialRecord 16#16) 0x00000005#32
    s.busy = true ∧ decode s.pending = .ok .serEnc ∧
      (⟨0x200, 8⟩ ∈ readSpans .serEnc s ++ writeSpans .serEnc s ∧ 0x200 ≤ 0x207 ∧ 0x207 < 0x200 + 8) ∧
      (⟨0x300, 3⟩ ∈ readSpans .serEnc s ++ writeSpans .serEnc s ∧ 0x300 ≤ 0x300) ∧ 0x300 < 2 ^ s.cfg.addrW := by
  decide +kernel

/-- One past the written span, busy. -/
theorem test_meets_HostAccessElsewhereProceeds :
    let s := running (serialRecord 16#16) 0x00000005#32
    s.mem.wf ∧ 0x208 < 2 ^ s.cfg.addrW ∧ s.ordinary ⟨0x208, 1⟩ = true ∧ s.busy = true ∧ s.hostMayAccess 0x208 :=
  ⟨by decide +kernel, by decide, by decide, by decide,
    hostMayAccess_of (i := .serEnc) (by decide) (by decide) (by decide +kernel)⟩

/-- The first address that does not exist; a claimed byte at the top; regions of each kind one past the written span of
a running SER_ENC. -/
theorem test_meets_HostAccessOutsideOrdinaryMemory :
    let s := running (serialRecord 16#16) 0x00000005#32
    let on := fun (k : RegionKind) => { s with regions := [⟨⟨0x208, 1⟩, k⟩] }
    2 ^ s.cfg.addrW ≤ 0x100000000 ∧
    (0xFFFFFFFF < 2 ^ s.cfg.addrW ∧ ∃ c ∈ ({ s with others := [⟨0, ⟨0xFFFFFFFF, 1⟩, false⟩] } : State).others,
      c.span.contains 0xFFFFFFFF = true) ∧
    ((on .unmapped).hostMayAccess 0x208 ∧ (on .unmapped).touches .unmapped ⟨0x208, 1⟩ = true) ∧
    ((on .device).hostMayAccess 0x208 ∧ (on .device).touches .unmapped ⟨0x208, 1⟩ = false ∧
      (on .device).touches .device ⟨0x208, 1⟩ = true) ∧
    ((on .shared).hostMayAccess 0x208 ∧ (on .shared).touches .unmapped ⟨0x208, 1⟩ = false ∧
      (on .shared).touches .device ⟨0x208, 1⟩ = false ∧ (on .shared).touches .shared ⟨0x208, 1⟩ = true) := by
  refine ⟨by decide, by decide, ⟨?_, by decide⟩, ⟨?_, by decide⟩, ⟨?_, by decide⟩⟩ <;>
  exact hostMayAccess_of (i := .serEnc) (by decide) (by decide) (by decide +kernel)

theorem test_meets_ResetInputGivesTheResetValues : (serialRecord 16#16).busy = false := by decide

/-- A step that shows this fault is that fault. -/
theorem fault_of_look {f : Fault} {r : Res State}
    (h : (match r with | .next _ => none | .fault f => some f | .refused _ => none) = some f) : r = .fault f := by
  cases r <;> simp_all

/-- A step that shows this refusal is that refusal. -/
theorem refused_of_refusal {x : Refusal} {r : Res State} (h : refusal r = some x) : r = .refused x := by
  cases r <;> simp_all [refusal]

/-- V-HZ5: SER_ENC is running. The same stuck on a buffer byte that is not completed, and refused for an overlap. -/
theorem test_meets_ResetWhileBusyMixesTheWriteSpan :
    let s := running (serialRecord 16#16) 0x00000005#32
    let u := { s with regions := [⟨⟨0x200, 1⟩, .unmapped⟩] }
    let v := { s with payAddr := 0x20F#32 }
    (s.mem.wf ∧ s.busy = true ∧ (∃ v, engineStep s = .next v ∧ v.result = .ok) ∧
      ⟨0x200, 8⟩ ∈ runningWrites s ∧ ∀ sp ∈ runningWrites s, sp.contains 0x208 = false) ∧
    (u.mem.wf ∧ u.busy = true ∧ engineStep u = .fault .accessNotCompleted ∧ ⟨0x200, 8⟩ ∈ runningWrites u) ∧
    (v.mem.wf ∧ v.busy = true ∧ engineStep v = .refused .overlap ∧ ⟨0x200, 8⟩ ∈ runningWrites v ∧
      canWrite v 0x207 = true) :=
  ⟨⟨by decide +kernel, by decide, next_of_look (f := State.result) (by decide +kernel), by decide +kernel,
    by decide +kernel⟩, ⟨by decide +kernel, by decide, fault_of_look (by decide +kernel), by decide +kernel⟩,
    by decide +kernel, by decide, refused_of_refusal (by decide +kernel), by decide +kernel, by decide +kernel⟩

/-- Each span one past the top of the address space. -/
theorem test_meets_SpansOutOfRangeEndWithAddressRange :
    2 ^ Config.testInstance.addrW < (0xFFFFFFFF#32 : Word).toNat + (2#16 : Half).toNat ∧
    2 ^ Config.testInstance.addrW < (0xFFFFFFFF#32 : Word).toNat + (2#8 : Byte).toNat ∧
    2 ^ Config.testInstance.addrW < (0xFFFFFF02#32 : Word).toNat + 255 ∧
    ¬ 2 ^ Config.testInstance.addrW < (0xFFFFFF01#32 : Word).toNat + 255 := by decide +kernel

/-- Buffer and source share one address; payload and buffer share one; frame and payload area share one (V-SD16,
V-SD17's boundary). -/
theorem test_meets_OverlappingSpansAreRefused :
    let s := { withSource 0x200#32 5#16 [] with dstAddr := 0x204#32, dstLen := 1#16, payAddr := 0x204#32,
                                                recLen := 1#8 }
    (s.srcSpan.inRange 32 = true ∧ s.dstSpan.inRange 32 = true ∧ s.srcSpan.overlaps s.dstSpan = true) ∧
    (s.paySpan.inRange 32 = true ∧ s.paySpan.overlaps s.dstSpan = true) ∧
    (s.payArea.inRange 32 = true ∧ s.srcSpan.overlaps s.payArea = true) := by decide +kernel

theorem test_meets_DeviceSpansAndOtherInstancesAreRefused :
    let s := { readyFor .crcSpan with regions := [⟨⟨0x1000, 1⟩, .device⟩] }
    let u := { readyFor .crcSpan with others := [⟨0, ⟨0x1000, 1⟩, true⟩] }
    ((∀ sp ∈ checkedSpans .crcSpan s, sp.inRange s.cfg.addrW = true) ∧ spansOverlap .crcSpan s = false ∧
      ∃ sp ∈ checkedSpans .crcSpan s, ∃ r ∈ s.regions, r.kind = .device ∧ r.span.overlaps sp = true) ∧
    ((∀ sp ∈ checkedSpans .crcSpan u, sp.inRange u.cfg.addrW = true) ∧ spansOverlap .crcSpan u = false ∧
      (∀ sp ∈ checkedSpans .crcSpan u, ∀ r ∈ u.regions, r.kind = .device → r.span.overlaps sp = false) ∧
      ∃ c ∈ u.others, c.writes = true ∧ ∃ sp ∈ readSpans .crcSpan u, c.span.overlaps sp = true) := by decide +kernel

/-- The write clause: an APPEND whose written bytes another instance reads. -/
theorem test_meets_DeviceSpansAndOtherInstancesAreRefused_writes :
    let u := { readyFor .append with others := [⟨0, ⟨0x203, 1⟩, false⟩] }
    spansOverlap .append u = false ∧ ∃ c ∈ u.others, ∃ sp ∈ writeSpans .append u, c.span.overlaps sp = true := by
  decide +kernel

/-- The event: two claims of different instances that collide; a claim that collides with a running APPEND; and, BUSY
= 1 as well, claims that collide with nothing, with two bytes written in an old write claim and one read there. -/
theorem test_meets_DeviceSpansAndOtherInstancesAreRefused_event :
    let s := { running (readyFor .append) 0x00000004#32 with others := [⟨1, ⟨0x204, 1⟩, true⟩] }
    let collides := fun (c : Claim) => (∃ sp ∈ writeSpans .append s, c.span.overlaps sp = true) ∨
      (c.writes = true ∧ ∃ sp ∈ readSpans .append s, c.span.overlaps sp = true)
    let apart := fun (c d : Claim) => ¬ (c.owner ≠ d.owner ∧ (c.writes = true ∨ d.writes = true) ∧
      c.span.overlaps d.span = true)
    let cs : List Claim := [⟨1, ⟨0x204, 1⟩, true⟩, ⟨2, ⟨0x205, 1⟩, true⟩]
    (s.mem.wf ∧ s.busy = true ∧ decode s.pending = .ok .append) ∧
    ¬ apart ⟨1, ⟨0x204, 2⟩, true⟩ ⟨2, ⟨0x205, 1⟩, false⟩ ∧
    (∃ c ∈ s.others ++ [⟨1, ⟨0x203, 1⟩, false⟩], collides c) ∧
    (∀ c ∈ cs, ∀ d ∈ cs, apart c d) ∧ (∀ c ∈ s.others ++ cs, ¬ collides c) ∧
    ([(0x204, 0x11#8), (0x204, 0x22#8)] : List Host.Cell) = [(0x204, 0x11#8)] ++ (0x204, 0x22#8) :: [] ∧
    (∃ c ∈ s.others, c.writes = true ∧ c.span.contains 0x204 = true) ∧ 0x204 < 2 ^ s.cfg.addrW ∧
    (⟨0x202, 2⟩ ∈ readSpans .append s ++ writeSpans .append s ∧ Span.contains ⟨0x202, 2⟩ 0x203 = true) := by
  decide +kernel

theorem test_meets_UncompletedReadsAreStuckAndSharedOnesFree :
    let s := { readyFor .crcSpan with regions := [⟨⟨0x1000, 1⟩, .unmapped⟩] }
    let u := { readyFor .crcSpan with regions := [⟨⟨0x1000, 1⟩, .shared⟩] }
    (s.passed .crcSpan = true ∧ s.touches .unmapped s.srcSpan = true) ∧
    (u.passed .crcSpan = true ∧ u.touches .unmapped u.srcSpan = false ∧
      u.touches .shared ⟨u.srcAddr.toNat, 1⟩ = true) := by decide +kernel

/-- One byte that is not completed: the last source and the last target byte of an APPEND; of an encoder at each
capacity where a clause begins, the last byte of header, payload, frame body and checksum; of a decoder byte 0, the
last byte, and the last payload byte. -/
theorem test_meets_UncompletedAccessesAreStuck :
    let missing := fun (s : State) (a : Nat) => { s with regions := [⟨⟨a, 1⟩, .unmapped⟩] }
    let clause := fun (i : Instr) (s : State) (at' a n : Nat) =>
      (missing s at').passed i = true ∧ (missing s at').touches .unmapped ⟨a, n⟩ = true
    (clause .append (readyFor .append) 0x101 0x100 2 ∧ clause .append (readyFor .append) 0x203 0x202 2) ∧
    (clause .serEnc (serialRecord 3#16) 0x202 0x200 3 ∧ clause .serEnc (serialRecord 6#16) 0x302 0x300 3 ∧
      clause .serEnc (serialRecord 6#16) 0x205 0x200 6 ∧ clause .serEnc (serialRecord 8#16) 0x207 0x200 8) ∧
    (clause .radEnc (radioRecord 6#16) 0x205 0x200 6 ∧ clause .radEnc (radioRecord 7#16) 0x300 0x300 1 ∧
      clause .radEnc (radioRecord 7#16) 0x206 0x200 7 ∧ clause .radEnc (radioRecord 9#16) 0x208 0x200 9) ∧
    (clause .serDec (withFrame serialFrame) 0x200 0x200 1 ∧ clause .serDec (withFrame serialFrame) 0x207 0x200 8 ∧
      (missing (withFrame serialFrame) 0x207).byteAt 0 0x200 = 0x7E#8 ∧
      clause .serDec (withFrame serialFrame) 0x302 0x300 3 ∧
      (missing (withFrame serialFrame) 0x302).ordinary (withFrame serialFrame).srcSpan = true) ∧
    (clause .radDec (withFrame radioFrame) 0x200 0x200 1 ∧ clause .radDec (withFrame radioFrame) 0x208 0x200 9 ∧
      (missing (withFrame radioFrame) 0x208).byteAt 0 0x200 = 0xA5#8 ∧
      clause .radDec (withFrame radioFrame) 0x300 0x300 1 ∧
      (missing (withFrame radioFrame) 0x300).ordinary (withFrame radioFrame).srcSpan = true) := by decide +kernel

theorem test_meets_CrcSpanChecksumsItsSpan :
    (readyFor .crcSpan).ready .crcSpan = true ∧
    2 ^ State.reset.cfg.addrW < (withSource 0xFFFFFFFF#32 2#16 []).srcAddr.toNat + (2#16 : Half).toNat ∧
    (withSource 0xFFFFFFFF#32 0#16 []).srcLen = 0#16 ∧
    (withSource 0xFFFFFFFF#32 0#16 []).srcAddr.toNat ≤ 2 ^ State.reset.cfg.addrW := by decide +kernel

theorem test_meets_SpanThenBytesChecksumTheWhole : (readyFor .crcSpan).ready .crcSpan = true := by decide +kernel

theorem test_meets_SingleBitErrorsChangeTheChecksum : 0 < 8 ∧ 7 < 8 := by decide

/-- V-AP3, V-AP7, V-AP6. -/
theorem test_meets_AppendCopiesOrLeavesEverything :
    ((withBuffer 0#16 4#16 10#16 []).mem.wf ∧ (withBuffer 0#16 4#16 10#16 []).ready .append = true) ∧
    ((withBuffer 3#16 3#16 1#16 [1#8]).mem.wf ∧ (withBuffer 3#16 3#16 1#16 [1#8]).ready .append = true ∧ 3 < 1 + 3) ∧
    ((withBuffer 3#16 3#16 0#16 [1#8]).mem.wf ∧ (withBuffer 3#16 3#16 0#16 [1#8]).ready .append = true ∧
      0 + 3 ≤ 3) := by decide +kernel

/-- The capacities where the bands meet: 2 and 3, 5 and 6, 7 and 8 (V-SE4 to V-SE9). -/
theorem test_meets_SerialEncodeByCapacity :
    [2#16, 3#16, 5#16, 6#16, 7#16, 8#16].all (fun cap =>
      (serialRecord cap).mem.wf && (serialRecord cap).ready .serEnc) = true := by decide +kernel

/-- The capacities where the bands meet: 5 and 6, 6 and 7, 8 and 9 (V-RE2 to V-RE6). -/
theorem test_meets_RadioEncodeByCapacity :
    [5#16, 6#16, 7#16, 8#16, 9#16].all (fun cap =>
      (radioRecord cap).mem.wf && (radioRecord cap).ready .radEnc) = true := by decide +kernel

/-- V-SD2 is accepted, V-SD6 rejected. -/
theorem test_meets_SerialDecodeFollowsTheVerdict :
    let bad := [0x7E#8, 0x02#8, 0x03#8, 0x01#8, 0x03#8, 0x03#8, 0x61#8, 0x9C#8]
    ((withFrame serialFrame).mem.wf ∧ (withFrame serialFrame).ready .serDec = true ∧
      serialVerdict Config.testInstance serialFrame = .ok ∧
      (withFrame serialFrame).mem.readList 0x200 8 = serialFrame) ∧
    ((withFrame bad).mem.wf ∧ (withFrame bad).ready .serDec = true ∧
      serialVerdict Config.testInstance bad = .checksumMismatch ∧ (withFrame bad).mem.readList 0x200 8 = bad) := by
  decide +kernel

/-- V-RD1 is accepted, V-RD6 rejected. -/
theorem test_meets_RadioDecodeFollowsTheVerdict :
    let bad := [0xA5#8, 0x01#8, 0x02#8, 0x03#8, 0xFF#8, 0x01#8, 0xAA#8, 0xA7#8, 0x84#8]
    ((withFrame radioFrame).mem.wf ∧ (withFrame radioFrame).ready .radDec = true ∧
      radioVerdict Config.testInstance radioFrame = .ok ∧
      (withFrame radioFrame).mem.readList 0x200 9 = radioFrame) ∧
    ((withFrame bad).mem.wf ∧ (withFrame bad).ready .radDec = true ∧
      radioVerdict Config.testInstance bad = .invalidMessageKind ∧ (withFrame bad).mem.readList 0x200 9 = bad) := by
  decide +kernel

/-- The state between an encode and the decode of its frame into a payload area at 0x400. -/
def handOver (t : State) : State := { t with srcAddr := t.dstAddr, srcLen := t.dstLen, payAddr := 0x400#32 }

/-- A valid kind, and the invalid kind 0x0A. -/
theorem test_meets_SerialRoundTrip :
    [0x09#8, 0x0A#8].all (fun kind =>
      let s := { serialRecord 8#16 with recKind := kind }
      s.mem.wf && s.ready .serEnc && s.recLen.toNat + 5 ≤ s.dstLen.toNat &&
        look (fun t => State.ready { handOver t with recKind := 0#8, recLen := 0#8 } .serDec) (exec .serEnc s) =
          some true) = true := by decide +kernel

/-- The same for the radio profile, the record registers cleared between. -/
theorem test_meets_RadioRoundTrip :
    [0x09#8, 0x0A#8].all (fun kind =>
      let s := { radioRecord 9#16 with recKind := kind }
      s.mem.wf && s.ready .radEnc && s.recLen.toNat + 8 ≤ s.dstLen.toNat &&
        look (fun t => State.ready { handOver t with
          recSeq := 0#8, recSrcId := 0#8, recDstId := 0#8, recKind := 0#8, recLen := 0#8 } .radDec)
          (exec .radEnc s) = some true) = true := by decide +kernel

/-- Byte 0 and the last byte, bits 0 and 7. -/
theorem test_meets_SingleBitCorruptionIsRejected :
    (0 < (withFrame serialFrame).srcLen.toNat ∧ 7 < (withFrame serialFrame).srcLen.toNat ∧ 7 < 8) ∧
    ((withFrame serialFrame).mem.wf ∧ (withFrame serialFrame).ready .serDec = true ∧
      serialVerdict Config.testInstance ((withFrame serialFrame).mem.readList 0x200 8) = .ok) ∧
    ((withFrame radioFrame).mem.wf ∧ (withFrame radioFrame).ready .radDec = true ∧
      radioVerdict Config.testInstance ((withFrame radioFrame).mem.readList 0x200 9) = .ok) := by decide +kernel

/-- Prefixes of one byte less than the minimum, of the minimum, and of one byte less than the frame. -/
theorem test_meets_TruncatedFramesAreRejected :
    [4#16, 5#16, 7#16].all (fun m => m.toNat < (withFrame serialFrame).srcLen.toNat &&
      State.ready { withFrame serialFrame with srcLen := m } .serDec) = true ∧
    [7#16, 8#16].all (fun m => m.toNat < (withFrame radioFrame).srcLen.toNat &&
      State.ready { withFrame radioFrame with srcLen := m } .radDec) = true := by decide +kernel

/-- The frames of V-SD10 (kind 0x0A) and V-RD6 (kind 0xFF), padded. -/
theorem test_meets_PaddedFramesFailTheLengthCheck_kind :
    let f := [0x7E#8, 0x0A#8, 0x02#8, 0xAA#8, 0xBC#8, 0xBD#8]
    let g := [0xA5#8, 0x01#8, 0x02#8, 0x03#8, 0xFF#8, 0x01#8, 0xAA#8, 0xA7#8, 0x84#8]
    let s := withFrame (f ++ [0x00#8])
    let u := withFrame (g ++ [0x00#8])
    (s.mem.wf ∧ s.ready .serDec = true ∧ serialVerdict s.cfg (s.mem.readList 0x200 6) = .invalidMessageKind) ∧
    (u.mem.wf ∧ u.ready .radDec = true ∧ radioVerdict u.cfg (u.mem.readList 0x200 9) = .invalidMessageKind) := by
  decide +kernel

/-- V-SD12, and the radio frame likewise. -/
theorem test_meets_PaddedFramesFailTheLengthCheck :
    let s := withFrame (serialFrame ++ [0x00#8])
    let u := withFrame (radioFrame ++ [0x00#8])
    (s.mem.wf ∧ 1 ≤ s.srcLen.toNat ∧ s.mem.read (s.srcAddr.toNat + s.srcLen.toNat - 1) = 0x00#8 ∧
      s.ready .serDec = true ∧ serialVerdict s.cfg (s.mem.readList 0x200 8) = .ok) ∧
    (u.mem.wf ∧ 1 ≤ u.srcLen.toNat ∧ u.mem.read (u.srcAddr.toNat + u.srcLen.toNat - 1) = 0x00#8 ∧
      u.ready .radDec = true ∧ radioVerdict u.cfg (u.mem.readList 0x200 9) = .ok) := by decide +kernel

theorem test_meets_KindCheckComparesWithTheCount :
    State.recKind { State.reset with recKind := 0xFF#8 } = 0xFF#8 ∧ State.reset.cfg.wf ∧ State.reset.recKind = 0#8 := by
  decide

/-- Both clauses, for each command: on OK, and (for those that can fail) otherwise. -/
theorem test_meets_CommandsWriteTheRegistersOfTheTable :
    (∀ i ∈ [.crcInit, .crcByte 1#8, .crcSpan, .append, .serEnc, .serDec, .radEnc, .radDec, .kindCheck],
      look State.result (exec i (readyFor i)) = some .ok) ∧
    look State.result (exec .append (withBuffer 3#16 3#16 1#16 [])) = some .bufferTooSmall := by decide +kernel

theorem test_meets_FailedCommandsWriteNoMemory :
    ∃ t, exec .append (withBuffer 3#16 3#16 1#16 []) = .next t ∧ t.result = .bufferTooSmall :=
  next_of_look (f := State.result) (by decide +kernel)

theorem test_meets_CommandsWriteOnlyTheirSpans :
    (serialRecord 16#16).mem.wf ∧ (∃ t, exec .serEnc (serialRecord 16#16) = .next t ∧ t.result = .ok) ∧
      ∀ sp ∈ writeSpans .serEnc (serialRecord 16#16), sp.contains 0x208 = false :=
  ⟨by decide +kernel, next_of_look (f := State.result) (by decide +kernel), by decide +kernel⟩

/-- An encoder on a memory that differs in the buffer it writes and reads back, and nowhere in the payload. -/
theorem test_meets_CommandsReadOnlyTheirSpans_encoder :
    let s := serialRecord 16#16
    let m := s.mem.write 0x201 0x55#8
    s.mem.wf ∧ m.wf ∧ m ≠ s.mem ∧ inputSpans .serEnc s = [⟨0x300, 3⟩] ∧
      m.readList 0x300 3 = s.mem.readList 0x300 3 ∧ look State.result (exec .serEnc s) = some .ok := by decide +kernel

/-- Another memory that differs outside the source span. -/
theorem test_meets_CommandsReadOnlyTheirSpans :
    let s := withBuffer 2#16 4#16 2#16 [0xAA#8, 0xBB#8]
    let m := s.mem.write 0x102 0x55#8
    s.mem.wf ∧ m.wf ∧ m ≠ s.mem ∧ (m.read 0x100 = s.mem.read 0x100 ∧ m.read 0x101 = s.mem.read 0x101) ∧
      inputSpans .append s = [⟨0x100, 2⟩] ∧ look State.result (exec .append s) = some .ok := by decide +kernel

theorem test_meets_StepsKeepTheParameters : ∃ t, step State.reset = .next t ∧ t.busy = false :=
  next_of_look (f := State.busy) (by decide)

/-- CRC_ACC changes by a command, by a host write and by reset. -/
theorem test_meets_AccumulatorHasOnlyItsWriters :
    (∃ t, step (running State.reset 0x00000002#32) = .next t ∧ t.crcAcc = 0x0F87#16) ∧
    (∃ t, step { State.reset with bus := [.portWrite 0x0C#8 .word 0#32] } = .next t ∧ t.crcAcc = 0x0000#16) ∧
    ∃ t, step { State.reset with crcAcc := 1#16, bus := [.resetInput] } = .next t ∧ t.crcAcc = 0xFFFF#16 :=
  ⟨next_of_look (f := State.crcAcc) (by decide +kernel), next_of_look (f := State.crcAcc) (by decide +kernel),
    next_of_look (f := State.crcAcc) (by decide +kernel)⟩

/-- RESULT changes and BUSY falls by a command, BUSY rises and LAST_OP changes by a CMD write. -/
theorem test_meets_StatusHasOnlyItsWriters :
    (∃ t, step (running State.reset 0#32) = .next t ∧ (t.result, t.busy) = (.illegalCommand, false)) ∧
    ∃ t, step { State.reset with bus := [.portWrite 0x00#8 .word 3#32] } = .next t ∧
      (t.busy, t.lastOp) = (true, 3#4) :=
  ⟨next_of_look (f := fun t => (t.result, t.busy)) (by decide +kernel),
    next_of_look (f := fun t => (t.busy, t.lastOp)) (by decide +kernel)⟩

/-- The host writes data memory while a command has been started. -/
theorem test_meets_StartedCommandsAreFixed :
    let s := { running (serialRecord 16#16) 5#32 with bus := [.memWrite 0x500 1#8], turns := [.host] }
    s.busy = true ∧ ∃ t, step s = .next t ∧ t.busy = true :=
  ⟨by decide, next_of_look (f := State.busy) (by decide +kernel)⟩

/-- The invariant holds of a state about to encode, and its step goes on. -/
theorem test_meets_StepKeepsTheMachineInvariant :
    let s := running (serialRecord 16#16) 5#32
    (s.cfg.wf ∧ s.mem.wf ∧ s.mem.within s.cfg.addrW ∧ s.srcAddr.toNat < 2 ^ s.cfg.addrW ∧
      s.dstAddr.toNat < 2 ^ s.cfg.addrW ∧ s.payAddr.toNat < 2 ^ s.cfg.addrW) ∧
      look State.result (step s) = some .ok := by decide +kernel

end Sys2Proof.Tests
end

section
/-! SUPPORT. The machine's invariant (`State.Inv`) under each of the ways the machine steps, and the terms of R19. -/

namespace Sys2Proof.Machine

open Sys2Proof

/-! ### The invariant of the machine -/

/-- The bits an address register implements are below 2^ADDR_W (R32, R34, R37). -/
theorem keepAddress_lt (c : Config) (v : Word) : (keepAddress c v).toNat < 2 ^ c.addrW := by
  rw [keepAddress, BitVec.toNat_ofNat]
  exact (Nat.mod_le _ _).trans_lt (Nat.mod_lt _ (Nat.two_pow_pos _))

/-- The invariant depends on the parameters, the memory and the address registers only. -/
theorem State.Inv.congr {s t : State} (hs : s.Inv) (hcfg : t.cfg = s.cfg) (hmem : t.mem = s.mem)
    (hsrc : t.srcAddr = s.srcAddr) (hdst : t.dstAddr = s.dstAddr) (hpay : t.payAddr = s.payAddr) : t.Inv := by
  obtain ⟨h1, h2, h3, h4, h5, h6⟩ := hs
  constructor <;> simpa only [hcfg, hmem, hsrc, hdst, hpay]

/-- Another memory of canonical form and inside the address space keeps the invariant. -/
theorem State.Inv.withMem {s : State} (hs : s.Inv) {m : Memory} (hm : m.wf ∧ m.within s.cfg.addrW) :
    (s.withMem m).Inv :=
  { hs with mem_wf := hm.1, mem_within := hm.2 }

/-- A turn taken off the schedule, and a bus queue of another content, are no part of the invariant. -/
theorem State.Inv.withSchedule {s : State} (hs : s.Inv) (bus : List HostOp) (turns : List Agent) :
    State.Inv { s with bus := bus, turns := turns } :=
  hs.congr rfl rfl rfl rfl rfl

/-- The reset values of the address registers are zero (R26), the parameters and the memory stay (R155, R156). -/
theorem State.Inv.resetRegisters {s : State} (hs : s.Inv) : s.resetRegisters.Inv :=
  { hs with
    srcAddr_lt := Nat.two_pow_pos _
    dstAddr_lt := Nat.two_pow_pos _
    payAddr_lt := Nat.two_pow_pos _ }

/-- An abandoned command leaves the reset registers and a memory that is still canonical and inside (R154). -/
theorem abandonCommand_keeps_inv {s : State} (hs : s.Inv) : (abandonCommand s).Inv := by
  obtain ⟨hwf, hin⟩ := abandonCommand_memory hs.mem_wf hs.mem_within
  exact (hs.resetRegisters.withMem (m := (abandonCommand s).mem) ⟨hwf, hin⟩).congr rfl rfl rfl rfl rfl

/-- A write to an idle machine's register keeps the implemented bits of an address register and touches no other
part of the invariant (R27). -/
theorem writeReg_keeps_inv {s : State} (hs : s.Inv) (r : Reg) (v : Word) : (writeReg r v s).Inv := by
  cases r with
  | srcAddr => exact { hs with srcAddr_lt := keepAddress_lt s.cfg v }
  | dstAddr => exact { hs with dstAddr_lt := keepAddress_lt s.cfg v }
  | payAddr => exact { hs with payAddr_lt := keepAddress_lt s.cfg v }
  | cmd | status | config | crcAcc | srcLen | dstLen | dstOff | recKind | recLen | recSeq | recSrcId | recDstId =>
    exact hs.congr rfl rfl rfl rfl rfl

/-- The engine's step changes neither the parameters nor an address register (R78). -/
theorem engineStep_keeps_operands {s t : State} (h : engineStep s = .next t) :
    t.cfg = s.cfg ∧ t.srcAddr = s.srcAddr ∧ t.dstAddr = s.dstAddr ∧ t.payAddr = s.payAddr := by
  rcases engineStep_eq_next h with ⟨-, rfl⟩ | ⟨i, -, h⟩
  · exact ⟨rfl, rfl, rfl, rfl⟩
  · obtain ⟨-, hcfg, -, -, hsrc, -, hdst, hpay, -⟩ := exec_keeps h
    exact ⟨hcfg, hsrc, hdst, hpay⟩

theorem engineStep_keeps_inv {s t : State} (hs : s.Inv) (h : engineStep s = .next t) : t.Inv := by
  obtain ⟨hcfg, hsrc, hdst, hpay⟩ := engineStep_keeps_operands h
  exact (hs.withMem (engineStep_memory hs.mem_wf hs.mem_within h)).congr hcfg rfl hsrc hdst hpay

/-- The byte a host write stores lies in the address space (R47), or on a device and is not stored (R64). -/
theorem hostStored_memory {s : State} (hs : s.Inv) {a : Nat} (ha : a < 2 ^ s.cfg.addrW) (b : Byte) :
    (hostStored a b s).wf ∧ (hostStored a b s).within s.cfg.addrW := by
  rcases hostStored_cases a b s with h | h <;> rw [h]
  · exact ⟨hs.mem_wf, hs.mem_within⟩
  · exact ⟨Memory.write_wf hs.mem_wf a b, Memory.write_within hs.mem_within ha b⟩

theorem hostOp_keeps_inv {op : HostOp} {s t : State} (hs : s.Inv) (h : hostOp op s = .next t) : t.Inv := by
  have hl := hostOp_eq_next h
  cases op with
  | portRead | memRead =>
    obtain ⟨r, rfl | rfl⟩ := hl <;> exact hs.congr rfl rfl rfl rfl rfl
  | portWrite off w v =>
    obtain ⟨-, ⟨-, rfl⟩ | ⟨r, -, -, rfl⟩⟩ := hl
    · exact hs
    · exact writeReg_keeps_inv hs r v
  | poll =>
    obtain ⟨r, ⟨-, rfl⟩ | ⟨-, rfl⟩⟩ := hl <;> exact hs.congr rfl rfl rfl rfl rfl
  | memWrite a b =>
    obtain ⟨ha, rfl⟩ := hl
    exact hs.withMem (hostStored_memory hs ha b)
  | claims cs written =>
    have hmem : (s.withMem (s.otherWrites written s.mem)).Inv :=
      hs.withMem ⟨State.otherWrites_wf hs.mem_wf, State.otherWrites_within hs.mem_within⟩
    subst hl
    exact hmem.congr rfl rfl rfl rfl rfl
  | resetInput =>
    obtain ⟨-, rfl⟩ | ⟨-, rfl⟩ := hl
    · exact hs.resetRegisters
    · exact abandonCommand_keeps_inv hs

/-- Settles O59: each of the three ways the machine steps keeps the invariant. -/
theorem stepKeepsTheMachineInvariant : Obligations.StepKeepsTheMachineInvariant := by
  intro s t hs h
  rcases step_eq_next h with ⟨-, -, h⟩ | ⟨op, rest, -, -, h⟩ | rfl
  · exact engineStep_keeps_inv (hs.withSchedule s.bus s.turns.tail) h
  · exact hostOp_keeps_inv (hs.withSchedule rest s.turns.tail) h
  · exact hs.withSchedule s.bus s.turns.tail

/-! ### Spans (R19) -/

/-- Two spans overlap iff they share an address; the larger of the two starts is one they share. -/
theorem Span.overlaps_iff_share {x y : Span} : x.overlaps y = true ↔
    ∃ a, (x.start ≤ a ∧ a < x.start + x.len) ∧ (y.start ≤ a ∧ a < y.start + y.len) := by
  rw [Span.overlaps_iff]
  constructor
  · intro h
    exact ⟨max x.start y.start, by omega, by omega⟩
  · rintro ⟨a, hx, hy⟩
    omega

/-- Settles O26: the three terms of R19, each by its own rule about spans. -/
theorem spanTermsMeanWhatTheRuleSays : Obligations.SpanTermsMeanWhatTheRuleSays :=
  fun _ _ _ _ _ => ⟨Span.inRange_iff, Span.overlaps_iff_share, Span.overlaps_iff⟩

end Sys2Proof.Machine
end

section
/-! SUPPORT. The register port: the map of R26 in both directions, what an idle port reads and writes (R27), the two
words STATUS and CONFIG (R29, R30), the register window (R59), and the values after reset (R153). -/

namespace Sys2Proof.Machine

open Sys2Proof

/-! ### The register map (R26) -/

@[simp] theorem Reg.ofOffset_offset (r : Reg) : Reg.ofOffset r.offset = some r := by cases r <;> rfl

/-- The map of R26 reads the same in both directions. -/
theorem Reg.ofOffset_eq_some_iff {off : Byte} {r : Reg} : Reg.ofOffset off = some r ↔ off = r.offset := by
  constructor
  · intro h
    unfold Reg.ofOffset at h
    split at h <;> cases h <;> exact BitVec.eq_of_toNat_eq ‹_›
  · rintro rfl
    exact r.ofOffset_offset

/-- Every register lies at a multiple of four, below the reserved offsets. -/
theorem Reg.offset_aligned (r : Reg) : r.offset.toNat % 4 = 0 ∧ r.offset.toNat < 0x3C := by cases r <;> decide

/-- The offsets 0x3C to 0xFC hold no register. -/
theorem Reg.ofOffset_reserved {off : Byte} (h : 0x3C ≤ off.toNat) : Reg.ofOffset off = none := by
  refine Option.eq_none_iff_forall_ne_some.2 fun r hr => ?_
  obtain rfl := Reg.ofOffset_eq_some_iff.1 hr
  exact absurd r.offset_aligned.2 (Nat.not_lt.2 h)

/-! ### Reading and writing the port (R27, R53) -/

theorem portForm_iff {off : Byte} {w : Width} : portForm off w = true ↔ w = .word ∧ off.toNat % 4 = 0 := by
  simp [portForm]

/-- An aligned word read while BUSY = 0. -/
theorem hostOp_portRead_idle {off : Byte} {s : State} (ha : off.toNat % 4 = 0) (hb : s.busy = false) :
    hostOp (.portRead off .word) s = .next (s.reply (.port (portValue off s))) := by
  simp [hostOp, hostPortRead, portForm_iff.2 ⟨rfl, ha⟩, hb]

/-- An idle read at a register's offset returns the register. -/
theorem hostOp_portRead_reg {s : State} (hb : s.busy = false) (r : Reg) :
    hostOp (.portRead r.offset .word) s = .next (s.reply (.port (readReg r s))) := by
  rw [hostOp_portRead_idle r.offset_aligned.1 hb, portValue, r.ofOffset_offset]

/-- An idle read at a reserved offset returns zero. -/
theorem hostOp_portRead_reserved {s : State} (hb : s.busy = false) {off : Byte} (ha : off.toNat % 4 = 0)
    (hr : 0x3C ≤ off.toNat) : hostOp (.portRead off .word) s = .next (s.reply (.port 0#32)) := by
  rw [hostOp_portRead_idle ha hb, portValue, Reg.ofOffset_reserved hr]

/-- A word write at a register's offset: refused while BUSY = 1 (R160), the register's write while BUSY = 0. -/
theorem hostOp_portWrite_reg (r : Reg) (v : Word) (s : State) :
    hostOp (.portWrite r.offset .word v) s =
      if s.busy then .refused .registerWriteWhileBusy else .next (writeReg r v s) := by
  simp [hostOp, hostPortWrite, portForm_iff.2 ⟨rfl, r.offset_aligned.1⟩]

theorem hostOp_portWrite_reg_idle {s : State} (hb : s.busy = false) (v : Word) (r : Reg) :
    hostOp (.portWrite r.offset .word v) s = .next (writeReg r v s) := by
  rw [hostOp_portWrite_reg, hb]
  rfl

/-- A word write at a reserved offset is ignored, busy or not (R27 (c), log 16). -/
theorem hostOp_portWrite_reserved {off : Byte} (ha : off.toNat % 4 = 0) (hr : 0x3C ≤ off.toNat) (v : Word)
    (s : State) : hostOp (.portWrite off .word v) s = .next s := by
  simp [hostOp, hostPortWrite, portForm_iff.2 ⟨rfl, ha⟩, Reg.ofOffset_reserved hr]

/-- Settles O13: the reads of the fifteen registers, in the order of the map, and of the reserved offsets. -/
theorem idleReadsReturnTheRegisters : Obligations.IdleReadsReturnTheRegisters := by
  intro s hb
  have reg := hostOp_portRead_reg hb
  exact ⟨reg .cmd, reg .status, reg .config, reg .crcAcc, reg .srcAddr, reg .srcLen, reg .dstAddr, reg .dstLen,
    reg .dstOff, reg .payAddr, reg .recKind, reg .recLen, reg .recSeq, reg .recSrcId, reg .recDstId,
    fun _ => hostOp_portRead_reserved hb⟩

/-- Settles O14: the writes of the registers after CMD, in the order of the map, and of the reserved offsets. -/
theorem idleWritesKeepTheImplementedBits : Obligations.IdleWritesKeepTheImplementedBits := by
  intro s v
  refine ⟨fun hb => ?_, fun _ ha hr => hostOp_portWrite_reserved ha hr v s⟩
  have reg := hostOp_portWrite_reg_idle hb v
  exact ⟨reg .status, reg .config, reg .crcAcc, reg .srcAddr, reg .srcLen, reg .dstAddr, reg .dstLen, reg .dstOff,
    reg .payAddr, reg .recKind, reg .recLen, reg .recSeq, reg .recSrcId, reg .recDstId⟩

/-! ### A read after a write -/

/-- Cutting a word to `n` bits and widening it again clears the bits above. -/
theorem setWidth_setWidth_eq_and (v : Word) {n : Nat} (hn : n ≤ 32) :
    (v.setWidth n).setWidth 32 = v &&& BitVec.ofNat 32 (2 ^ n - 1) := by
  have hpow : 2 ^ n ≤ 2 ^ 32 := Nat.pow_le_pow_right (by decide) hn
  have hmod : v.toNat % 2 ^ n % 2 ^ 32 = v.toNat % 2 ^ n := 
    Nat.mod_eq_of_lt ((Nat.mod_lt _ (Nat.two_pow_pos n)).trans_le hpow)
  apply BitVec.eq_of_toNat_eq
  rw [BitVec.toNat_setWidth, BitVec.toNat_setWidth, BitVec.toNat_and, BitVec.toNat_ofNat,
    Nat.mod_eq_of_lt (a := 2 ^ n - 1) (by omega), Nat.and_two_pow_sub_one_eq_mod, hmod]

/-- A read-write register reads as the implemented bits of what was written (R27 (b)). -/
theorem readReg_writeReg_same {r : Reg} (hcmd : r ≠ .cmd) (hst : r ≠ .status) (hcfg : r ≠ .config) (v : Word)
    (s : State) : readReg r (writeReg r v s) = r.keep s.cfg v := by
  cases r with
  | cmd => exact absurd rfl hcmd
  | status => exact absurd rfl hst
  | config => exact absurd rfl hcfg
  | srcAddr | dstAddr | payAddr => rfl
  | crcAcc | srcLen | dstLen | dstOff => exact setWidth_setWidth_eq_and v (n := 16) (by decide)
  | recKind | recLen | recSeq | recSrcId | recDstId => exact setWidth_setWidth_eq_and v (n := 8) (by decide)

/-- A write to a register but CMD leaves what every other register reads as (R27 (f)). -/
theorem readReg_writeReg_ne {r r' : Reg} (hcmd : r ≠ .cmd) (hne : r' ≠ r) (v : Word) (s : State) :
    readReg r' (writeReg r v s) = readReg r' s := by
  have hsplit : readReg r' (writeReg r v s) =
      if r' = r then readReg r (writeReg r v s) else readReg r' s := by
    cases r with
    | cmd => exact absurd rfl hcmd
    | _ => cases r' <;> rfl
  rw [hsplit, if_neg hne]

/-- A write to a read-only register leaves what it reads as (R27 (c)). -/
theorem writeReg_readOnly {r : Reg} (h : r = .status ∨ r = .config) (v : Word) (s : State) : writeReg r v s = s := by
  rcases h with rfl | rfl <;> rfl

/-- A write to a register but CMD starts nothing. -/
theorem writeReg_keeps_status {r : Reg} (hcmd : r ≠ .cmd) (v : Word) (s : State) :
    (writeReg r v s).result = s.result ∧ (writeReg r v s).busy = s.busy ∧
      (writeReg r v s).lastOp = s.lastOp := by
  cases r with
  | cmd => exact absurd rfl hcmd
  | _ => exact ⟨rfl, rfl, rfl⟩

/-- Settles O15: after the write the machine is still idle, so the read returns the register; the register written
and the others each by their own rule. -/
theorem writeThenReadReturnsTheImplementedBits : Obligations.WriteThenReadReturnsTheImplementedBits := by
  intro s r r' v hb hcmd
  have hidle : (writeReg r v s).busy = false := (writeReg_keeps_status hcmd v s).2.1.trans hb
  refine ⟨_, hostOp_portWrite_reg_idle hb v r, (hostOp_portRead_reg hidle r').trans ?_⟩
  suffices hread : readReg r' (writeReg r v s) =
      if r' = r ∧ r ≠ .status ∧ r ≠ .config then r.keep s.cfg v else readReg r' s by
    rw [hread]
    rfl
  split
  · rename_i h
    obtain ⟨rfl, hst, hcfg⟩ := h
    exact readReg_writeReg_same hcmd hst hcfg v s
  · rename_i h
    by_cases hro : r = .status ∨ r = .config
    · rw [writeReg_readOnly hro]
    · exact readReg_writeReg_ne hcmd (by tauto) v s

/-! ### STATUS, CONFIG and the register window -/

/-- Settles O11: each field is cut out of the concatenation below the fields above it. -/
theorem statusWordLayout : Obligations.StatusWordLayout := by
  refine ⟨fun s => ?_, rfl, rfl, rfl, rfl, rfl, rfl, rfl, rfl, rfl⟩
  unfold State.statusWord
  refine ⟨BitVec.extractLsb'_append_eq_right, ?_, ?_, ?_⟩
  · rw [BitVec.extractLsb'_append_eq_of_le (by decide), BitVec.extractLsb'_append_eq_right]
  · simp only [BitVec.getLsbD_append]
    simp
  · rw [BitVec.extractLsb'_append_eq_of_le (by decide), BitVec.extractLsb'_append_eq_of_le (by decide),
      BitVec.extractLsb'_append_eq_left]

/-- Settles O12, likewise. -/
theorem configWordLayout : Obligations.ConfigWordLayout := by
  intro c
  unfold configWord
  refine ⟨BitVec.extractLsb'_append_eq_right, ?_, ?_, ?_⟩
  · rw [BitVec.extractLsb'_append_eq_of_le (by decide), BitVec.extractLsb'_append_eq_right]
    rfl
  · rw [BitVec.extractLsb'_append_eq_of_le (by decide), BitVec.extractLsb'_append_eq_of_le (by decide),
      BitVec.extractLsb'_append_eq_right]
  · rw [BitVec.extractLsb'_append_eq_of_le (by decide), BitVec.extractLsb'_append_eq_of_le (by decide),
      BitVec.extractLsb'_append_eq_left]

/-- Settles O19: inside the window the offset is the distance from REG_BASE; outside it no offset reaches. -/
theorem windowAddressesAndOffsetsAgree : Obligations.WindowAddressesAndOffsetsAgree := by
  intro c a off
  have hoff := off.isLt
  unfold windowOffset windowAddress
  split
  · rw [Option.some.injEq]
    bv_omega
  · simp only [reduceCtorEq, false_iff]
    omega

/-! ### After reset (R153) -/

/-- Settles O23: the reset state is written out, and so is every value. -/
theorem resetStateHoldsTheResetValues : Obligations.ResetStateHoldsTheResetValues :=
  ⟨by decide, rfl, rfl, rfl, rfl, rfl, rfl, rfl, rfl, rfl, rfl, rfl, rfl, rfl⟩

/-- Settles O60: the test parameters are legal, no memory is listed, and the address registers are zero. -/
theorem resetMeetsTheMachineInvariant : Obligations.ResetMeetsTheMachineInvariant where
  cfg_wf := by decide
  mem_wf := ⟨.nil, List.forall_mem_nil _⟩
  mem_within := List.forall_mem_nil _
  srcAddr_lt := Nat.two_pow_pos _
  dstAddr_lt := Nat.two_pow_pos _
  payAddr_lt := Nat.two_pow_pos _

end Sys2Proof.Machine
end

section
/-! SUPPORT. Which step writes which register: the host's operations and the machine's steps sorted by what they do to
the registers, and the frames derived from that (R24, R31, R43). -/

namespace Sys2Proof.Machine

open Sys2Proof

/-! ### What a step does to the registers -/

/-- From `s` to `t` no register changes: only the data memory and the world around it. -/
def State.SameRegisters (s t : State) : Prop :=
  t = { s with mem := t.mem, others := t.others, bus := t.bus, turns := t.turns, replies := t.replies,
               draws := t.draws }

/-- The parameters, CRC_ACC and the fields of STATUS where no register changes. -/
theorem State.SameRegisters.keeps {s t : State} (h : s.SameRegisters t) :
    t.cfg = s.cfg ∧ t.crcAcc = s.crcAcc ∧ t.result = s.result ∧ t.busy = s.busy ∧ t.lastOp = s.lastOp := by
  refine ⟨?_, ?_, ?_, ?_, ?_⟩ <;> rw [h]

/-- An operation of the outside world is a reset, a register write to the idle machine, or touches no register. -/
theorem hostOp_register_cases {op : HostOp} {s t : State} (h : hostOp op s = .next t) :
    (op = .resetInput ∧ t.cfg = s.cfg) ∨
    (∃ r v, op = .portWrite (Reg.offset r) .word v ∧ s.busy = false ∧ t = writeReg r v s) ∨
    s.SameRegisters t := by
  have hl := hostOp_eq_next h
  cases op with
  | portRead | memRead =>
    obtain ⟨r, rfl | rfl⟩ := hl <;> exact .inr (.inr rfl)
  | portWrite off w v =>
    obtain ⟨hf, ⟨-, rfl⟩ | ⟨r, hr, hb, rfl⟩⟩ := hl
    · exact .inr (.inr rfl)
    · obtain ⟨rfl, -⟩ := portForm_iff.1 hf
      obtain rfl := Reg.ofOffset_eq_some_iff.1 hr
      exact .inr (.inl ⟨r, v, rfl, hb, rfl⟩)
  | poll =>
    obtain ⟨r, ⟨-, rfl⟩ | ⟨-, rfl⟩⟩ := hl <;> exact .inr (.inr rfl)
  | memWrite a b =>
    obtain ⟨-, rfl⟩ := hl
    exact .inr (.inr rfl)
  | claims cs written =>
    subst hl
    exact .inr (.inr rfl)
  | resetInput =>
    obtain ⟨-, rfl⟩ | ⟨-, rfl⟩ := hl <;> exact .inl ⟨rfl, rfl⟩

/-- A step is the engine's, a reset, a register write to the idle machine, or touches no register. -/
theorem step_register_cases {s t : State} (h : step s = .next t) :
    (s.mover = .engine ∧ s.busy = true ∧ engineStep { s with turns := s.turns.tail } = .next t) ∨
    ((s.mover = .host ∧ ∃ rest, s.bus = .resetInput :: rest) ∧ t.cfg = s.cfg) ∨
    (∃ r v rest, s.mover = .host ∧ s.bus = .portWrite (Reg.offset r) .word v :: rest ∧ s.busy = false ∧
      t = writeReg r v { s with bus := rest, turns := s.turns.tail }) ∨
    s.SameRegisters t := by
  rcases step_eq_next h with h | ⟨op, rest, hm, hbus, h⟩ | rfl
  · exact .inl h
  · rcases hostOp_register_cases h with ⟨rfl, hcfg⟩ | ⟨r, v, rfl, hb, rfl⟩ | h
    · exact .inr (.inl ⟨⟨hm, rest, hbus⟩, hcfg⟩)
    · exact .inr (.inr (.inl ⟨r, v, rest, hm, hbus, hb, rfl⟩))
    · exact .inr (.inr (.inr h))
  · exact .inr (.inr (.inr rfl))

/-! ### Who moves -/

/-- When the host moves, the step is the host's turn with the turn used up (log 3). -/
theorem step_of_host {s : State} (hm : s.mover = .host) : step s = hostStep { s with turns := s.turns.tail } := by
  unfold step runTurn
  unfold State.mover at hm
  split <;> rename_i hturns <;> simp only [hturns] at hm
  · have hb : s.busy = false := by
      by_contra hb
      simp [hb] at hm
    have hs : { s with turns := s.turns.tail } = s := by rw [hturns, List.tail_nil, ← hturns]
    rw [hs, if_neg (by simp [hb])]
  · cases hm
  · rw [hturns]
    rfl

/-- Settles O6: the host's turn with an operation pending runs the oldest one. -/
theorem hostStepRunsItsOldestOperation : Obligations.HostStepRunsItsOldestOperation := by
  intro s op rest hm hbus
  rw [step_of_host hm, hostStep]
  simp only [hbus]

/-! ### The parameters -/

theorem writeReg_cfg (r : Reg) (v : Word) (s : State) : (writeReg r v s).cfg = s.cfg := by cases r <;> rfl

/-- Settles O55: the engine, a reset, a register write, and every other step. -/
theorem stepsKeepTheParameters : Obligations.StepsKeepTheParameters := by
  intro s t h
  rcases step_register_cases h with ⟨-, -, h⟩ | ⟨-, hcfg⟩ | ⟨r, v, rest, -, -, -, rfl⟩ | h
  · exact (engineStep_keeps_operands h).1
  · exact hcfg
  · exact writeReg_cfg r v _
  · obtain ⟨hcfg, -⟩ := h.keeps
    exact hcfg

/-! ### CRC_ACC -/

/-- The commands that write CRC_ACC (R99, R100, R101). -/
theorem exec_crcAcc {i : Instr} {s t : State} (h : exec i s = .next t) (hne : t.crcAcc ≠ s.crcAcc) :
    i = .crcInit ∨ (∃ b, i = .crcByte b) ∨ i = .crcSpan := by
  rcases exec_eq_next h with rfl | ⟨-, -, h⟩
  · exact absurd rfl hne
  cases i with
  | crcInit => exact .inl rfl
  | crcByte b => exact .inr (.inl ⟨b, rfl⟩)
  | crcSpan => exact .inr (.inr rfl)
  | append =>
    rcases h with ⟨-, rfl⟩ | ⟨-, -, rfl⟩ | ⟨-, -, rfl⟩ <;> simp at hne
  | serEnc | radEnc =>
    obtain ⟨_, _, _, -, -, rfl | rfl⟩ := h <;> simp at hne
  | serDec | radDec =>
    rcases h with ⟨_, _, -, rfl⟩ | ⟨_, _, _, _, _, _, _, -, -, -, rfl⟩ <;> simp [accepted, decodedIds] at hne
  | kindCheck =>
    obtain rfl := h
    exact absurd rfl hne

theorem writeReg_crcAcc_ne {r : Reg} (hr : r ≠ .crcAcc) (v : Word) (s : State) :
    (writeReg r v s).crcAcc = s.crcAcc := by
  cases r with
  | crcAcc => exact absurd rfl hr
  | _ => rfl

/-- Settles O56: the engine by its three commands, the host by a write to CRC_ACC or a reset, no other step. -/
theorem accumulatorHasOnlyItsWriters : Obligations.AccumulatorHasOnlyItsWriters := by
  intro s t h hne
  rcases step_register_cases h with ⟨hm, hb, h⟩ | ⟨hreset, -⟩ | ⟨r, v, rest, hm, hbus, -, rfl⟩ | h
  · refine .inl ⟨hm, hb, ?_⟩
    rcases engineStep_eq_next h with ⟨-, rfl⟩ | ⟨i, hi, h⟩
    · exact absurd rfl hne
    · change decode s.pending = .ok i at hi
      rw [hi]
      simpa using exec_crcAcc h hne
  · exact .inr (.inr hreset)
  · obtain rfl : r = .crcAcc := by_contra fun hr => hne (writeReg_crcAcc_ne hr v _)
    exact .inr (.inl ⟨hm, v, rest, hbus⟩)
  · obtain ⟨-, hacc, -⟩ := h.keeps
    exact absurd hacc hne

/-! ### STATUS -/

/-- The engine's step ends the command and keeps LAST_OP (R82). -/
theorem engineStep_status {s t : State} (h : engineStep s = .next t) : t.busy = false ∧ t.lastOp = s.lastOp := by
  rcases engineStep_eq_next h with ⟨-, rfl⟩ | ⟨i, -, h⟩
  · exact ⟨rfl, rfl⟩
  · obtain ⟨hbusy, -, hlast, -⟩ := exec_keeps h
    exact ⟨hbusy, hlast⟩

/-- A step ends the running command, is a reset, starts a command, or keeps every field of STATUS. -/
theorem step_status_cases {s t : State} (h : step s = .next t) :
    (s.mover = .engine ∧ s.busy = true ∧ t.busy = false ∧ t.lastOp = s.lastOp) ∨
    (s.mover = .host ∧ ∃ rest, s.bus = .resetInput :: rest) ∨
    (s.mover = .host ∧ s.busy = false ∧ ∃ w rest, s.bus = .portWrite (Reg.offset .cmd) .word w :: rest ∧
      t = State.startCommand { s with bus := rest, turns := s.turns.tail } w) ∨
    (t.result = s.result ∧ t.busy = s.busy ∧ t.lastOp = s.lastOp) := by
  rcases step_register_cases h with ⟨hm, hb, h⟩ | ⟨hreset, -⟩ | ⟨r, v, rest, hm, hbus, hb, rfl⟩ | h
  · obtain ⟨hidle, hlast⟩ := engineStep_status h
    exact .inl ⟨hm, hb, hidle, hlast⟩
  · exact .inr (.inl hreset)
  · by_cases hr : r = .cmd
    · subst hr
      exact .inr (.inr (.inl ⟨hm, hb, v, rest, hbus, rfl⟩))
    · exact .inr (.inr (.inr (writeReg_keeps_status hr v _)))
  · obtain ⟨-, -, hstatus⟩ := h.keeps
    exact .inr (.inr (.inr hstatus))

/-- Settles O57: each clause names the step that can write its field; the other steps keep it. -/
theorem statusHasOnlyItsWriters : Obligations.StatusHasOnlyItsWriters := by
  intro s t h hnoReset
  rcases step_status_cases h with ⟨hm, hb, hidle, hlast⟩ | hreset | ⟨hm, hb, w, rest, hbus, rfl⟩ |
    ⟨hres, hbusy, hlast⟩
  · exact ⟨fun _ => ⟨hm, hb, hidle⟩, by simp [hb], fun _ _ => hm, by simp [hlast]⟩
  · exact absurd hreset hnoReset
  · exact ⟨by simp, fun _ _ => ⟨hm, w, rest, hbus, rfl⟩, by simp [hb], fun _ => ⟨hm, hb, rfl⟩⟩
  · exact ⟨by simp [hres], fun hb ht => absurd (hbusy.symm.trans ht) (by simp [hb]),
      fun hb ht => absurd (hbusy.symm.trans ht) (by simp [hb]), by simp [hlast]⟩

end Sys2Proof.Machine
end

section
/-! SUPPORT. Accesses from the host's side: the form of a register-port access (R53) and the host's own accesses to
data memory (R64), each clause by what stops or lets through an access. -/

namespace Sys2Proof.Machine

open Sys2Proof

/-! ### The form of a register-port access (R53) -/

/-- Settles O16: an access of another form is stopped before the offset is looked at. -/
theorem nonWordPortAccessesAreRefused : Obligations.NonWordPortAccessesAreRefused := by
  intro s off w v hform
  have hf : portForm off w = false := by
    rw [Bool.eq_false_iff, Ne, portForm_iff]
    tauto
  simp [hostOp, hostPortRead, hostPortWrite, hf]

/-! ### The host's data-memory accesses (R64; log 21)

A read and a write of one address go through the same checks, so each stop is stated for any continuation. -/

variable {s : State} {a : Nat}

theorem hostAccess_beyond (ha : 2 ^ s.cfg.addrW ≤ a) (k : State → Res State) :
    hostAccess a s k = .fault .noSuchAddress := if_pos ha

theorem hostAccess_claimed (ha : a < 2 ^ s.cfg.addrW) (hc : inClaims s a = true) (k : State → Res State) :
    hostAccess a s k = .refused .accessToRunningSpan := by
  simp [hostAccess, Nat.not_le.2 ha, hc]

/-- What stops an access whatever it goes on to stops the read and the write alike. -/
theorem hostOp_memory_stops {r : Res State} (h : ∀ k, hostAccess a s k = r) (b : Byte) :
    hostOp (.memRead a) s = r ∧ hostOp (.memWrite a b) s = r := by
  rw [hostOp, hostOp, hostMemRead, hostMemWrite]
  exact ⟨h _, h _⟩

/-- Where the host may access, only a missing answer of the platform stops it (R57). -/
theorem hostAccess_free (ha : a < 2 ^ s.cfg.addrW) (hfree : s.hostMayAccess a) (k : State → Res State) :
    hostAccess a s k = if s.touches .unmapped ⟨a, 1⟩ then .fault .accessNotCompleted else k s := by
  obtain ⟨hrun, hclaim⟩ := hfree.free
  simp [hostAccess, Nat.not_le.2 ha, hrun, hclaim]

/-- A completed read of the host returns the byte it sees. -/
theorem hostOp_memRead (ha : a < 2 ^ s.cfg.addrW) (hfree : s.hostMayAccess a)
    (hu : s.touches .unmapped ⟨a, 1⟩ = false) :
    hostOp (.memRead a) s = .next (s.reply (.mem (hostByte a s))).tick := by
  rw [hostOp, hostMemRead, hostAccess_free ha hfree, hu]
  rfl

/-- A completed write of the host stores its byte. -/
theorem hostOp_memWrite (ha : a < 2 ^ s.cfg.addrW) (hfree : s.hostMayAccess a)
    (hu : s.touches .unmapped ⟨a, 1⟩ = false) (b : Byte) :
    hostOp (.memWrite a b) s = .next (s.withMem (hostStored a b s)) := by
  rw [hostOp, hostMemWrite, hostAccess_free ha hfree, hu]
  rfl

theorem hostByte_device (hd : s.touches .device ⟨a, 1⟩ = true) : hostByte a s = Config.freeByte s.draws 0 :=
  if_pos hd

theorem hostByte_shared (hd : s.touches .device ⟨a, 1⟩ = false) (hs : s.touches .shared ⟨a, 1⟩ = true) :
    hostByte a s = Config.freeByte s.draws 0 := by
  simp [hostByte, State.byteAt, hd, hs]

theorem hostByte_ordinary (ho : s.ordinary ⟨a, 1⟩ = true) : hostByte a s = s.mem.read a := by
  obtain ⟨hd, -, hs⟩ := State.ordinary_iff.1 ho
  simp [hostByte, hd, State.byteAt_ordinary hs]

theorem hostStored_device (hd : s.touches .device ⟨a, 1⟩ = true) (b : Byte) : hostStored a b s = s.mem := if_pos hd

theorem hostStored_noDevice (hd : s.touches .device ⟨a, 1⟩ = false) (b : Byte) :
    hostStored a b s = s.mem.write a b := by
  simp [hostStored, hd]

/-- Settles O21: the checks let the access through, and on ordinary memory the host sees and stores the byte itself. -/
theorem hostAccessElsewhereProceeds : Obligations.HostAccessElsewhereProceeds := by
  intro s a b hm ha ho hfree
  obtain ⟨hd, hu, -⟩ := State.ordinary_iff.1 ho
  refine ⟨?_, s.withMem (s.mem.write a b), ?_, rfl, fun a' => Memory.read_write hm a a' b⟩
  · rw [hostOp_memRead ha hfree hu, hostByte_ordinary ho]
    rfl
  · rw [hostOp_memWrite ha hfree hu, hostStored_noDevice hd]

/-- Settles O22: the checks of an access in their order, then what the host sees and stores on a device and where
another agent writes. -/
theorem hostAccessOutsideOrdinaryMemory : Obligations.HostAccessOutsideOrdinaryMemory := by
  intro s a b
  refine ⟨fun ha => ?_, fun ha hc => ?_, fun ha hfree => ⟨fun hu => ?_, fun hu hd => ?_, fun hu hd hs => ?_⟩⟩
  · exact hostOp_memory_stops (hostAccess_beyond ha) b
  · exact hostOp_memory_stops (hostAccess_claimed ha (List.any_eq_true.2 hc)) b
  · exact hostOp_memory_stops (fun k => (hostAccess_free ha hfree k).trans (if_pos hu)) b
  · rw [hostOp_memRead ha hfree hu, hostOp_memWrite ha hfree hu, hostByte_device hd, hostStored_device hd]
    exact ⟨rfl, rfl⟩
  · rw [hostOp_memRead ha hfree hu, hostOp_memWrite ha hfree hu, hostByte_shared hd hs,
      hostStored_noDevice hd]
    exact ⟨rfl, rfl⟩

end Sys2Proof.Machine
end

section
/-! SUPPORT. The stages before a command's own rule: the span range (R58) and the refusals of R56 and R148, and the
event by which the commands of the other instances change (R148). -/

namespace Sys2Proof.Machine

open Sys2Proof

/-! ### The stages of a command (R80) -/

/-- A checked span out of range ends the command before anything else is looked at (R58). -/
theorem exec_outOfRange {i : Instr} {s : State} {sp : Span} (hsp : sp ∈ checkedSpans i s)
    (hout : 2 ^ s.cfg.addrW < sp.start + sp.len) : exec i s = .next (s.complete .addressRange) := by
  rw [exec_eq_stages, runStages_eq_next]
  refine .inl ⟨List.all_eq_false.2 ⟨sp, hsp, ?_⟩, rfl⟩
  rw [Span.inRange_iff]
  omega

/-- Settles O27: every alternative names a checked span of the command. -/
theorem spansOutOfRangeEndWithAddressRange : Obligations.SpansOutOfRangeEndWithAddressRange := by
  intro s
  have either : ∀ (i : Instr) (x y : Span), checkedSpans i s = [x, y] →
      2 ^ s.cfg.addrW < x.start + x.len ∨ 2 ^ s.cfg.addrW < y.start + y.len →
      exec i s = .next (s.complete .addressRange) := by
    rintro i x y hc (hout | hout)
    · exact exec_outOfRange (hc ▸ .head _) hout
    · exact exec_outOfRange (hc ▸ .tail _ (.head _)) hout
  exact ⟨exec_outOfRange (i := .crcSpan) (.head _), either .append s.srcSpan s.dstSpan rfl,
    either .serEnc s.paySpan s.dstSpan rfl, either .serDec s.srcSpan s.payArea rfl,
    either .radEnc s.paySpan s.dstSpan rfl, either .radDec s.srcSpan s.payArea rfl⟩

theorem State.touches_iff {s : State} {k : RegionKind} {sp : Span} :
    s.touches k sp = true ↔ ∃ r ∈ s.regions, r.kind = k ∧ r.span.overlaps sp = true := by
  simp [State.touches]

/-- A command running elsewhere stands in the way of this one: one of the two writes what the other reads or
writes (R148). -/
theorem State.claimed_iff {s : State} {reads writes : List Span} : s.claimed reads writes = true ↔
    ∃ c ∈ s.others, (∃ sp ∈ writes, c.span.overlaps sp = true) ∨
      (c.writes = true ∧ ∃ sp ∈ reads, c.span.overlaps sp = true) := by
  simp [State.claimed]

section stages
variable {i : Instr} {s : State} (hr : ∀ sp ∈ checkedSpans i s, sp.inRange s.cfg.addrW = true)
  (ho : spansOverlap i s = false)
include hr ho

/-- In range and apart, a command goes on to the refusals of R56 and R148. -/
theorem exec_inRange_apart : exec i s =
    if (checkedSpans i s).any (fun sp => s.touches .device sp) then .refused .deviceSpan
    else if s.claimed (readSpans i s) (writeSpans i s) then .refused .otherInstance
    else operation i s := by
  rw [exec_eq_stages, runStages, List.all_eq_true.2 hr, ho]
  rfl

theorem exec_deviceSpan (hd : ∃ sp ∈ checkedSpans i s, s.touches .device sp = true) :
    exec i s = .refused .deviceSpan := by
  rw [exec_inRange_apart hr ho, if_pos (List.any_eq_true.2 hd)]

theorem exec_otherInstance (hd : ∀ sp ∈ checkedSpans i s, s.touches .device sp = false)
    (hc : s.claimed (readSpans i s) (writeSpans i s) = true) : exec i s = .refused .otherInstance := by
  have hno : (checkedSpans i s).any (fun sp => s.touches .device sp) = false :=
    List.any_eq_false.2 fun sp hsp => Bool.eq_false_iff.1 (hd sp hsp)
  rw [exec_inRange_apart hr ho, hno, hc]
  rfl

end stages

/-! ### Other instances (R148) -/

/-- The event is refused if the new claims collide with each other or a claim with the running command. -/
theorem hostOp_claims_refused {s : State} {cs : List Claim}
    (h : claimsCollide cs = true ∨ runningCollides cs s = true) (written : List Host.Cell) :
    hostOp (.claims cs written) s = .refused .otherInstance :=
  if_pos (Bool.or_eq_true_iff.2 h)

/-- Otherwise the claims are recorded and the bytes the others have written are stored. -/
theorem hostOp_claims_next {s : State} {cs : List Claim} (hc : claimsCollide cs = false)
    (hr : runningCollides cs s = false) (written : List Host.Cell) :
    hostOp (.claims cs written) s = .next { s with others := cs, mem := s.otherWrites written s.mem } :=
  if_neg (by simp [hc, hr])

/-- Two spans that hold the same address overlap (R19). -/
theorem Span.overlaps_of_contains {x y : Span} {a : Nat} (hx : x.contains a = true) (hy : y.contains a = true) :
    x.overlaps y = true :=
  Span.overlaps_iff_share.2 ⟨a, Span.contains_iff.1 hx, Span.contains_iff.1 hy⟩

/-- While no claim collides with the running command, no byte of its spans is in a write claim. -/
theorem writeClaimed_of_running {s : State} {cs : List Claim} {i : Instr} {sp : Span} {a : Nat}
    (hno : runningCollides cs s = false) (hb : s.busy = true) (hi : decode s.pending = .ok i)
    (hsp : sp ∈ readSpans i s ++ writeSpans i s) (ha : sp.contains a = true) : s.writeClaimed a = false := by
  by_contra hw
  obtain ⟨-, c, hc, hcw, hca⟩ := State.writeClaimed_iff.1 (Bool.eq_true_of_not_eq_false hw)
  have hov : c.span.overlaps sp = true := Span.overlaps_of_contains hca ha
  refine Bool.eq_false_iff.1 hno (runningCollides_iff.2 ⟨hb, i, hi, c, List.mem_append_left _ hc, ?_⟩)
  rcases List.mem_append.1 hsp with hsp | hsp
  · exact .inr ⟨hcw, sp, hsp, hov⟩
  · exact .inl ⟨sp, hsp, hov⟩

/-- Settles O29: a command by the two refusals in their order, the event by its two collisions and by the bytes it
stores. -/
theorem deviceSpansAndOtherInstancesAreRefused : Obligations.DeviceSpansAndOtherInstancesAreRefused := by
  refine ⟨fun s i hr ho => ⟨?_, fun hno hc => ?_⟩, fun s cs written => ⟨fun hp => ?_, ?_, ?_⟩⟩
  · rintro ⟨sp, hsp, hd⟩
    exact exec_deviceSpan hr ho ⟨sp, hsp, State.touches_iff.2 hd⟩
  · refine exec_otherInstance hr ho (fun sp hsp => ?_) (State.claimed_iff.2 hc)
    rw [Bool.eq_false_iff, Ne, State.touches_iff]
    rintro ⟨r, hr, hk, hov⟩
    exact Bool.eq_false_iff.1 (hno sp hsp r hr hk) hov
  · exact hostOp_claims_refused (.inl (claimsCollide_iff.2 hp)) written
  · intro i hb hi hc
    exact hostOp_claims_refused (.inr (runningCollides_iff.2 ⟨hb, i, hi, hc⟩)) written
  · intro hm hpair hfree
    have hcs : claimsCollide cs = false := by rwa [Bool.eq_false_iff, Ne, claimsCollide_iff]
    have hrun : runningCollides cs s = false := by
      rw [Bool.eq_false_iff, Ne, runningCollides_iff]
      rintro ⟨hb, i, hi, c, hc, hcol⟩
      exact hfree hb i hi c hc hcol
    refine ⟨_, hostOp_claims_next hcs hrun written, rfl, ?_, fun a ha => ?_, fun i hb hi sp hsp a ha => ?_⟩
    · rintro a b before after rfl hlast hw ha
      exact State.read_otherWrites_in hm (State.writeClaimed_iff.2 ⟨ha, hw⟩) hlast
    · refine State.read_otherWrites_out hm (ha.imp_left fun hw => ?_)
      rw [Bool.eq_false_iff, Ne, State.writeClaimed_iff]
      exact fun h => hw h.2
    · exact State.read_otherWrites_out hm (.inl (writeClaimed_of_running hrun hb hi hsp ha))

end Sys2Proof.Machine
end

section
/-! SUPPORT. Accesses the platform does not complete (R57). A command's own rule answers a next state or is stuck, so
it is stuck wherever an access is missing that every next state needs; what a next state needs is read off from the
rule, once for each command. -/

namespace Sys2Proof.Machine

open Sys2Proof

/-! ### A next state or stuck -/

/-- The only reason for giving no value is an access that is not completed (R57). -/
def StuckOrNext {α : Type} (x : Res α) : Prop := (∃ a, x = .next a) ∨ x = .fault .accessNotCompleted

theorem StuckOrNext.next {α : Type} (a : α) : StuckOrNext (.next a : Res α) := .inl ⟨a, rfl⟩

theorem StuckOrNext.chain {α β : Type} {x : Res α} {f : α → Res β} (hx : StuckOrNext x)
    (hf : ∀ a, StuckOrNext (f a)) : StuckOrNext (andThen x f) := by
  rcases hx with ⟨a, rfl⟩ | rfl
  · exact hf a
  · exact .inr rfl

theorem StuckOrNext.ite {α : Type} {c : Prop} [Decidable c] {x y : Res α} (hx : StuckOrNext x)
    (hy : StuckOrNext y) : StuckOrNext (if c then x else y) := by
  split
  · exact hx
  · exact hy

/-- Stuck, if a next state would need a completed access that is missing. -/
theorem StuckOrNext.stuck {α : Type} {x : Res α} (h : StuckOrNext x) (hno : ∀ a, x ≠ .next a) :
    x = .fault .accessNotCompleted :=
  h.resolve_left fun ⟨a, ha⟩ => hno a ha

theorem readByte_stuckOrNext (k a : Nat) (s : State) : StuckOrNext (readByte k a s) :=
  .ite (.inr rfl) (.next _)

theorem readBytes_stuckOrNext (k a n : Nat) (s : State) : StuckOrNext (readBytes k a n s) :=
  .ite (.inr rfl) (.next _)

theorem writeBytes_stuckOrNext (a : Nat) (bs : List Byte) (s : State) : StuckOrNext (writeBytes a bs s) :=
  .ite (.inr rfl) (.next _)

theorem boundedAppend_stuckOrNext {source : Res (List Byte)} (hs : StuckOrNext source) (d cap off k : Nat)
    (s : State) : StuckOrNext (boundedAppend d cap off k source s) :=
  .ite (.next _) (.ite (.next _) (hs.chain fun _ => (writeBytes_stuckOrNext ..).chain fun _ => .next _))

theorem appendSource_stuckOrNext (s : State) : StuckOrNext (appendSource s) :=
  (boundedAppend_stuckOrNext (readBytes_stuckOrNext ..) ..).chain fun
    | (false, _, _) => .next _
    | (true, _, _) => .next _

theorem encodeTrailer_stuckOrNext (d cap off : Nat) (s : State) : StuckOrNext (encodeTrailer d cap off s) :=
  (readBytes_stuckOrNext ..).chain fun _ => (boundedAppend_stuckOrNext (.next _) ..).chain fun
    | (false, _, _) => .next _
    | (true, _, _) => .next _

theorem encodeFrame_stuckOrNext (p : Profile) (s : State) : StuckOrNext (encodeFrame p s) :=
  .ite (.next _) <| (writeBytes_stuckOrNext ..).chain fun _ =>
    (boundedAppend_stuckOrNext (readBytes_stuckOrNext ..) ..).chain fun
      | (false, _, _) => .next _
      | (true, _, _) => encodeTrailer_stuckOrNext ..

theorem decodeIds_stuckOrNext (p : Profile) (k : Nat) (s : State) : StuckOrNext (decodeIds p k s) := by
  cases p with
  | serial => exact .next _
  | radio =>
    exact (readByte_stuckOrNext ..).chain fun _ => (readByte_stuckOrNext ..).chain fun _ =>
      (readByte_stuckOrNext ..).chain fun _ => .next _

theorem decodeAccept_stuckOrNext (p : Profile) (k : Nat) (kind len : Byte) (s : State) :
    StuckOrNext (decodeAccept p k kind len s) :=
  (readBytes_stuckOrNext ..).chain fun _ => (writeBytes_stuckOrNext ..).chain fun _ =>
    (decodeIds_stuckOrNext ..).chain fun _ => .next _

theorem decodeFrame_stuckOrNext (p : Profile) (s : State) : StuckOrNext (decodeFrame p s) :=
  .ite (.next _) <| (readByte_stuckOrNext ..).chain fun _ => .ite (.next _) <|
    (readByte_stuckOrNext ..).chain fun _ => (readByte_stuckOrNext ..).chain fun _ =>
    (readBytes_stuckOrNext ..).chain fun _ => .ite (.next _) <|
    (readByte_stuckOrNext ..).chain fun _ => .ite (.next _) <|
    (readByte_stuckOrNext ..).chain fun _ => .ite (.next _) (decodeAccept_stuckOrNext ..)

/-! ### The accesses a next state needs -/

variable {s t : State} {p : Profile}

/-- An APPEND that fits has read its source and written where it goes (R107). -/
theorem appendSource_accesses (h : appendSource s = .next t) (hpos : 0 < s.srcLen.toNat)
    (hfits : s.dstOff.toNat + s.srcLen.toNat ≤ s.dstLen.toNat) :
    s.touches .unmapped s.srcSpan = false ∧ s.touches .unmapped s.appendSpan = false := by
  obtain ⟨r, hr, -⟩ := andThen_eq_next.1 h
  rcases boundedAppend_eq_next.1 hr with ⟨h0, -⟩ | ⟨-, hgt, -⟩ | ⟨-, -, bs, hbs, hdst, -⟩
  · omega
  · omega
  · obtain ⟨hsrc, rfl⟩ := readBytes_eq_next.1 hbs
    rw [State.length_bytes] at hdst
    exact ⟨hsrc, hdst⟩

/-- A trailer that fits has written its two bytes (R111). -/
theorem encodeTrailer_accesses {u : State} {d cap off : Nat} (h : encodeTrailer d cap off u = .next t)
    (hreg : u.regions = s.regions) (hfits : off + 2 ≤ cap) : s.touches .unmapped ⟨d + off, 2⟩ = false := by
  obtain ⟨frame, -, h⟩ := andThen_eq_next.1 h
  obtain ⟨r, hr, -⟩ := andThen_eq_next.1 h
  rcases boundedAppend_eq_next.1 hr with ⟨h0, -⟩ | ⟨-, hgt, -⟩ | ⟨-, -, bs, hbs, hdst, -⟩
  · cases h0
  · omega
  · cases hbs
    exact (State.touches_congr hreg _ _).symm.trans hdst

/-- The payload and the checksum, as far as they fit, have been read and written (R113, R123). -/
theorem encodePayload_accesses (h : encodePayload p s = .next t)
    (hfits : p.hdrLen + s.recLen.toNat ≤ s.dstLen.toNat) :
    s.touches .unmapped s.paySpan = false ∧
    s.touches .unmapped ⟨s.dstAddr.toNat + p.hdrLen, s.recLen.toNat⟩ = false ∧
    (p.hdrLen + s.recLen.toNat + 2 ≤ s.dstLen.toNat →
      s.touches .unmapped ⟨s.dstAddr.toNat + (p.hdrLen + s.recLen.toNat), 2⟩ = false) := by
  obtain ⟨r, hr, h⟩ := andThen_eq_next.1 h
  rcases boundedAppend_eq_next.1 hr with ⟨h0, rfl⟩ | ⟨-, hgt, -⟩ | ⟨-, -, bs, hbs, hdst, rfl⟩
  · rw [State.paySpan, h0]
    exact ⟨s.touches_empty .., s.touches_empty .., encodeTrailer_accesses h rfl⟩
  · omega
  · obtain ⟨hpay, rfl⟩ := readBytes_eq_next.1 hbs
    rw [State.length_bytes] at hdst
    exact ⟨hpay, hdst, encodeTrailer_accesses h rfl⟩

/-- An encoder has made every access its capacity lets it reach: the header, the payload, the checksum. -/
theorem encodeFrame_accesses (h : encodeFrame p s = .next t) (hcap : p.hdrLen ≤ s.dstLen.toNat) :
    s.touches .unmapped ⟨s.dstAddr.toNat, p.hdrLen⟩ = false ∧
    (p.hdrLen + s.recLen.toNat ≤ s.dstLen.toNat → s.touches .unmapped s.paySpan = false ∧
      s.touches .unmapped ⟨s.dstAddr.toNat, p.hdrLen + s.recLen.toNat⟩ = false) ∧
    (p.hdrLen + s.recLen.toNat + 2 ≤ s.dstLen.toNat →
      s.touches .unmapped ⟨s.dstAddr.toNat, p.hdrLen + s.recLen.toNat + 2⟩ = false) := by
  rw [encodeFrame, if_neg (by omega)] at h
  obtain ⟨u, hu, h⟩ := andThen_eq_next.1 h
  obtain ⟨hhdr, rfl⟩ := writeBytes_eq_next.1 hu
  rw [Profile.length_header] at hhdr
  refine ⟨hhdr, fun hfits => ?_, fun hfits => ?_⟩
  · obtain ⟨hpay, hdst, -⟩ := encodePayload_accesses h hfits
    exact ⟨hpay, by rw [State.touches_add, hhdr]; exact hdst⟩
  · obtain ⟨-, hdst, hsum⟩ := encodePayload_accesses h (by simp; omega)
    rw [State.touches_add, State.touches_add, hhdr]
    exact Bool.or_eq_false_iff.2 ⟨hdst, hsum hfits⟩

/-- A decoder given a frame no shorter than the minimum has read byte 0, and the whole frame if that is the magic. -/
theorem decodeFrame_accesses (h : decodeFrame p s = .next t) (hL : p.minLen ≤ s.srcLen.toNat) :
    s.touches .unmapped ⟨s.srcAddr.toNat, 1⟩ = false ∧
    (s.byteAt 0 s.srcAddr.toNat = p.magic s.cfg → s.touches .unmapped s.srcSpan = false) := by
  rw [decodeFrame, if_neg (by omega)] at h
  obtain ⟨magic, hmagic, h⟩ := andThen_eq_next.1 h
  obtain ⟨hfirst, rfl⟩ := readByte_eq_next.1 hmagic
  refine ⟨hfirst, fun hm => ?_⟩
  rw [if_neg (not_not.2 hm)] at h
  obtain ⟨low, hlow, h⟩ := andThen_eq_next.1 h
  obtain ⟨high, hhigh, h⟩ := andThen_eq_next.1 h
  obtain ⟨body, hbody, -⟩ := andThen_eq_next.1 h
  obtain ⟨hlow, -⟩ := readByte_eq_next.1 hlow
  obtain ⟨hhigh, -⟩ := readByte_eq_next.1 hhigh
  obtain ⟨hbody, -⟩ := readBytes_eq_next.1 hbody
  have hmin := p.minLen_eq
  obtain ⟨n, hn⟩ : ∃ n, s.srcLen.toNat = n + 1 + 1 := ⟨s.srcLen.toNat - 2, by omega⟩
  rw [hn] at hlow hhigh hbody
  rw [State.srcSpan, hn, State.touches_add, State.touches_add]
  exact Bool.or_eq_false_iff.2 ⟨Bool.or_eq_false_iff.2 ⟨hbody, hlow⟩, hhigh⟩

/-- A decoder that accepts has written the payload (R116, R126). -/
theorem decodeAccept_accesses {k : Nat} {kind len : Byte} {wc : Half}
    (h : decodeAccept p k kind len (s.withWorkCrc wc) = .next t) :
    s.touches .unmapped ⟨s.payAddr.toNat, len.toNat⟩ = false := by
  obtain ⟨payload, hpayload, h⟩ := andThen_eq_next.1 h
  obtain ⟨u, hu, -⟩ := andThen_eq_next.1 h
  obtain ⟨-, rfl⟩ := readBytes_eq_next.1 hpayload
  obtain ⟨hpay, -⟩ := writeBytes_eq_next.1 hu
  rw [State.length_bytes] at hpay
  exact hpay

/-- A frame on ordinary memory that passes every stage goes on to acceptance. -/
theorem decodeFrame_eq_accept (hs : s.ordinary s.srcSpan = true) (hv : p.verdict s.cfg s.frame = .ok) :
    ∃ k kind len wc, len.toNat = s.srcLen.toNat - p.minLen ∧
      decodeFrame p s = decodeAccept p k kind len (s.withWorkCrc wc) := by
  obtain ⟨hL, hmagic, hsum, hkind, hlen⟩ := frameVerdict_eq_ok.1 hv
  rw [State.length_frame] at hL
  have hlen' := hlen
  rw [State.length_frame] at hlen'
  refine ⟨s.srcLen.toNat + 1 + 1 + 1, s.frame.getD p.kindAt 0#8, s.frame.getD p.lenAt 0#8,
    checksum (s.frame.take (s.frame.length - 2)), hlen', ?_⟩
  rw [decodeFrame_stages hs, if_neg (by simpa using hL), if_neg (not_not.2 hmagic), if_neg (not_not.2 hsum),
    decodeKind_frame hs hL, if_neg (Nat.not_le.2 hkind), decodeLength_frame hs hL, if_neg (not_not.2 hlen)]

/-! ### CRC_SPAN (R101) -/

/-- bytes(a, n) as a list over the offsets. -/
theorem State.bytes_eq_map (s : State) (k a n : Nat) :
    s.bytes k a n = (List.range n).map fun j => s.byteAt (k + j) (a + j) := by
  induction n generalizing k a with
  | zero => rfl
  | succ n ih =>
    rw [State.bytes, ih, List.range_succ_eq_map, List.map_cons, List.map_map]
    simp [Function.comp_def, Nat.add_comm, Nat.add_left_comm]

/-- Settles O30: the one read of CRC_SPAN is not completed, or answers a byte for each offset. -/
theorem uncompletedReadsAreStuckAndSharedOnesFree : Obligations.UncompletedReadsAreStuckAndSharedOnesFree := by
  intro s hpass
  rw [exec_passed hpass, operation, checksumSpan]
  refine ⟨fun hu => ?_, fun hu => ?_⟩
  · have hread : readBytes 0 s.srcAddr.toNat s.srcLen.toNat s = .fault .accessNotCompleted := if_pos hu
    rw [hread, andThen_fault]
  · rw [readBytes_eq_next.2 ⟨hu, rfl⟩, andThen_next, State.bytes_eq_map]
    simp only [Nat.zero_add]
    rfl

/-! ### The other commands that access data memory -/

/-- A command let through is stuck if its own rule gives no next state. -/
theorem exec_stuck {i : Instr} (hpass : s.passed i = true) (h : StuckOrNext (operation i s))
    (hno : ∀ t, operation i s ≠ .next t) : exec i s = .fault .accessNotCompleted :=
  (exec_passed hpass).trans (h.stuck hno)

/-- Both encoders: a missing access within the capacity leaves no next state. -/
theorem encoder_stuck {i : Instr} (hop : operation i s = encodeFrame p s) (hpass : s.passed i = true) :
    (p.hdrLen ≤ s.dstLen.toNat → s.touches .unmapped ⟨s.dstAddr.toNat, p.hdrLen⟩ = true →
      exec i s = .fault .accessNotCompleted) ∧
    (p.hdrLen + s.recLen.toNat ≤ s.dstLen.toNat → s.touches .unmapped s.paySpan = true ∨
      s.touches .unmapped ⟨s.dstAddr.toNat, p.hdrLen + s.recLen.toNat⟩ = true →
      exec i s = .fault .accessNotCompleted) ∧
    (p.hdrLen + s.recLen.toNat + 2 ≤ s.dstLen.toNat →
      s.touches .unmapped ⟨s.dstAddr.toNat, p.hdrLen + s.recLen.toNat + 2⟩ = true →
      exec i s = .fault .accessNotCompleted) := by
  have stuck := exec_stuck hpass (hop ▸ encodeFrame_stuckOrNext p s)
  rw [hop] at stuck
  refine ⟨fun hcap hu => stuck fun t h => ?_, fun hcap hu => stuck fun t h => ?_, fun hcap hu => stuck fun t h => ?_⟩
  · obtain ⟨hhdr, -⟩ := encodeFrame_accesses h hcap
    simp [hhdr] at hu
  · obtain ⟨-, hbody, -⟩ := encodeFrame_accesses h (by omega)
    simp [hbody hcap] at hu
  · obtain ⟨-, -, hsum⟩ := encodeFrame_accesses h (by omega)
    simp [hsum hcap] at hu

/-- Both decoders: a missing access in the frame, or where an accepted payload goes, leaves no next state. -/
theorem decoder_stuck {i : Instr} (hop : operation i s = decodeFrame p s) (hpass : s.passed i = true)
    (hL : p.minLen ≤ s.srcLen.toNat) :
    (s.touches .unmapped ⟨s.srcAddr.toNat, 1⟩ = true → exec i s = .fault .accessNotCompleted) ∧
    (s.byteAt 0 s.srcAddr.toNat = p.magic s.cfg → s.touches .unmapped s.srcSpan = true →
      exec i s = .fault .accessNotCompleted) ∧
    (s.ordinary s.srcSpan = true → p.verdict s.cfg s.frame = .ok →
      s.touches .unmapped ⟨s.payAddr.toNat, s.srcLen.toNat - p.minLen⟩ = true →
      exec i s = .fault .accessNotCompleted) := by
  have stuck := exec_stuck hpass (hop ▸ decodeFrame_stuckOrNext p s)
  rw [hop] at stuck
  refine ⟨fun hu => stuck fun t h => ?_, fun hmagic hu => stuck fun t h => ?_,
    fun hs hv hu => stuck fun t h => ?_⟩
  · obtain ⟨hfirst, -⟩ := decodeFrame_accesses h hL
    simp [hfirst] at hu
  · obtain ⟨-, hall⟩ := decodeFrame_accesses h hL
    simp [hall hmagic] at hu
  · obtain ⟨k, kind, len, wc, hlen, haccept⟩ := decodeFrame_eq_accept hs hv
    have hpay : s.touches .unmapped ⟨s.payAddr.toNat, len.toNat⟩ = false := decodeAccept_accesses (haccept ▸ h)
    rw [hlen, hu] at hpay
    cases hpay

/-- Settles O31: each command by the accesses that its next states need. -/
theorem uncompletedAccessesAreStuck : Obligations.UncompletedAccessesAreStuck := by
  intro s
  refine ⟨fun hpass hpos hfits hu => ?_, encoder_stuck rfl (p := .serial), encoder_stuck rfl (p := .radio),
    decoder_stuck rfl (p := .serial), decoder_stuck rfl (p := .radio)⟩
  refine exec_stuck hpass (appendSource_stuckOrNext s) fun t h => ?_
  obtain ⟨hsrc, hdst⟩ := appendSource_accesses h hpos hfits
  rw [State.srcSpan] at hsrc
  rw [State.appendSpan] at hdst
  simp [hsrc, hdst] at hu

end Sys2Proof.Machine
end

section
/-! SUPPORT. What a command may touch (R48, R67): it stores bytes in its write spans only, it learns from memory only
its input spans, and while it runs no step changes what it works on. -/

namespace Sys2Proof.Machine

open Sys2Proof

/-! ### The bytes a command writes (R48, column "writes") -/

/-- A command leaves the memory as it was, or stores bytes at the start of a write span that holds them all. -/
theorem exec_mem_cases {i : Instr} {s t : State} (h : exec i s = .next t) :
    t.mem = s.mem ∨ ∃ sp ∈ writeSpans i s, ∃ bs : List Byte, bs.length ≤ sp.len ∧
      t.mem = s.mem.writeList sp.start bs := by
  rcases exec_eq_next h with rfl | ⟨-, -, h⟩
  · exact .inl rfl
  cases i with
  | crcInit | crcByte | crcSpan | kindCheck =>
    obtain rfl := h
    exact .inl rfl
  | append =>
    rcases h with ⟨-, rfl⟩ | ⟨-, -, rfl⟩ | ⟨-, hfits, rfl⟩
    · exact .inl rfl
    · exact .inl rfl
    · exact .inr ⟨s.appendSpan, by simp [writeSpans, hfits], _, (State.length_bytes ..).le, rfl⟩
  | serEnc | radEnc =>
    obtain ⟨w, _, _, -, hlen, ht⟩ := h
    refine .inr ⟨_, .head _, w, ?_, by rcases ht with rfl | rfl <;> rfl⟩
    simp only [Profile.hdrLen] at hlen
    simp only
    omega
  | serDec | radDec =>
    rcases h with ⟨_, _, -, rfl⟩ | ⟨_, payload, _, _, _, _, len, hmin, hlen, hpay, rfl⟩
    · exact .inl rfl
    · have hlt := len.isLt
      simp only [Profile.minLen] at hmin hlen
      refine .inr ⟨⟨s.payAddr.toNat, len.toNat⟩, ?_, payload, hpay.le, rfl⟩
      rw [writeSpans, if_pos (by omega), hlen]
      exact .head _

/-- Settles O53: the stored bytes lie in a write span, and outside them the memory reads as before. -/
theorem commandsWriteOnlyTheirSpans : Obligations.CommandsWriteOnlyTheirSpans := by
  intro i s t hm h a hout
  rcases exec_mem_cases h with hmem | ⟨sp, hsp, bs, hlen, hmem⟩ <;> rw [hmem]
  refine Memory.read_writeList_out hm sp.start bs ?_
  have hnot : ¬ (sp.start ≤ a ∧ a < sp.start + sp.len) :=
    Span.contains_iff.not.1 (Bool.eq_false_iff.1 (hout sp hsp))
  omega

/-! ### The bytes a command learns (R48, column "reads") -/

section agree
variable {m m' : Memory} {P : Nat → Prop} {s s' : State} (h : Agree m m' P s s')
include h

theorem Agree.withCrcAcc (v : Half) : Agree m m' P (s.withCrcAcc v) (s'.withCrcAcc v) :=
  h.update (fun s => s.withCrcAcc v) (fun _ _ => rfl) fun _ => rfl

theorem Agree.withDstOff (v : Half) : Agree m m' P (s.withDstOff v) (s'.withDstOff v) :=
  h.update (fun s => s.withDstOff v) (fun _ _ => rfl) fun _ => rfl

/-- CRC_SPAN learns only its source span (R101). -/
theorem checksumSpan_agrees (hs : ∀ j, j < s.srcLen.toNat → P (s.srcAddr.toNat + j)) :
    AgreeRes m m' P (checksumSpan s) (checksumSpan s') := by
  unfold checksumSpan
  rw [h.srcAddr, h.srcLen]
  exact .read (h.readBytes hs) fun bs => (h.withCrcAcc _).raise .ok

/-- APPEND learns only its source span (R107). -/
theorem appendSource_agrees (hs : ∀ j, j < s.srcLen.toNat → P (s.srcAddr.toNat + j)) :
    AgreeRes m m' P (appendSource s) (appendSource s') := by
  have hoff : s'.dstOff = s.dstOff := h.field State.dstOff fun _ _ => rfl
  unfold appendSource
  rw [h.srcAddr, h.srcLen, h.dstAddr, h.dstLen, hoff]
  refine AgreeAppend.chain (h.append fun _ => h.readBytes hs) ?_
  rintro (_ | _) off t t' - ht
  · exact ht.raise .bufferTooSmall
  · exact (ht.withDstOff _).raise .ok

/-- KIND_CHECK learns nothing from memory (R131). -/
theorem checkKind_agrees : AgreeRes m m' P (checkKind s) (checkKind s') := by
  have hkind : s'.recKind = s.recKind := h.field State.recKind fun _ _ => rfl
  unfold checkKind
  rw [h.cfg, hkind]
  exact .ite (h.raise .ok) (h.raise .invalidMessageKind)

/-- A command's own rule learns only the command's input spans. -/
theorem operation_agrees {i : Instr}
    (hin : ∀ sp ∈ inputSpans i s, ∀ j, j < sp.len → P (sp.start + j)) :
    AgreeRes m m' P (operation i s) (operation i s') := by
  cases i with
  | crcInit => exact (h.withCrcAcc _).raise .ok
  | crcByte b =>
    have hacc : s'.crcAcc = s.crcAcc := h.field State.crcAcc fun _ _ => rfl
    simp only [operation, hacc]
    exact (h.withCrcAcc _).raise .ok
  | crcSpan => exact checksumSpan_agrees h (hin s.srcSpan (.head _))
  | append => exact appendSource_agrees h (hin s.srcSpan (.head _))
  | serEnc | radEnc => exact encodeFrame_agrees h (hin s.paySpan (.head _))
  | serDec | radDec => exact decodeFrame_agrees h (hin s.srcSpan (.head _))
  | kindCheck => exact checkKind_agrees h

/-- The stages before it look at registers, regions and claims only. -/
theorem runStages_agrees {i : Instr} {op : State → Res State} (hop : AgreeRes m m' P (op s) (op s')) :
    AgreeRes m m' P (runStages i op s) (runStages i op s') := by
  have hchecked : checkedSpans i s' = checkedSpans i s := h.field (checkedSpans i) fun _ _ => by cases i <;> rfl
  have hoverlap : spansOverlap i s' = spansOverlap i s := h.field (spansOverlap i) fun _ _ => by cases i <;> rfl
  have hreads : readSpans i s' = readSpans i s := h.field (readSpans i) fun _ _ => by cases i <;> rfl
  have hwrites : writeSpans i s' = writeSpans i s := h.field (writeSpans i) fun _ _ => by cases i <;> rfl
  have hclaimed : ∀ reads writes, s'.claimed reads writes = s.claimed reads writes := fun reads writes =>
    h.field (fun s => s.claimed reads writes) fun _ _ => rfl
  intro t ht
  rcases runStages_eq_next.1 ht with ⟨hr, rfl⟩ | ⟨hr, ho, hd, hc, ht⟩
  · obtain ⟨t', ht', ha⟩ := h.raise .addressRange _ rfl
    refine ⟨t', runStages_eq_next.2 (.inl ⟨by rwa [hchecked, h.cfg], ?_⟩), ha⟩
    simpa [eq_comm] using ht'
  · obtain ⟨t', ht', ha⟩ := hop t ht
    refine ⟨t', runStages_eq_next.2 (.inr ⟨?_, ?_, ?_, ?_, ht'⟩), ha⟩
    · rwa [hchecked, h.cfg]
    · rwa [hoverlap]
    · simpa only [hchecked, h.touches] using hd
    · rwa [hreads, hwrites, hclaimed]

end agree

/-- Two memories of canonical form that read alike on P agree there. -/
theorem Agree.of_memories {s : State} {m : Memory} {P : Nat → Prop} (hs : s.mem.wf) (hm : m.wf)
    (hP : ∀ a, P a → m.read a = s.mem.read a) : Agree s.mem m P s (s.withMem m) where
  eq := rfl
  wf := hs
  wf' := hm
  read := hP
  rest := fun _ => .inr ⟨rfl, rfl⟩

/-- Settles O54: the states agree on the command's input spans, and every part of the command keeps agreement. -/
theorem commandsReadOnlyTheirSpans : Obligations.CommandsReadOnlyTheirSpans := by
  intro i s t m hs hm hread h
  have hagree : Agree s.mem m (fun a => ∃ sp ∈ inputSpans i s, sp.contains a = true) s (s.withMem m) :=
    .of_memories hs hm fun a ⟨sp, hsp, ha⟩ => hread sp hsp a ha
  have hop := operation_agrees hagree (i := i) fun sp hsp j hj =>
    ⟨sp, hsp, Span.contains_iff.2 ⟨by omega, by omega⟩⟩
  rw [exec_eq_stages] at h
  obtain ⟨t', ht', ha⟩ := runStages_agrees hagree hop t h
  exact ⟨t', (exec_eq_stages i _).trans ht', ha.eq, ha.rest⟩

/-! ### While a command runs (R67, R80) -/

/-- After a reset the engine is idle (R153). -/
theorem hostOp_resetInput_busy {s t : State} (h : hostOp .resetInput s = .next t) : t.busy = false := by
  obtain ⟨-, rfl⟩ | ⟨-, rfl⟩ := hostOp_eq_next h <;> rfl

/-- Settles O58: the engine and a reset leave BUSY = 0, a register write needs BUSY = 0 before it, and any other step
touches no register. -/
theorem startedCommandsAreFixed : Obligations.StartedCommandsAreFixed := by
  intro s t h hs ht
  rcases step_register_cases h with ⟨-, -, hengine⟩ | ⟨⟨hm, rest, hbus⟩, -⟩ | ⟨_, _, _, -, -, hidle, -⟩ | hsame
  · obtain ⟨hidle, -⟩ := engineStep_status hengine
    exact absurd ht (by simp [hidle])
  · rw [hostStepRunsItsOldestOperation s .resetInput rest hm hbus] at h
    exact absurd ht (by simp [hostOp_resetInput_busy h])
  · exact absurd hs (by simp [hidle])
  · exact hsame

end Sys2Proof.Machine
end

section
/-! SUPPORT. The command word (R70 to R73): its four fields make the word, the decoder accepts exactly the encodings,
and every other word is illegal in one of the four ways of R73. -/

namespace Sys2Proof

/-! ### The fields of a word (R70) -/

/-- The four fields, from bit 31 down, are the whole word: none of its bits is dropped. -/
theorem word_eq_fields (w : Word) : w = rsv1Field w ++ imm8Field w ++ rsv0Field w ++ opField w := by
  unfold rsv1Field imm8Field rsv0Field opField
  have join (k m n : Nat) : w.extractLsb' (k + m) n ++ w.extractLsb' k m = w.extractLsb' k (n + m) :=
    BitVec.extractLsb'_append_extractLsb'_eq_extractLsb' rfl
  rw [join 8 8 16, join 4 4 24, join 0 4 28, BitVec.extractLsb'_eq_self]

@[simp] theorem opField_encode (i : Instr) : opField (encode i) = opOf i := BitVec.extractLsb'_append_eq_right

@[simp] theorem rsv0Field_encode (i : Instr) : rsv0Field (encode i) = 0#4 :=
  (BitVec.extractLsb'_append_eq_of_le (by decide)).trans BitVec.extractLsb'_append_eq_right

@[simp] theorem imm8Field_encode (i : Instr) : imm8Field (encode i) = imm8Of i :=
  (BitVec.extractLsb'_append_eq_of_le (by decide)).trans
    ((BitVec.extractLsb'_append_eq_of_le (by decide)).trans BitVec.extractLsb'_append_eq_right)

@[simp] theorem rsv1Field_encode (i : Instr) : rsv1Field (encode i) = 0#16 :=
  (BitVec.extractLsb'_append_eq_of_le (by decide)).trans
    ((BitVec.extractLsb'_append_eq_of_le (by decide)).trans BitVec.extractLsb'_append_eq_left)

/-- A word is a command's encoding iff each of its fields is. -/
theorem eq_encode_iff {w : Word} {i : Instr} : w = encode i ↔
    rsv0Field w = 0#4 ∧ rsv1Field w = 0#16 ∧ opField w = opOf i ∧ imm8Field w = imm8Of i := by
  constructor
  · rintro rfl
    exact ⟨rsv0Field_encode i, rsv1Field_encode i, opField_encode i, imm8Field_encode i⟩
  · rintro ⟨hrsv0, hrsv1, hop, himm⟩
    rw [word_eq_fields w, hrsv0, hrsv1, hop, himm, encode]

/-! ### The opcode map (R71, R72) -/

/-- The map names a command only under the command's own number. -/
theorem eq_opOf_of_opcodeMap {op : BitVec 4} {b : Byte} {i : Instr} (h : opcodeMap op b = some i) : op = opOf i := by
  unfold opcodeMap at h
  split at h <;> cases h <;> exact BitVec.eq_of_toNat_eq ‹_›

/-- Under a command's number the map and the rule for IMM8 leave the command's own IMM8 field: any byte for CRC_BYTE,
zero for the others (R71). -/
theorem opcodeMap_opOf_iff {i : Instr} {b : Byte} :
    (opcodeMap (opOf i) b = some i ∧ (b = 0#8 ∨ opOf i = 0x2#4)) ↔ b = imm8Of i := by
  cases i <;> simp [opcodeMap, opOf, imm8Of]

theorem opcodeMap_eq_some_iff {op : BitVec 4} {b : Byte} {i : Instr} :
    (opcodeMap op b = some i ∧ (b = 0#8 ∨ op = 0x2#4)) ↔ op = opOf i ∧ b = imm8Of i := by
  constructor
  · rintro ⟨hmap, himm⟩
    obtain rfl := eq_opOf_of_opcodeMap hmap
    exact ⟨rfl, opcodeMap_opOf_iff.1 ⟨hmap, himm⟩⟩
  · rintro ⟨rfl, hb⟩
    exact opcodeMap_opOf_iff.2 hb

/-- The map has an entry for the nine numbers from 1 to 9 (R72). -/
theorem exists_opcodeMap_iff {op : BitVec 4} {b : Byte} :
    (∃ i, opcodeMap op b = some i) ↔ 1 ≤ op.toNat ∧ op.toNat ≤ 9 := by
  unfold opcodeMap
  split <;> simp_all
  omega

/-! ### The decoder (R73, R83) -/

/-- A word decodes to a command iff it passes the reserved fields and the IMM8 field, and the map names the command. -/
theorem decode_eq_ok_iff {w : Word} {i : Instr} : decode w = .ok i ↔
    rsv0Field w = 0#4 ∧ rsv1Field w = 0#16 ∧ opcodeMap (opField w) (imm8Field w) = some i ∧
      (imm8Field w = 0#8 ∨ opField w = 0x2#4) := by
  unfold decode
  split <;> rename_i hrsv0
  · simp [hrsv0]
  split <;> rename_i hrsv1
  · simp [hrsv1]
  split <;> rename_i hmap
  · simp [hmap]
  split <;> rename_i himm
  · simp [himm]
  · have himm : imm8Field w = 0#8 ∨ opField w = 0x2#4 := by tauto
    simp [not_not.1 hrsv0, not_not.1 hrsv1, hmap, himm]

/-- Settles O1: a word decodes to a command iff its four fields are the command's, and the fields are the word. -/
theorem decodeAcceptsExactlyTheEncodings : Obligations.DecodeAcceptsExactlyTheEncodings := by
  intro w i
  rw [decode_eq_ok_iff, opcodeMap_eq_some_iff, eq_encode_iff]

@[simp] theorem decode_encode (i : Instr) : decode (encode i) = .ok i :=
  (decodeAcceptsExactlyTheEncodings (encode i) i).2 rfl

/-- The four checks of R73, on the fields by their names. -/
theorem wordWellFormed_iff {w : Word} : wordWellFormed w = true ↔
    (1 ≤ (opField w).toNat ∧ (opField w).toNat ≤ 9) ∧ rsv0Field w = 0#4 ∧ rsv1Field w = 0#16 ∧
      (imm8Field w = 0#8 ∨ opField w = 0x2#4) := by
  simp [wordWellFormed, opDefined, rsv0Zero, rsv1Zero, imm8Allowed, opField, rsv0Field, rsv1Field, imm8Field,
    and_assoc]

/-- Settles O3: the decoder's tests are the four checks, and the map has an entry iff OP is one of the nine. -/
theorem decoderAgreesWithTheWordChecks : Obligations.DecoderAgreesWithTheWordChecks := by
  intro w
  rw [wordWellFormed_iff, ← exists_opcodeMap_iff (b := imm8Field w)]
  simp only [decode_eq_ok_iff, exists_and_left, exists_and_right]
  tauto

/-- The reserved numbers of OP are 0x0 and 0xA to 0xF (R73). -/
theorem op_reserved_iff (op : BitVec 4) : ¬ (1 ≤ op.toNat ∧ op.toNat ≤ 9) ↔
    op = 0x0#4 ∨ op = 0xA#4 ∨ op = 0xB#4 ∨ op = 0xC#4 ∨ op = 0xD#4 ∨ op = 0xE#4 ∨ op = 0xF#4 := by
  revert op
  decide

/-- A word is illegal iff it is no command. -/
theorem decode_error_iff {w : Word} : (∃ e, decode w = .error e) ↔ ¬ ∃ i, decode w = .ok i := by
  cases decode w <;> simp

/-- Settles O2: an illegal word fails one of the four checks, every other word is an encoding, and the engine ends
the command of an illegal word before any other stage. -/
theorem illegalWordsEndWithIllegalCommand : Obligations.IllegalWordsEndWithIllegalCommand := by
  refine ⟨fun w => ?_, fun w => ?_, fun s e he => ?_⟩
  · rw [decode_error_iff, decoderAgreesWithTheWordChecks, wordWellFormed_iff]
    rw [not_and_or, op_reserved_iff, not_and_or, not_and_or, not_or]
    rfl
  · cases h : decode w with
    | error e => exact .inl ⟨e, rfl⟩
    | ok i => exact .inr ⟨i, rfl, (decodeAcceptsExactlyTheEncodings w i).1 h⟩
  · rw [Machine.engineStep, he]
    rfl

/-- Settles O4: each of the nine words, written out, is the encoding of its command. -/
theorem opcodeMapWordsDecode : Obligations.OpcodeMapWordsDecode :=
  ⟨decode_encode .crcInit, decode_encode (.crcByte 0x31#8), decode_encode .crcSpan, decode_encode .append,
    decode_encode .serEnc, decode_encode .serDec, decode_encode .radEnc, decode_encode .radDec,
    decode_encode .kindCheck⟩

end Sys2Proof
end

section
/-! SUPPORT. Who moves and what a turn does (log 3): the engine's turn runs the pending command (R80), the host's turn
starts one by a CMD write (R79) or polls while one runs (R85). -/

namespace Sys2Proof.Machine

open Sys2Proof

/-! ### The engine's turn -/

/-- When the engine moves while BUSY = 1, the step is the engine's with the turn used up (log 3). -/
theorem step_of_engine {s : State} (hm : s.mover = .engine) (hb : s.busy = true) :
    step s = engineStep { s with turns := s.turns.tail } := by
  unfold step runTurn
  unfold State.mover at hm
  split <;> rename_i hturns
  · have hs : { s with turns := s.turns.tail } = s := by rw [hturns, List.tail_nil, ← hturns]
    rw [hs, if_pos hb]
  · rw [hturns]
    exact if_pos hb
  · simp [hturns] at hm

/-- While BUSY = 1 and no turn is listed, the step is the engine's (log 3). -/
theorem step_of_busy {s : State} (hb : s.busy = true) (ht : s.turns = []) : step s = engineStep s := by
  have hm : s.mover = .engine := by simp [State.mover, hb, ht]
  rw [step_of_engine hm hb, ht, List.tail_nil, ← ht]

/-- The engine's step of a legal word is the command's meaning (R80). -/
theorem engineStep_of_decode {s : State} {i : Instr} (hi : decode s.pending = .ok i) : engineStep s = exec i s := by
  rw [engineStep, hi]

/-- Settles O5: the engine's turn is the engine's step, which runs what PENDING decodes to. -/
theorem engineStepRunsThePendingCommand : Obligations.EngineStepRunsThePendingCommand := by
  intro s i hm hb hi
  exact (step_of_engine hm hb).trans (engineStep_of_decode hi)

/-- The engine's step clears BUSY and leaves the host and the schedule alone (R82). -/
theorem engineStep_keeps_host {s t : State} (h : engineStep s = .next t) :
    t.busy = false ∧ t.bus = s.bus ∧ t.turns = s.turns ∧ t.replies = s.replies := by
  rcases engineStep_eq_next h with ⟨-, rfl⟩ | ⟨i, -, h⟩
  · exact ⟨rfl, rfl, rfl, rfl⟩
  · obtain ⟨hbusy, -, -, -, -, -, -, -, -, -, hbus, hturns, hreplies⟩ := exec_keeps h
    exact ⟨hbusy, hbus, hturns, hreplies⟩

/-- The engine completes an illegal command and a ready one (R73, R80). -/
theorem engineStep_completes {s : State} (h : ∀ i, decode s.pending = .ok i → s.ready i = true) :
    ∃ t, engineStep s = .next t := by
  cases hd : decode s.pending with
  | error e =>
    obtain ⟨-, -, hillegal⟩ := illegalWordsEndWithIllegalCommand
    exact ⟨_, hillegal s e hd⟩
  | ok i =>
    rw [engineStep_of_decode hd]
    exact exec_ready_completes (h i hd)

/-! ### Starting a command (R79) -/

/-- Settles O7: the CMD write by the busy bit, then the engine's turn where none is listed. -/
theorem cmdWriteStartsACommand : Obligations.CmdWriteStartsACommand :=
  fun s w => ⟨fun hb => hostOp_portWrite_reg_idle hb w .cmd,
    fun hb => (hostOp_portWrite_reg .cmd w s).trans (if_pos hb), step_of_busy⟩

/-- While BUSY = 0 and no turn is listed, the step is the host's oldest operation (log 3). -/
theorem step_of_idle {s : State} {op : HostOp} {rest : List HostOp} (hb : s.busy = false) (ht : s.turns = [])
    (hbus : s.bus = op :: rest) : step s = hostOp op { s with bus := rest } := by
  have hm : s.mover = .host := by simp [State.mover, hb, ht]
  rw [hostStepRunsItsOldestOperation s op rest hm hbus, ht, List.tail_nil, ← ht]

/-- With no turn listed, a command that has been started runs next (R80). -/
theorem step_startCommand {s : State} (ht : s.turns = []) (i : Instr) :
    step (s.startCommand (encode i)) = exec i (s.startCommand (encode i)) := by
  have hb : (s.startCommand (encode i)).busy = true := rfl
  have hi : decode (s.startCommand (encode i)).pending = .ok i := decode_encode i
  rw [step_of_busy hb ht, engineStep_of_decode hi]

/-- Settles O8: the host's turn is the CMD write of M's word, and then the engine has the turn. -/
theorem cmdStatementRunsItsCommand : Obligations.CmdStatementRunsItsCommand := by
  intro s i rest hb ht hbus
  refine ⟨State.startCommand { s with bus := rest } (encode i), ?_, ?_, ?_⟩
  · exact (step_of_idle hb ht hbus).trans (hostOp_portWrite_reg_idle (by exact hb) (encode i) .cmd)
  · exact step_startCommand (s := { s with bus := rest }) ht i
  · rw [State.startCommand, opField_encode]

/-! ### The loop of `wait` (R85) -/

/-- BUSY is bit 8 of STATUS (R29). -/
theorem statusWord_bit8 (s : State) : s.statusWord.getLsbD 8 = s.busy := by
  obtain ⟨hlayout, -⟩ := statusWordLayout
  obtain ⟨-, -, hbusy, -⟩ := hlayout s
  exact hbusy

/-- The state after `k` polls of the running machine, with the turns that are then left. -/
def State.polled (s : State) (k : Nat) (turns : List Agent) : State :=
  { s with turns := turns, replies := s.replies ++ List.replicate k (.port s.statusWord), draws := s.draws + k }

theorem State.polled_zero (s : State) : s.polled 0 s.turns = s := by simp [State.polled]

theorem State.polled_polled (s : State) (j k : Nat) (turns turns' : List Agent) :
    (s.polled j turns).polled k turns' = s.polled (j + k) turns' := by
  simp [State.polled, State.statusWord, Nat.add_assoc]

/-- Polling touches nothing that decides whether a command is ready. -/
theorem State.polled_ready (s : State) (k : Nat) (turns : List Agent) (i : Instr) :
    (s.polled k turns).ready i = s.ready i := by cases i <;> rfl

/-- STATUS is defined while BUSY = 1 (R161). -/
theorem hostPortRead_status_busy {s : State} (hb : s.busy = true) :
    hostPortRead Reg.status.offset .word s = .next (s.reply (.port s.statusWord)).tick := by
  simp [hostPortRead, portForm_iff.2 ⟨rfl, Reg.status.offset_aligned.1⟩, hb, portValueBusy]

/-- A poll while BUSY = 1 reads STATUS and stays in the queue. -/
theorem hostOp_poll_busy {s : State} (hb : s.busy = true) :
    hostOp .poll s = .next { (s.reply (.port s.statusWord)).tick with bus := .poll :: s.bus } := by
  rw [hostOp, hostPortRead_status_busy hb, andThen_next, if_pos hb]
  rfl

theorem step_poll_busy {s : State} {rest : List HostOp} (hm : s.mover = .host) (hb : s.busy = true)
    (hbus : s.bus = .poll :: rest) : step s = .next (s.polled 1 s.turns.tail) := by
  rw [hostStepRunsItsOldestOperation s .poll rest hm hbus, hostOp_poll_busy (by exact hb), State.polled, hbus]
  rfl

/-- A poll while BUSY = 0 reads STATUS and is done. -/
theorem hostOp_poll_idle {s : State} (hb : s.busy = false) :
    hostOp .poll s = .next (s.reply (.port s.statusWord)) := by
  have hread : hostPortRead Reg.status.offset .word s = .next (s.reply (.port s.statusWord)) :=
    hostOp_portRead_reg hb .status
  simp [hostOp, hread, hb]

/-- As long as the host has the turns, its poll reads BUSY = 1 and stays. -/
theorem runSteps_polls {s : State} {turns : List Agent} {rest : List HostOp} (hb : s.busy = true)
    (hbus : s.bus = .poll :: rest) (n k : Nat) (ht : s.turns = List.replicate k .host ++ turns) :
    runSteps (k + n) s = runSteps n (s.polled k turns) := by
  induction k generalizing s with
  | zero =>
    obtain rfl : s.turns = turns := ht
    rw [State.polled_zero, Nat.zero_add]
  | succ k ih =>
    have hm : s.mover = .host := by simp [State.mover, ht, List.replicate_succ]
    have hleft : s.turns.tail = List.replicate k .host ++ turns := by simp [ht, List.replicate_succ]
    rw [Nat.succ_add, runSteps, step_poll_busy hm hb hbus, andThen_next,
      ih (s := s.polled 1 s.turns.tail) hb hbus hleft, State.polled_polled, Nat.add_comm 1]

/-- Settles O9: the polls while the host has the turns, the engine's step, and the poll of the idle machine. -/
theorem waitEndsAfterTheCommand : Obligations.WaitEndsAfterTheCommand := by
  intro s k hb hbus ht hready
  have hpolls : runSteps (k + 2) s = runSteps 2 (s.polled k []) :=
    runSteps_polls hb hbus 2 k (by rw [ht, List.append_nil])
  obtain ⟨u, hu⟩ : ∃ u, engineStep (s.polled k []) = .next u :=
    engineStep_completes fun i hi => (s.polled_ready k [] i).trans (hready i hi)
  obtain ⟨hubusy, hubus, huturns, hureplies⟩ := engineStep_keeps_host hu
  have hcommand : step (s.polled k []) = .next u := (step_of_busy (s := s.polled k []) hb rfl).trans hu
  have hlast : step u = .next (State.reply { u with bus := [] } (.port u.statusWord)) :=
    (step_of_idle hubusy huturns (hubus.trans hbus)).trans (hostOp_poll_idle (by exact hubusy))
  refine ⟨State.reply { u with bus := [] } (.port u.statusWord), ?_, hubusy, rfl, List.replicate k s.statusWord,
    [u.statusWord], ?_, List.length_replicate, fun v hv => ?_, u.statusWord, rfl, ?_⟩
  · rw [hpolls, runSteps, hcommand, andThen_next, runSteps, hlast, andThen_next, runSteps]
  · simp [hureplies, State.polled]
  · rw [List.eq_of_mem_replicate hv, statusWord_bit8, hb]
  · rw [statusWord_bit8, hubusy]

end Sys2Proof.Machine
end

section
/-! SUPPORT. Every command at once: a ready one completes (R80, R82), an overlap is refused exactly where R81 says, and
the registers it leaves are those of its row of R78. -/

namespace Sys2Proof.Machine

open Sys2Proof

/-! ### Completion (R80, R82) -/

/-- Settles O10: a ready command completes, and completion changes nothing that is named here but BUSY. -/
theorem readyCommandsComplete : Obligations.ReadyCommandsComplete := by
  intro i s hready
  obtain ⟨t, ht⟩ := exec_ready_completes hready
  obtain ⟨hbusy, hcfg, hlast, hpending, -, -, -, -, hregions, hothers, hbus, hturns, hreplies⟩ := exec_keeps ht
  exact ⟨t, ht, hbusy, hpending, hlast, hcfg, hregions, hothers, hbus, hturns, hreplies⟩

/-! ### Overlap (R81) -/

/-- No command's own rule refuses: it gives a next state or is stuck (R57). -/
theorem operation_stuckOrNext (i : Instr) (s : State) : StuckOrNext (operation i s) := by
  cases i with
  | crcInit | crcByte => exact .next _
  | crcSpan => exact (readBytes_stuckOrNext ..).chain fun _ => .next _
  | append => exact appendSource_stuckOrNext s
  | serEnc | radEnc => exact encodeFrame_stuckOrNext ..
  | serDec | radDec => exact decodeFrame_stuckOrNext ..
  | kindCheck => exact .ite (.next _) (.next _)

theorem StuckOrNext.ne_refused {α : Type} {x : Res α} (h : StuckOrNext x) (r : Refusal) : x ≠ .refused r := by
  rcases h with ⟨a, rfl⟩ | rfl <;> simp

/-- In range, overlapping spans are refused (R80 stage 3). -/
theorem exec_overlap {i : Instr} {s : State} (hr : ∀ sp ∈ checkedSpans i s, sp.inRange s.cfg.addrW = true)
    (ho : spansOverlap i s = true) : exec i s = .refused .overlap := by
  rw [exec_eq_stages, runStages, List.all_eq_true.2 hr, ho]
  rfl

/-- No other stage and no command's own rule refuses for an overlap. -/
theorem exec_ne_overlap {i : Instr} {s : State} (ho : spansOverlap i s = false) :
    exec i s ≠ .refused .overlap := by
  rw [exec_eq_stages, runStages, ho]
  split
  · simp
  split
  · contradiction
  split
  · simp
  split
  · simp
  · exact (operation_stuckOrNext i s).ne_refused _

/-- Settles O28: the pair of R81 is the two checked spans of the command, and four commands have none. -/
theorem overlappingSpansAreRefused : Obligations.OverlappingSpansAreRefused := by
  intro s w
  have pair : ∀ (i : Instr) (x y : Span), checkedSpans i s = [x, y] → spansOverlap i s = x.overlaps y →
      x.inRange w = true → y.inRange w = true → x.overlaps y = true → exec i s = .refused .overlap := by
    intro i x y hc hp hx hy ho
    refine exec_overlap (fun sp hsp => ?_) (hp.trans ho)
    obtain rfl | rfl : sp = x ∨ sp = y := by simpa [hc] using hsp
    · exact hx
    · exact hy
  exact ⟨pair .append _ _ rfl rfl,
    fun hx hy ho => ⟨pair .serEnc _ _ rfl rfl hx hy ho, pair .radEnc _ _ rfl rfl hx hy ho⟩,
    fun hx hy ho => ⟨pair .serDec _ _ rfl rfl hx hy ho, pair .radDec _ _ rfl rfl hx hy ho⟩,
    exec_ne_overlap rfl, fun _ => exec_ne_overlap rfl, exec_ne_overlap rfl, exec_ne_overlap rfl⟩

/-! ### The registers a command writes (R78) -/

/-- Settles O51: what each command leaves (`OperationLeaves`), field by field against its row of R78. -/
theorem commandsWriteTheRegistersOfTheTable : Obligations.CommandsWriteTheRegistersOfTheTable := by
  intro i s t h
  rcases exec_eq_next h with rfl | ⟨-, -, h⟩
  · exact ⟨fun _ => rfl, nofun⟩
  cases i with
  | crcInit | crcByte | crcSpan =>
    obtain rfl := h
    exact ⟨fun hne => absurd rfl hne, fun _ => by simp [State.complete]⟩
  | append =>
    rcases h with ⟨-, rfl⟩ | ⟨-, -, rfl⟩ | ⟨-, -, rfl⟩
    · exact ⟨fun hne => absurd rfl hne, fun _ => by simp [State.complete]⟩
    · exact ⟨fun _ => rfl, nofun⟩
    · exact ⟨fun hne => absurd rfl hne, fun _ => by simp [State.complete]⟩
  | serEnc | radEnc =>
    obtain ⟨_, _, _, -, -, rfl | rfl⟩ := h
    · exact ⟨fun _ => by simp [State.complete], nofun⟩
    · exact ⟨fun hne => absurd rfl hne, fun _ => by simp [State.complete]⟩
  | serDec | radDec =>
    rcases h with ⟨r, _, hr, rfl⟩ | ⟨_, _, _, _, _, _, _, -, -, -, rfl⟩
    · exact ⟨fun _ => by simp [State.complete], fun hok => absurd hok hr⟩
    · exact ⟨fun hne => absurd rfl hne, fun _ => by simp [State.complete, accepted, decodedIds]⟩
  | kindCheck =>
    obtain rfl := h
    exact ⟨fun _ => rfl, fun _ => rfl⟩

end Sys2Proof.Machine
end

section
/-! SUPPORT. The Checksum Engine. A step moves the state's high byte down and takes the rest from the zero state, so the
three forms of the step agree (R88 to R91); what CRC_INIT, CRC_BYTE and CRC_SPAN leave, alone and in a row (R92 to
R101). -/

namespace Sys2Proof.Machine

open Sys2Proof

/-! ### The three forms of the step (R88 to R91) -/

/-- Rounds that only meet zero bits are a shift. -/
theorem crcRounds_shiftLeft {n : Nat} {x : Half} (h : x.toNat * 2 ^ n < 2 ^ 16) : crcRounds n (x <<< n) = x := by
  induction n with
  | zero => simp [crcRounds]
  | succ n ih =>
    rw [Nat.pow_succ, ← Nat.mul_assoc] at h
    have hn : x.toNat * 2 ^ n < 2 ^ 16 := by omega
    have hround : crcRound (x <<< (n + 1)) = x <<< n := by
      rw [crcRound, if_neg (by simp)]
      apply BitVec.eq_of_toNat_eq
      rw [BitVec.toNat_ushiftRight, BitVec.toNat_shiftLeft, BitVec.toNat_shiftLeft, Nat.shiftLeft_eq, Nat.shiftLeft_eq,
        Nat.pow_succ, ← Nat.mul_assoc, Nat.mod_eq_of_lt h, Nat.mod_eq_of_lt hn, Nat.shiftRight_eq_div_pow]
      omega
    rw [crcRounds, hround, ih hn]

/-- A state is its high byte, in place, and its low byte. -/
theorem half_eq_high_xor_low (c : Half) : c = (c >>> 8) <<< 8 ^^^ (lo c).setWidth 16 := by
  ext k hk
  by_cases h : k < 8
  · simp [lo, h, BitVec.getLsbD_eq_getElem hk]
  · simp [lo, h, Nat.add_sub_cancel' (Nat.not_lt.1 h), BitVec.getLsbD_eq_getElem hk]

/-- The high byte of the state moves down unchanged; the low byte and the byte make a step from zero (R90). -/
theorem crcStep_eq_high_xor (c : Half) (b : Byte) : crcStep c b = (c >>> 8) ^^^ crcStep 0#16 (lo c ^^^ b) := by
  have hhigh : crcRounds 8 ((c >>> 8) <<< 8) = c >>> 8 := by
    apply crcRounds_shiftLeft
    have := c.isLt
    rw [BitVec.toNat_ushiftRight, Nat.shiftRight_eq_div_pow]
    omega
  calc crcStep c b
      = crcRounds 8 ((c >>> 8) <<< 8 ^^^ (lo c ^^^ b).setWidth 16) := by
        rw [crcStep_eq, BitVec.setWidth_xor, ← BitVec.xor_assoc, ← half_eq_high_xor_low]
    _ = (c >>> 8) ^^^ crcStep 0#16 (lo c ^^^ b) := by
        rw [crcRounds_xor, hhigh, crcStep_eq, BitVec.zero_xor]

/-- The shift form treats the two bytes of the state in the same way (R89). -/
theorem crcStepShift_eq_high_xor (c : Half) (b : Byte) :
    crcStepShift c b = (c >>> 8) ^^^ crcStepShift 0#16 (lo c ^^^ b) := by
  have hlo : lo 0#16 = 0#8 := rfl
  simp only [crcStepShift, hlo, BitVec.xor_zero, BitVec.zero_ushiftRight, BitVec.zero_xor, BitVec.xor_comm b,
    BitVec.xor_assoc]

/-- From the zero state, the shifts are the step of each of the 256 bytes. -/
theorem crcStepShift_zero (b : Byte) : crcStepShift 0#16 b = crcStep 0#16 b := by
  revert b
  decide +kernel

/-- Each of the 256 printed entries is the step from the zero state (R91). -/
theorem crcTableAt_eq (i : Byte) : crcTableAt i = crcStep 0#16 i := by
  revert i
  decide +kernel

/-- Settles O35: each form moves the high byte down, and from the zero state the three agree. -/
theorem stepFormsAgree : Obligations.StepFormsAgree := by
  refine ⟨fun c b => ?_, fun c b => ?_, crcTableAt_eq⟩
  · rw [crcStepShift_eq_high_xor, crcStepShift_zero, crcStep_eq_high_xor c b]
  · rw [crcStepTable, crcTableAt_eq, crcStep_eq_high_xor c b]

/-! ### The checksum of a byte sequence (R92 to R97) -/

/-- Settles O36, by evaluation of the nine steps. -/
theorem checkValueOfTheChecksum : Obligations.CheckValueOfTheChecksum := by
  unfold Obligations.CheckValueOfTheChecksum
  decide +kernel

/-- Settles O39: a step tells two bytes apart, and the bytes after them keep the difference. -/
theorem singleBitErrorsChangeTheChecksum : Obligations.SingleBitErrorsChangeTheChecksum := by
  intro before after b k hk h
  rw [checksum_append, checksum_append, List.foldl_cons, List.foldl_cons] at h
  have hb : b = b ^^^ (1#8 <<< k) := crcStep_injective_byte (foldl_crcStep_injective after h)
  have hbit := congrArg (fun v : Byte => v.getLsbD k) hb
  simp [hk] at hbit

/-! ### Commands without a byte to access -/

/-- Empty spans collide with no command running elsewhere (R148). -/
theorem State.claimed_of_empty (s : State) {reads writes : List Span} (hr : ∀ sp ∈ reads, sp.len = 0)
    (hw : ∀ sp ∈ writes, sp.len = 0) : s.claimed reads writes = false := by
  rw [Bool.eq_false_iff]
  intro hc
  obtain ⟨c, -, ⟨sp, hsp, ho⟩ | ⟨-, sp, hsp, ho⟩⟩ := State.claimed_iff.1 hc <;>
    obtain ⟨-, hlen, -⟩ := Span.overlaps_iff.1 ho
  · exact hlen.ne' (hw sp hsp)
  · exact hlen.ne' (hr sp hsp)

theorem State.ordinary_of_empty (s : State) {sp : Span} (h : sp.len = 0) : s.ordinary sp = true := by
  obtain ⟨a, n⟩ := sp
  obtain rfl : n = 0 := h
  simp [State.ordinary]

/-- A command all of whose spans are empty is ready if they are in range. -/
theorem State.ready_of_empty {s : State} {i : Instr} (ho : spansOverlap i s = false)
    (hc : ∀ sp ∈ checkedSpans i s, sp.start ≤ 2 ^ s.cfg.addrW ∧ sp.len = 0)
    (hr : ∀ sp ∈ readSpans i s, sp.len = 0) (hw : ∀ sp ∈ writeSpans i s, sp.len = 0) : s.ready i = true := by
  refine State.ready_iff.2 ⟨List.all_eq_true.2 fun sp hsp => ?_, ho, List.all_eq_true.2 fun sp hsp => ?_,
    s.claimed_of_empty hr hw⟩
  · obtain ⟨hstart, hlen⟩ := hc sp hsp
    rwa [Span.inRange_iff, hlen]
  · exact s.ordinary_of_empty (hc sp hsp).2

theorem ready_crcInit (s : State) : s.ready .crcInit = true := State.ready_of_empty rfl nofun nofun nofun

theorem ready_crcByte (b : Byte) (s : State) : s.ready (.crcByte b) = true := State.ready_of_empty rfl nofun nofun nofun

theorem ready_crcSpan_of_empty {s : State} (hlen : s.srcLen = 0#16) (ha : s.srcAddr.toNat ≤ 2 ^ s.cfg.addrW) :
    s.ready .crcSpan = true := by
  have hempty : ∀ sp ∈ [s.srcSpan], sp.start ≤ 2 ^ s.cfg.addrW ∧ sp.len = 0 := by
    simpa [State.srcSpan, hlen] using ha
  exact State.ready_of_empty rfl hempty (fun sp hsp => (hempty sp hsp).2) nofun

/-! ### The checksum commands (R99 to R101) -/

/-- What `n` checksum commands in a row leave, `v` being the last one's value: CRC_ACC, OK, and nothing else. -/
def State.accumulated (s : State) (v : Half) (n : Nat) : State :=
  { s with crcAcc := v, result := .ok, busy := false, draws := s.draws + n }

theorem exec_crcInit (s : State) : exec .crcInit s = .next (s.accumulated 0xFFFF#16 1) := exec_ready (ready_crcInit s)

theorem exec_crcByte (b : Byte) (s : State) : exec (.crcByte b) s = .next (s.accumulated (crcStep s.crcAcc b) 1) :=
  exec_ready (ready_crcByte b s)

/-- Ready, CRC_SPAN reads its span as it stands in memory. -/
theorem exec_crcSpan {s : State} (h : s.ready .crcSpan = true) :
    exec .crcSpan s = .next (s.accumulated (checksum (s.mem.readList s.srcAddr.toNat s.srcLen.toNat)) 1) := by
  obtain ⟨-, -, hord, -⟩ := State.ready_iff.1 h
  have hread : readBytes 0 s.srcAddr.toNat s.srcLen.toNat s = .next (s.mem.readList s.srcAddr.toNat s.srcLen.toNat) :=
    readBytes_ordinary (sp := s.srcSpan) rfl (List.all_eq_true.1 hord _ (.head _)) (Nat.le_refl _) (Nat.le_refl _)
  rw [exec_ready h, operation, checksumSpan, hread, andThen_next]
  rfl

/-- CRC_BYTE of each byte in a row folds the step over the bytes (R98). -/
theorem foldl_exec_crcByte (s : State) (v : Half) (n : Nat) (bs : List Byte) :
    bs.foldl (fun (r : Res State) (b : Byte) => andThen r (exec (.crcByte b))) (.next (s.accumulated v n)) =
      .next (s.accumulated (bs.foldl crcStep v) (n + bs.length)) := by
  induction bs generalizing v n with
  | nil => rfl
  | cons b bs ih =>
    have hbyte : exec (.crcByte b) (s.accumulated v n) = .next (s.accumulated (crcStep v b) (n + 1)) := exec_crcByte ..
    rw [List.foldl_cons, andThen_next, hbyte, ih, List.foldl_cons, List.length_cons, Nat.add_assoc, Nat.add_comm 1]

/-- CRC_BYTE's word with its byte in place (R100). -/
theorem encode_crcByte (ii : Byte) : encode (.crcByte ii) = 0x00000002#32 ||| (ii.setWidth 32 <<< 8) :=
  calc encode (.crcByte ii) = (0#16 ++ ii ++ 0#4 ++ 2#4).setWidth 32 := (BitVec.setWidth_eq _).symm
    _ = 0x00000002#32 ||| (ii.setWidth 32 <<< 8) := by
      rw [BitVec.setWidth_append_append_append_eq_shiftLeft_setWidth_or, BitVec.or_comm]
      simp

/-- Settles O32: CRC_INIT has no span, so nothing stops it. -/
theorem crcInitSetsTheInitialValue : Obligations.CrcInitSetsTheInitialValue :=
  ⟨decode_encode .crcInit, exec_crcInit⟩

/-- Settles O33: CRC_BYTE has no span, so nothing stops it. -/
theorem crcByteAccumulatesItsByte : Obligations.CrcByteAccumulatesItsByte := by
  refine ⟨fun ii => ?_, exec_crcByte, by decide, by decide⟩
  rw [← encode_crcByte, decode_encode]

/-- Settles O34: ready by its one read, out of range by the span check, and in range an empty span is ready. -/
theorem crcSpanChecksumsItsSpan : Obligations.CrcSpanChecksumsItsSpan := by
  refine ⟨decode_encode .crcSpan, fun s =>
    ⟨exec_crcSpan, exec_outOfRange (sp := s.srcSpan) (.head _), fun hlen ha => ?_⟩⟩
  have hbytes : s.mem.readList s.srcAddr.toNat s.srcLen.toNat = [] := by rw [hlen]; rfl
  rw [exec_crcSpan (ready_crcSpan_of_empty hlen ha), hbytes, checksum_nil, State.accumulated]

/-- Settles O37: the first value is the checksum's initial one. -/
theorem crcBytesAccumulateTheChecksum : Obligations.CrcBytesAccumulateTheChecksum := by
  intro s bs
  rw [exec_crcInit, foldl_exec_crcByte, State.accumulated, Nat.add_assoc]
  rfl

/-- Settles O38: the first value is the checksum of the span. -/
theorem spanThenBytesChecksumTheWhole : Obligations.SpanThenBytesChecksumTheWhole := by
  refine ⟨checksum_append, fun s bs h => ?_⟩
  rw [exec_crcSpan h, foldl_exec_crcByte, ← checksum_append, State.accumulated, Nat.add_assoc]

end Sys2Proof.Machine
end

section
/-! SUPPORT. The Bounded Appender (R103 to R107): a ready APPEND has three ends, told apart by SRC_LEN and by whether
the bytes fit. -/

namespace Sys2Proof.Machine

open Sys2Proof

/-- A ready APPEND completes, in one of the three ways of R107. -/
theorem exec_append_leaves {s : State} (h : s.ready .append = true) :
    ∃ t, exec .append s = .next t ∧ AppendLeaves s t := by
  obtain ⟨t, ht⟩ := exec_ready_completes h
  exact ⟨t, ht, appendSource_eq_next ((exec_ready h).symm.trans ht)⟩

/-- Ready, APPEND reads its source as it stands in memory. -/
theorem bytes_source_of_ready_append {s : State} (h : s.ready .append = true) :
    s.bytes 0 s.srcAddr.toNat s.srcLen.toNat = s.mem.readList s.srcAddr.toNat s.srcLen.toNat := by
  obtain ⟨-, -, hord, -⟩ := State.ready_iff.1 h
  obtain ⟨-, -, hshared⟩ := State.ordinary_iff.1 (List.all_eq_true.1 hord s.srcSpan (.head _))
  exact State.bytes_ordinary hshared

/-- Nothing to append: DST_OFF is not compared with the capacity (R104). -/
theorem exec_append_of_empty {s : State} (h : s.ready .append = true) (hlen : s.srcLen.toNat = 0) :
    exec .append s = .next (s.complete .ok) := by
  obtain ⟨t, ht, ⟨-, rfl⟩ | ⟨hne, -, -⟩ | ⟨hne, -, -⟩⟩ := exec_append_leaves h
  · exact ht
  · exact absurd hlen hne
  · exact absurd hlen hne

/-- No room: nothing is written (R105). -/
theorem exec_append_of_no_room {s : State} (h : s.ready .append = true) (hlen : 0 < s.srcLen.toNat)
    (hroom : s.dstLen.toNat < s.dstOff.toNat + s.srcLen.toNat) :
    exec .append s = .next (s.complete .bufferTooSmall) := by
  obtain ⟨t, ht, ⟨hzero, -⟩ | ⟨-, -, rfl⟩ | ⟨-, hfits, -⟩⟩ := exec_append_leaves h
  · exact absurd hzero hlen.ne'
  · exact ht
  · exact absurd hroom (Nat.not_lt.2 hfits)

/-- What an APPEND that fits leaves (R106): the source's bytes at DST_ADDR + DST_OFF, and DST_OFF past them. -/
def State.appended (s : State) : State :=
  ((s.withMem (s.mem.writeList (s.dstAddr.toNat + s.dstOff.toNat)
    (s.mem.readList s.srcAddr.toNat s.srcLen.toNat))).withDstOff
    (BitVec.ofNat 16 (s.dstOff.toNat + s.srcLen.toNat))).complete .ok

@[simp] theorem State.appended_mem (s : State) : s.appended.mem = s.mem.writeList
    (s.dstAddr.toNat + s.dstOff.toNat) (s.mem.readList s.srcAddr.toNat s.srcLen.toNat) := rfl

theorem exec_append_of_room {s : State} (h : s.ready .append = true) (hlen : 0 < s.srcLen.toNat)
    (hroom : s.dstOff.toNat + s.srcLen.toNat ≤ s.dstLen.toNat) : exec .append s = .next s.appended := by
  obtain ⟨t, ht, ⟨hzero, -⟩ | ⟨-, hover, -⟩ | ⟨-, -, rfl⟩⟩ := exec_append_leaves h
  · exact absurd hzero hlen.ne'
  · exact absurd hover (Nat.not_lt.2 hroom)
  · rwa [bytes_source_of_ready_append h] at ht

/-- The new DST_OFF is at most DST_LEN, so its 16 bits hold it. -/
theorem State.appended_dstOff_toNat {s : State} (hroom : s.dstOff.toNat + s.srcLen.toNat ≤ s.dstLen.toNat) :
    s.appended.dstOff.toNat = s.dstOff.toNat + s.srcLen.toNat :=
  Nat.mod_eq_of_lt (hroom.trans_lt s.dstLen.isLt)

theorem State.appended_mem_readList {s : State} (hm : s.mem.wf) :
    s.appended.mem.readList (s.dstAddr.toNat + s.dstOff.toNat) s.srcLen.toNat =
      s.mem.readList s.srcAddr.toNat s.srcLen.toNat := by
  simpa using Memory.readList_writeList hm (s.dstAddr.toNat + s.dstOff.toNat)
    (s.mem.readList s.srcAddr.toNat s.srcLen.toNat)

theorem State.appended_mem_read_out {s : State} (hm : s.mem.wf) {a : Nat}
    (ha : a < s.dstAddr.toNat + s.dstOff.toNat ∨ s.dstAddr.toNat + s.dstOff.toNat + s.srcLen.toNat ≤ a) :
    s.appended.mem.read a = s.mem.read a :=
  Memory.read_writeList_out hm _ _ (by simpa using ha)

/-- Settles O40: the three ends of a ready APPEND; where it fits, the bytes and the frame are the stored list's. -/
theorem appendCopiesOrLeavesEverything : Obligations.AppendCopiesOrLeavesEverything :=
  ⟨decode_encode .append, fun s hm h =>
    ⟨exec_append_of_empty h, exec_append_of_no_room h, fun hlen hroom =>
      ⟨s.appended, exec_append_of_room h hlen hroom, rfl, State.appended_dstOff_toNat hroom,
        State.appended_mem_readList hm, fun _ => State.appended_mem_read_out hm⟩⟩⟩

end Sys2Proof.Machine
end

section
/-! SUPPORT. The frame codec of both profiles at the level of `exec`, for a ready command: what an encoder leaves by its
capacity, the five stages over a frame's bytes with the checksum stage as a residue of the whole frame, and what a
decoder leaves. -/

namespace Sys2Proof.Machine

open Sys2Proof

/-! ### Bytes of a frame -/

/-- After its own two bytes, low byte first, any checksum state is zero (R50, R111). -/
theorem foldl_crcStep_lo_hi (v : Half) : [lo v, hi v].foldl crcStep v = 0#16 := by
  have hlow : crcStep v (lo v) = (hi v).setWidth 16 := by
    rw [crcStep_eq_high_xor, BitVec.xor_self, show crcStep 0#16 0#8 = 0#16 by decide, BitVec.xor_zero]
    ext k hk
    simp only [hi, BitVec.getElem_ushiftRight, BitVec.getElem_setWidth, BitVec.getLsbD_extractLsb']
    rcases Nat.lt_or_ge k 8 with hk8 | hk8
    · simp [hk8]
    · simp [BitVec.getLsbD_of_ge _ _ (show 16 ≤ 8 + k by omega)]
  rw [List.foldl_cons, hlow, List.foldl_cons, crcStep_eq, BitVec.xor_self, crcRounds_zero, List.foldl_nil]

/-- Two bytes carry the checksum of the bytes before them iff the checksum of all is zero. -/
theorem checksum_eq_half_iff {bs : List Byte} {x y : Byte} :
    checksum bs = half x y ↔ checksum (bs ++ [x, y]) = 0#16 := by
  have hcarried : [x, y].foldl crcStep (half x y) = 0#16 := by simpa using foldl_crcStep_lo_hi (half x y)
  rw [checksum_append]
  exact ⟨fun h => h ▸ hcarried, fun h => foldl_crcStep_injective [x, y] (h.trans hcarried.symm)⟩

/-- A byte of the first `m` bytes is the byte of the whole. -/
theorem getD_take_of_lt {f : List Byte} {m i : Nat} (h : i < m) (b : Byte) : (f.take m).getD i b = f.getD i b := by
  rw [List.getD_eq_getElem?_getD, List.getElem?_take_of_lt h, ← List.getD_eq_getElem?_getD]

/-- A list of two bytes or more is its trailer after the rest. -/
theorem take_append_trailer {f : List Byte} (h : 2 ≤ f.length) :
    f.take (f.length - 2) ++ [f.getD (f.length - 2) 0#8, f.getD (f.length - 1) 0#8] = f := by
  obtain ⟨n, hn⟩ := Nat.exists_eq_add_of_le' h
  rw [hn, Nat.add_sub_cancel, show n + 2 - 1 = n + 1 by omega, List.getD_eq_getElem _ _ (by omega),
    List.getD_eq_getElem _ _ (by omega)]
  conv_rhs => rw [← List.take_append_drop n f, List.drop_eq_getElem_cons (by omega),
    List.drop_eq_getElem_cons (by omega), List.drop_eq_nil_of_le (by omega)]

/-- Stage 3 of R114 and R124 passes iff the checksum of the whole frame is zero. -/
theorem checksum_trailer_iff {f : List Byte} (h : 2 ≤ f.length) :
    checksum (f.take (f.length - 2)) = half (f.getD (f.length - 2) 0#8) (f.getD (f.length - 1) 0#8) ↔
      checksum f = 0#16 := by
  rw [checksum_eq_half_iff, take_append_trailer h]

/-- A flipped bit changes the checksum (R94). -/
theorem checksum_flip_ne {f : List Byte} {j k : Nat} (hj : j < f.length) (hk : k < 8) :
    checksum (f.set j (f[j] ^^^ (1#8 <<< k))) ≠ checksum f := by
  have h := singleBitErrorsChangeTheChecksum (f.take j) (f.drop (j + 1)) f[j] k hk
  rw [← List.drop_eq_getElem_cons hj, List.take_append_drop] at h
  rw [List.set_eq_take_append_cons_drop, if_pos hj]
  exact h.symm

theorem Memory.readList_write {m : Memory} (hm : m.wf) (a j n : Nat) (b : Byte) :
    (m.write (a + j) b).readList a n = (m.readList a n).set j b := by
  refine List.ext_getElem (by simp) fun i hi _ => ?_
  rw [Memory.getElem_readList, List.getElem_set, Memory.getElem_readList, Memory.read_write hm]
  simp only [Nat.add_left_cancel_iff, eq_comm (a := i)]

/-! ### The five stages on the frame's bytes (R114, R124) -/

/-- The stages with the checksum stage as a residue. -/
theorem Profile.verdict_eq (p : Profile) (c : Config) (f : List Byte) : p.verdict c f =
    if f.length < p.minLen then .frameTooShort
    else if f.getD 0 0#8 ≠ p.magic c then .magicMismatch
    else if checksum f ≠ 0#16 then .checksumMismatch
    else if c.kindCount.toNat ≤ (f.getD p.kindAt 0#8).toNat then .invalidMessageKind
    else if (f.getD p.lenAt 0#8).toNat ≠ f.length - p.minLen then .lengthMismatch
    else .ok := by
  unfold Profile.verdict frameVerdict
  by_cases hlen : f.length < p.minLen
  · rw [if_pos hlen, if_pos hlen]
  · have hmin := p.minLen_eq
    simp only [ne_eq, checksum_trailer_iff (f := f) (by omega)]

/-- Stages 1 to 3 pass. -/
structure Profile.Intact (p : Profile) (c : Config) (f : List Byte) : Prop where
  minLen_le : p.minLen ≤ f.length
  magic_eq : f.getD 0 0#8 = p.magic c
  checksum_eq : checksum f = 0#16

section intact

variable {p : Profile} {c : Config} {f : List Byte}

/-- On an intact frame kind and length decide (R114, R124). -/
theorem Profile.Intact.verdict_eq (h : p.Intact c f) : p.verdict c f =
    if c.kindCount.toNat ≤ (f.getD p.kindAt 0#8).toNat then .invalidMessageKind
    else if (f.getD p.lenAt 0#8).toNat ≠ f.length - p.minLen then .lengthMismatch
    else .ok := by
  obtain ⟨hlen, hmagic, hsum⟩ := h
  rw [p.verdict_eq, if_neg (Nat.not_lt.2 hlen), if_neg (not_not.2 hmagic), if_neg (not_not.2 hsum)]

/-- A frame that is accepted or rejected for its kind is intact. -/
theorem Profile.intact_of_verdict (h : p.verdict c f = .ok ∨ p.verdict c f = .invalidMessageKind) :
    p.Intact c f := by
  rw [p.verdict_eq] at h
  by_cases hlen : f.length < p.minLen
  · simp [hlen] at h
  by_cases hmagic : f.getD 0 0#8 = p.magic c
  · by_cases hsum : checksum f = 0#16
    · exact ⟨Nat.not_lt.1 hlen, hmagic, hsum⟩
    · rw [if_neg hlen, if_neg (not_not.2 hmagic), if_pos hsum] at h
      simp at h
  · rw [if_neg hlen, if_pos hmagic] at h
    simp at h

theorem Profile.verdict_eq_ok_iff : p.verdict c f = .ok ↔ p.Intact c f ∧
    (f.getD p.kindAt 0#8).toNat < c.kindCount.toNat ∧ (f.getD p.lenAt 0#8).toNat = f.length - p.minLen := by
  constructor
  · intro h
    obtain ⟨-, -, -, hkind, hlen⟩ := frameVerdict_eq_ok.1 h
    exact ⟨Profile.intact_of_verdict (.inl h), hkind, hlen⟩
  · rintro ⟨h, hkind, hlen⟩
    rw [h.verdict_eq, if_neg (Nat.not_le.2 hkind), if_neg (not_not.2 hlen)]

theorem Profile.verdict_eq_invalidMessageKind_iff : p.verdict c f = .invalidMessageKind ↔
    p.Intact c f ∧ c.kindCount.toNat ≤ (f.getD p.kindAt 0#8).toNat := by
  constructor
  · intro h
    have hi := Profile.intact_of_verdict (.inr h)
    refine ⟨hi, ?_⟩
    rw [hi.verdict_eq] at h
    by_contra hkind
    rw [if_neg hkind] at h
    split at h <;> simp at h
  · rintro ⟨h, hkind⟩
    rw [h.verdict_eq, if_pos hkind]

/-- One flipped bit: the magic stage catches it in byte 0, the checksum stage anywhere else (R118 (b), R128 (b)). -/
theorem Profile.Intact.verdict_flip (h : p.Intact c f) {j k : Nat} (hj : j < f.length) (hk : k < 8) :
    p.verdict c (f.set j (f[j] ^^^ (1#8 <<< k))) = if j = 0 then .magicMismatch else .checksumMismatch := by
  obtain ⟨hlen, hmagic, hsum⟩ := h
  have hchanged := checksum_flip_ne hj hk
  rw [p.verdict_eq, List.length_set, if_neg (Nat.not_lt.2 hlen)]
  by_cases hj0 : j = 0
  · subst hj0
    have hbyte : f[0] ^^^ (1#8 <<< k) ≠ f[0] := fun heq => hchanged (by rw [heq, List.set_getElem_self])
    rw [List.getD_eq_getElem _ _ hj] at hmagic
    rw [List.getD_eq_getElem _ _ (by simpa using hj), List.getElem_set_self, ← hmagic, if_pos hbyte, if_pos rfl]
  · rw [List.getD_eq_getElem?_getD, List.getElem?_set_ne hj0, ← List.getD_eq_getElem?_getD,
      if_neg (not_not.2 hmagic), if_pos (hsum ▸ hchanged), if_neg hj0]

/-- An accepted frame cut short carries the whole frame's length (R118 (c), R128 (c)). -/
theorem Profile.verdict_take (h : p.verdict c f = .ok) {m : Nat} (hm : m < f.length) :
    if m < p.minLen then p.verdict c (f.take m) = .frameTooShort
    else p.verdict c (f.take m) = .checksumMismatch ∨ p.verdict c (f.take m) = .lengthMismatch := by
  obtain ⟨⟨-, hmagic, -⟩, hkind, hlen⟩ := Profile.verdict_eq_ok_iff.1 h
  rw [p.verdict_eq, List.length_take_of_le hm.le]
  have hmin := p.minLen_eq
  have hkindAt := p.kindAt_lt
  have hlenAt := p.lenAt_lt
  split
  · rfl
  · rename_i hge
    rw [getD_take_of_lt (i := 0) (by omega), getD_take_of_lt (i := p.kindAt) (by omega),
      getD_take_of_lt (i := p.lenAt) (by omega), if_neg (not_not.2 hmagic), if_neg (Nat.not_le.2 hkind),
      if_pos (c := (f.getD p.lenAt 0#8).toNat ≠ m - p.minLen) (by omega)]
    split
    · exact .inl rfl
    · exact .inr rfl

/-- A zero byte after an intact frame keeps the zero checksum: the frame is intact still (R118 (e), R128 (d)). -/
theorem Profile.Intact.padded (h : p.Intact c f) : p.Intact c (f ++ [0x00#8]) := by
  obtain ⟨hlen, hmagic, hsum⟩ := h
  have hmin := p.minLen_eq
  refine ⟨by simp; omega, ?_, ?_⟩
  · rw [List.getD_append _ _ _ _ (by omega), hmagic]
  · rw [checksum_append, hsum]
    decide

theorem Profile.verdict_padded_of_ok (h : p.verdict c f = .ok) : p.verdict c (f ++ [0x00#8]) = .lengthMismatch := by
  obtain ⟨hi, hkind, hlen⟩ := Profile.verdict_eq_ok_iff.1 h
  have hle := hi.minLen_le
  have hmin := p.minLen_eq
  have hkindAt := p.kindAt_lt
  have hlenAt := p.lenAt_lt
  rw [hi.padded.verdict_eq, List.getD_append _ _ _ _ (by omega), List.getD_append _ _ _ _ (by omega),
    if_neg (Nat.not_le.2 hkind), if_pos (by rw [List.length_append, List.length_singleton]; omega)]

theorem Profile.verdict_padded_of_invalidMessageKind (h : p.verdict c f = .invalidMessageKind) :
    p.verdict c (f ++ [0x00#8]) = .invalidMessageKind := by
  obtain ⟨hi, hkind⟩ := Profile.verdict_eq_invalidMessageKind_iff.1 h
  have hle := hi.minLen_le
  have hmin := p.minLen_eq
  have hkindAt := p.kindAt_lt
  exact Profile.verdict_eq_invalidMessageKind_iff.2 ⟨hi.padded, by rwa [List.getD_append _ _ _ _ (by omega)]⟩

end intact

/-! ### The encoders by capacity (R117, R127) -/

/-- The profile's encoder. -/
def Profile.encoder (p : Profile) : Instr :=
  match p with
  | .serial => .serEnc
  | .radio => .radEnc

/-- The whole frame: header, payload and the checksum of both, low byte first (R74, R75). -/
def wholeFrame (p : Profile) (s : State) : List Byte :=
  frameBody p s ++ [lo (checksum (frameBody p s)), hi (checksum (frameBody p s))]

@[simp] theorem length_wholeFrame (p : Profile) (s : State) :
    (wholeFrame p s).length = s.recLen.toNat + p.minLen := by
  simp [wholeFrame, p.minLen_eq]
  omega

/-- An encoder ends with this result and this DST_LEN, having written these bytes at DST_ADDR and no other. -/
def EncoderEnds (i : Instr) (s : State) (written : List Byte) (result : Result) (len : Half) : Prop :=
  ∃ t : State, exec i s = .next t ∧
    t = { s with mem := t.mem, dstLen := len, workOff := t.workOff, workCrc := t.workCrc, result := result,
                 busy := false, draws := s.draws + 1 } ∧
    t.mem.readList s.dstAddr.toNat written.length = written ∧
    ∀ a, (a < s.dstAddr.toNat ∨ s.dstAddr.toNat + written.length ≤ a) → t.mem.read a = s.mem.read a

theorem encoderEnds_of_encoded {i : Instr} {s : State} {w : List Byte} {wo wc len : Half} {r : Result}
    (hm : s.mem.wf) (h : exec i s = .next (((encoded s w wo wc).withDstLen len).complete r)) :
    EncoderEnds i s w r len := by
  have hmem : (((encoded s w wo wc).withDstLen len).complete r).mem = s.mem.writeList s.dstAddr.toNat w := rfl
  refine ⟨_, h, by simp [State.complete, State.withDstLen, encoded], ?_, fun a ha => ?_⟩
  · rw [hmem, Memory.readList_writeList hm]
  · rw [hmem, Memory.read_writeList_out hm _ w ha]

section encode

variable {p : Profile} {s : State} (hm : s.mem.wf) (h : s.ready p.encoder = true)
include hm h

/-- What a ready encoder leaves: its spans are ordinary and apart, as `encodeFrame_ordinary` asks. -/
theorem exec_encoder_ready : exec p.encoder s =
    if s.dstLen.toNat < p.hdrLen then .next (s.complete .bufferTooSmall)
    else if s.recLen.toNat ≠ 0 ∧ s.dstLen.toNat < p.hdrLen + s.recLen.toNat then
      .next (((s.withMem (s.mem.writeList s.dstAddr.toNat (p.header s))).withWorkOff
        (BitVec.ofNat 16 p.hdrLen)).complete .bufferTooSmall)
    else if s.dstLen.toNat < p.hdrLen + s.recLen.toNat + 2 then
      .next ((encoded s (frameBody p s) (BitVec.ofNat 16 (p.hdrLen + s.recLen.toNat))
        (checksum (frameBody p s))).complete .bufferTooSmall)
    else .next (((encoded s (wholeFrame p s) (BitVec.ofNat 16 (p.hdrLen + s.recLen.toNat + 2))
        (checksum (frameBody p s))).withDstLen (BitVec.ofNat 16 (p.hdrLen + s.recLen.toNat + 2))).complete .ok) := by
  have hop : operation p.encoder s = encodeFrame p s := by cases p <;> rfl
  have hchecked : checkedSpans p.encoder s = [s.paySpan, s.dstSpan] := by cases p <;> rfl
  have hpair : spansOverlap p.encoder s = s.paySpan.overlaps s.dstSpan := by cases p <;> rfl
  obtain ⟨-, hapart, hord, -⟩ := State.ready_iff.1 h
  rw [hchecked, List.all_eq_true] at hord
  rw [hpair] at hapart
  rw [exec_ready h, hop]
  exact encodeFrame_ordinary hm (hord _ (.head _)) (hord _ (.tail _ (.head _))) hapart

/-- No room for the header: nothing is written (R109, R120). -/
theorem encoderEnds_of_no_header (hcap : s.dstLen.toNat < p.hdrLen) :
    EncoderEnds p.encoder s [] .bufferTooSmall s.dstLen := by
  refine encoderEnds_of_encoded (wo := s.workOff) (wc := s.workCrc) hm ?_
  rw [exec_encoder_ready hm h, if_pos hcap]
  simp [encoded, State.withMem, State.withWorkOff, State.withWorkCrc, State.withDstLen]

/-- Room for the header alone: it stays written (R110, R121). -/
theorem encoderEnds_of_header (hcap : p.hdrLen ≤ s.dstLen.toNat)
    (hroom : s.dstLen.toNat < s.recLen.toNat + p.hdrLen) :
    EncoderEnds p.encoder s ((frameBody p s).take p.hdrLen) .bufferTooSmall s.dstLen := by
  rw [frameBody, List.take_left' (p.length_header s)]
  refine encoderEnds_of_encoded (wo := BitVec.ofNat 16 p.hdrLen) (wc := s.workCrc) hm ?_
  rw [exec_encoder_ready hm h, if_neg (by omega), if_pos (by omega)]
  simp [encoded, State.withMem, State.withWorkOff, State.withWorkCrc, State.withDstLen]

/-- Room for header and payload: both stay written (R110, R121). -/
theorem encoderEnds_of_body (hcap : s.recLen.toNat + p.hdrLen ≤ s.dstLen.toNat)
    (hroom : s.dstLen.toNat < s.recLen.toNat + p.minLen) :
    EncoderEnds p.encoder s (frameBody p s) .bufferTooSmall s.dstLen := by
  have hmin := p.minLen_eq
  refine encoderEnds_of_encoded (wo := BitVec.ofNat 16 (p.hdrLen + s.recLen.toNat)) (wc := checksum (frameBody p s))
    hm ?_
  rw [exec_encoder_ready hm h, if_neg (by omega), if_neg (by omega), if_pos (by omega)]
  rfl

/-- Room for the whole frame: OK, with its length in DST_LEN (R113, R123). -/
theorem exec_encoder_of_room (hroom : s.recLen.toNat + p.minLen ≤ s.dstLen.toNat) : exec p.encoder s =
    .next (((encoded s (wholeFrame p s) (BitVec.ofNat 16 (s.recLen.toNat + p.minLen))
      (checksum (frameBody p s))).withDstLen (BitVec.ofNat 16 (s.recLen.toNat + p.minLen))).complete .ok) := by
  have hlen : s.recLen.toNat + p.minLen = p.hdrLen + s.recLen.toNat + 2 := by rw [p.minLen_eq]; omega
  rw [exec_encoder_ready hm h, if_neg (by omega), if_neg (by omega), if_neg (by omega), hlen]

theorem encoderEnds_of_room (hroom : s.recLen.toNat + p.minLen ≤ s.dstLen.toNat) :
    EncoderEnds p.encoder s (wholeFrame p s) .ok (BitVec.ofNat 16 (s.recLen.toNat + p.minLen)) :=
  encoderEnds_of_encoded hm (exec_encoder_of_room hm h hroom)

/-- The host finds the whole frame at DST_ADDR, its length in DST_LEN. -/
theorem encoder_of_room_leaves {t : State} (hroom : s.recLen.toNat + p.minLen ≤ s.dstLen.toNat)
    (ht : exec p.encoder s = .next t) : t.result = .ok ∧ t.cfg = s.cfg ∧ t.mem.wf ∧
      t.mem.readList t.dstAddr.toNat t.dstLen.toNat = wholeFrame p s := by
  obtain rfl := Host.Outcome.next.inj ((exec_encoder_of_room hm h hroom).symm.trans ht)
  have hlen : (BitVec.ofNat 16 (s.recLen.toNat + p.minLen)).toNat = (wholeFrame p s).length := by
    rw [length_wholeFrame, BitVec.toNat_ofNat, Nat.mod_eq_of_lt (hroom.trans_lt s.dstLen.isLt)]
  refine ⟨rfl, by simp [encoded], Memory.writeList_wf hm _ _, ?_⟩
  simp only [encoded, State.complete_mem, State.complete_dstAddr, State.complete_dstLen, State.withDstLen_mem,
    State.withDstLen_dstAddr, State.withDstLen_dstLen, State.withWorkCrc_mem, State.withWorkCrc_dstAddr,
    State.withWorkOff_mem, State.withWorkOff_dstAddr, State.withMem_mem, State.withMem_dstAddr, hlen,
    Memory.readList_writeList hm]

end encode

/-! ### The decoders by verdict (R114 to R116, R124 to R126) -/

/-- The profile's decoder. -/
def Profile.decoder (p : Profile) : Instr :=
  match p with
  | .serial => .serDec
  | .radio => .radDec

section decode

variable {p : Profile} {s : State}

theorem exec_decoder_eq (h : s.ready p.decoder = true) : exec p.decoder s = decodeFrame p s := by
  have hop : operation p.decoder s = decodeFrame p s := by cases p <;> rfl
  rw [exec_ready h, hop]

/-- A ready decoder's frame and payload area are ordinary and apart. -/
theorem State.ready_decoder (h : s.ready p.decoder = true) :
    s.ordinary s.srcSpan = true ∧ s.ordinary s.payArea = true ∧ s.srcSpan.overlaps s.payArea = false := by
  have hchecked : checkedSpans p.decoder s = [s.srcSpan, s.payArea] := by cases p <;> rfl
  have hpair : spansOverlap p.decoder s = s.srcSpan.overlaps s.payArea := by cases p <;> rfl
  obtain ⟨-, hapart, hord, -⟩ := State.ready_iff.1 h
  rw [hchecked, List.all_eq_true] at hord
  exact ⟨hord _ (.head _), hord _ (.tail _ (.head _)), hpair ▸ hapart⟩

theorem exec_decoder_rejects (h : s.ready p.decoder = true) (hv : p.verdict s.cfg s.frame ≠ .ok) :
    ∃ wc, exec p.decoder s = .next ((s.withWorkCrc wc).complete (p.verdict s.cfg s.frame)) := by
  obtain ⟨hsrc, -, -⟩ := State.ready_decoder h
  rw [exec_decoder_eq h]
  exact decodeFrame_rejects hsrc hv

theorem exec_decoder_accepts (hm : s.mem.wf) (h : s.ready p.decoder = true) (hv : p.verdict s.cfg s.frame = .ok) :
    ∃ wc, exec p.decoder s = .next (accepted p s wc
      ((s.frame.drop p.hdrLen).take (s.srcLen.toNat - p.minLen)) (s.frame.getD 1 0#8) (s.frame.getD 2 0#8)
      (s.frame.getD 3 0#8) (s.frame.getD p.kindAt 0#8) (s.frame.getD p.lenAt 0#8)) := by
  obtain ⟨hsrc, hpay, hapart⟩ := State.ready_decoder h
  rw [exec_decoder_eq h]
  exact decodeFrame_accepts hm hsrc hpay hapart hv

@[simp] theorem accepted_mem (p : Profile) (s : State) (wc : Half) (payload : List Byte)
    (seq src dst kind len : Byte) :
    (accepted p s wc payload seq src dst kind len).mem = s.mem.writeList s.payAddr.toNat payload := by
  cases p <;> rfl

/-- The payload is at PAY_ADDR (R116, R126). -/
theorem accepted_readList {wc : Half} {payload : List Byte} {seq src dst kind len : Byte} {n : Nat} (hm : s.mem.wf)
    (hn : payload.length = n) :
    (accepted p s wc payload seq src dst kind len).mem.readList s.payAddr.toNat n = payload := by
  rw [accepted_mem, ← hn, Memory.readList_writeList hm]

/-- No byte but the payload's changes (R115, R125). -/
theorem accepted_read_out {wc : Half} {payload : List Byte} {seq src dst kind len : Byte} {n a : Nat} (hm : s.mem.wf)
    (hn : payload.length = n) (ha : a < s.payAddr.toNat ∨ s.payAddr.toNat + n ≤ a) :
    (accepted p s wc payload seq src dst kind len).mem.read a = s.mem.read a := by
  rw [accepted_mem, Memory.read_writeList_out hm _ _ (by rwa [hn])]

/-- SER_DEC writes the record's kind and length and no other register (R115). -/
theorem accepted_serial_eq (wc : Half) (payload : List Byte) (seq src dst kind len : Byte) :
    accepted .serial s wc payload seq src dst kind len =
      { s with result := .ok, busy := false, draws := s.draws + 1, recKind := kind, recLen := len,
               mem := (accepted .serial s wc payload seq src dst kind len).mem,
               workOff := (accepted .serial s wc payload seq src dst kind len).workOff,
               workCrc := (accepted .serial s wc payload seq src dst kind len).workCrc } := by
  simp [accepted, decodedIds, State.complete]

/-- A ready decoder ends with the verdict on its frame. -/
theorem exec_decoder_result (hm : s.mem.wf) (h : s.ready p.decoder = true) :
    ∃ v, exec p.decoder s = .next v ∧ v.result = p.verdict s.cfg s.frame := by
  by_cases hv : p.verdict s.cfg s.frame = .ok
  · obtain ⟨wc, hexec⟩ := exec_decoder_accepts hm h hv
    exact ⟨_, hexec, hv.symm⟩
  · obtain ⟨wc, hexec⟩ := exec_decoder_rejects h hv
    exact ⟨_, hexec, rfl⟩

/-- The payload of a frame that is long enough has the frame's length less the overhead. -/
theorem length_payload (hlen : p.minLen ≤ s.srcLen.toNat) :
    ((s.frame.drop p.hdrLen).take (s.srcLen.toNat - p.minLen)).length = s.srcLen.toNat - p.minLen := by
  have hmin := p.minLen_eq
  rw [List.length_take, List.length_drop, State.length_frame]
  omega

end decode

/-! ### A frame decoded after it was encoded (R118, R128) -/

section roundTrip

variable {p : Profile} {s : State}

/-- Reading the header fields back. -/
theorem Profile.getD_header (p : Profile) (s : State) : (p.header s).getD 0 0#8 = p.magic s.cfg ∧
    (p.header s).getD p.kindAt 0#8 = s.recKind ∧ (p.header s).getD p.lenAt 0#8 = s.recLen := by
  cases p <;> exact ⟨rfl, rfl, rfl⟩

theorem getD_wholeFrame {i : Nat} (hi : i < p.hdrLen) (b : Byte) :
    (wholeFrame p s).getD i b = (p.header s).getD i b := by
  rw [wholeFrame, frameBody, List.append_assoc, List.getD_append _ _ _ _ (by simpa using hi)]

theorem wholeFrame_intact : p.Intact s.cfg (wholeFrame p s) := by
  obtain ⟨hmagic, -, -⟩ := p.getD_header s
  have hpos := p.hdrLen_pos
  refine ⟨by simp, ?_, ?_⟩
  · rw [getD_wholeFrame (by omega), hmagic]
  · exact checksum_eq_half_iff.1 (half_lo_hi _).symm

/-- The frame of an encoder is accepted iff its kind is valid, and otherwise rejected for its kind. -/
theorem verdict_wholeFrame : p.verdict s.cfg (wholeFrame p s) =
    if s.cfg.kindCount.toNat ≤ s.recKind.toNat then .invalidMessageKind else .ok := by
  obtain ⟨-, hkind, hlen⟩ := p.getD_header s
  have hkindAt := p.kindAt_lt
  have hlenAt := p.lenAt_lt
  rw [wholeFrame_intact.verdict_eq, getD_wholeFrame hkindAt.2, getD_wholeFrame (by omega), hkind, hlen,
    length_wholeFrame, Nat.add_sub_cancel, if_neg (not_not.2 rfl)]

theorem payload_wholeFrame : ((wholeFrame p s).drop p.hdrLen).take s.recLen.toNat =
    s.mem.readList s.payAddr.toNat s.recLen.toNat := by
  rw [wholeFrame, frameBody, List.append_assoc, List.drop_left' (p.length_header s),
    List.take_left' (Memory.length_readList ..)]

variable {u : State} (hu : u.ready p.decoder = true) (hcfg : u.cfg = s.cfg) (hframe : u.frame = wholeFrame p s)
include hu hcfg hframe

/-- A decoder gives the record of the encoder back (R118 (a), R128 (a)). -/
theorem exec_decoder_wholeFrame_accepts (hm : u.mem.wf) (hkind : s.recKind.toNat < s.cfg.kindCount.toNat) :
    ∃ wc, exec p.decoder u = .next (accepted p u wc (s.mem.readList s.payAddr.toNat s.recLen.toNat)
      ((wholeFrame p s).getD 1 0#8) ((wholeFrame p s).getD 2 0#8) ((wholeFrame p s).getD 3 0#8) s.recKind
      s.recLen) := by
  have hv : p.verdict u.cfg u.frame = .ok := by
    rw [hcfg, hframe, verdict_wholeFrame, if_neg (Nat.not_le.2 hkind)]
  have hlen : u.srcLen.toNat - p.minLen = s.recLen.toNat := by
    rw [← State.length_frame, hframe, length_wholeFrame, Nat.add_sub_cancel]
  obtain ⟨-, hkindEq, hlenEq⟩ := p.getD_header s
  have hlenAt := p.lenAt_lt
  have h := exec_decoder_accepts hm hu hv
  rwa [hlen, hframe, payload_wholeFrame, getD_wholeFrame p.kindAt_lt.2,
    getD_wholeFrame (i := p.lenAt) (by omega), hkindEq, hlenEq] at h

/-- A decoder rejects the encoder's frame for an invalid kind (R118 (d)). -/
theorem exec_decoder_wholeFrame_rejects (hkind : s.cfg.kindCount.toNat ≤ s.recKind.toNat) :
    ∃ wc, exec p.decoder u = .next ((u.withWorkCrc wc).complete .invalidMessageKind) := by
  have hv : p.verdict u.cfg u.frame = .invalidMessageKind := by
    rw [hcfg, hframe, verdict_wholeFrame, if_pos hkind]
  have h := exec_decoder_rejects hu (by rw [hv]; simp)
  rwa [hv] at h

end roundTrip

end Sys2Proof.Machine
end

section
/-! SUPPORT. The Serial Frame Codec (R113 to R118), and what the decoders of both profiles make of a frame that was
damaged, cut or padded (R118, R128). -/

namespace Sys2Proof.Machine

open Sys2Proof

/-- Settles O41: the four bands of the shared encoder. -/
theorem serialEncodeByCapacity : Obligations.SerialEncodeByCapacity := fun _ hm h =>
  ⟨fun hcap => encoderEnds_of_no_header (p := .serial) hm h (Nat.lt_succ_of_le hcap),
    encoderEnds_of_header (p := .serial) hm h, encoderEnds_of_body (p := .serial) hm h,
    encoderEnds_of_room (p := .serial) hm h⟩

/-- Settles O43: a rejection completes on the state as it was, and an accepted frame on `accepted`. -/
theorem serialDecodeFollowsTheVerdict : Obligations.SerialDecodeFollowsTheVerdict := by
  intro s hm h
  refine ⟨fun hv => ?_, fun hv => ?_⟩
  · obtain ⟨wc, hexec⟩ := exec_decoder_rejects (p := .serial) h hv
    exact ⟨_, hexec, rfl⟩
  · obtain ⟨hmin, -, -, -, hlen⟩ := frameVerdict_eq_ok.1 hv
    rw [Memory.length_readList] at hmin hlen
    have hpay := length_payload (p := .serial) (s := s) hmin
    obtain ⟨wc, hexec⟩ := exec_decoder_accepts (p := .serial) hm h hv
    exact ⟨_, hexec, accepted_serial_eq .., hlen, accepted_readList hm hpay, fun _ => accepted_read_out hm hpay⟩

/-- Settles O45: the buffer holds the encoder's frame, and the decoder reads it where the encoder left it. -/
theorem serialRoundTrip : Obligations.SerialRoundTrip := by
  rintro s t u a hm hs hroom ht rfl hu
  obtain ⟨hres, hcfg, hwf, hframe⟩ := encoder_of_room_leaves (p := .serial) hm hs hroom ht
  refine ⟨hres, fun hkind => ?_, fun hkind => ?_⟩
  · obtain ⟨wc, hexec⟩ := exec_decoder_wholeFrame_accepts (p := .serial) hu hcfg hframe hwf hkind
    exact ⟨_, hexec, rfl, rfl, rfl, accepted_readList hwf (Memory.length_readList ..)⟩
  · obtain ⟨wc, hexec⟩ := exec_decoder_wholeFrame_rejects (p := .serial) hu hcfg hframe hkind
    exact ⟨_, hexec, rfl⟩

section damaged

variable {p : Profile} {s : State}

/-- A change of memory alone leaves a ready command ready. -/
theorem State.ready_withMem (s : State) (m : Memory) (i : Instr) : (s.withMem m).ready i = s.ready i := by
  cases i <;> rfl

/-- The decoder's verdict on the frame with the flipped bit (R118 (b), R128 (b)). -/
theorem decoder_rejects_flip (hm : s.mem.wf) {j k : Nat} (hj : j < s.srcLen.toNat) (hk : k < 8)
    (h : s.ready p.decoder = true) (hv : p.verdict s.cfg s.frame = .ok) :
    ∃ v, exec p.decoder (s.withMem (s.mem.write (s.srcAddr.toNat + j)
      (s.mem.read (s.srcAddr.toNat + j) ^^^ (1#8 <<< k)))) = .next v ∧
      v.result = if j = 0 then .magicMismatch else .checksumMismatch := by
  obtain ⟨v, hexec, hres⟩ := exec_decoder_result (p := p) (Memory.write_wf hm _ _) ((s.ready_withMem _ _).trans h)
  refine ⟨v, hexec, hres.trans ?_⟩
  have hframe : ∀ b, (s.withMem (s.mem.write (s.srcAddr.toNat + j) b)).frame = s.frame.set j b :=
    Memory.readList_write hm s.srcAddr.toNat j s.srcLen.toNat
  have hj : j < s.frame.length := by simpa using hj
  have hbyte : s.mem.read (s.srcAddr.toNat + j) = s.frame[j] := (Memory.getElem_readList _ _ _ hj).symm
  rw [hframe, hbyte]
  exact (Profile.intact_of_verdict (.inl hv)).verdict_flip hj hk

/-- The decoder's verdict on the frame cut short (R118 (c), R128 (c)). -/
theorem decoder_rejects_truncated (hm : s.mem.wf) {m : Half} (hlt : m.toNat < s.srcLen.toNat)
    (hv : p.verdict s.cfg s.frame = .ok) (hu : State.ready { s with srcLen := m } p.decoder = true) :
    ∃ v, exec p.decoder { s with srcLen := m } = .next v ∧
      if m.toNat < p.minLen then v.result = .frameTooShort
      else v.result = .checksumMismatch ∨ v.result = .lengthMismatch := by
  obtain ⟨v, hexec, hres⟩ := exec_decoder_result (p := p) (s := { s with srcLen := m }) hm hu
  have hframe : State.frame { s with srcLen := m } = s.frame.take m.toNat := (Memory.take_readList _ _ hlt.le).symm
  refine ⟨v, hexec, ?_⟩
  rw [hres, hframe]
  exact Profile.verdict_take hv (by simpa using hlt)

/-- The decoder's verdict on the frame with one zero byte more (R118 (e), R128 (d)). -/
theorem decoder_rejects_padded (hm : s.mem.wf) (hlen : 1 ≤ s.srcLen.toNat)
    (hzero : s.mem.read (s.srcAddr.toNat + s.srcLen.toNat - 1) = 0x00#8) (h : s.ready p.decoder = true) :
    (p.verdict s.cfg (s.mem.readList s.srcAddr.toNat (s.srcLen.toNat - 1)) = .ok →
      ∃ v, exec p.decoder s = .next v ∧ v.result = .lengthMismatch) ∧
    (p.verdict s.cfg (s.mem.readList s.srcAddr.toNat (s.srcLen.toNat - 1)) = .invalidMessageKind →
      ∃ v, exec p.decoder s = .next v ∧ v.result = .invalidMessageKind) := by
  obtain ⟨v, hexec, hres⟩ := exec_decoder_result hm h
  have hframe : s.frame = s.mem.readList s.srcAddr.toNat (s.srcLen.toNat - 1) ++ [0x00#8] := by
    obtain ⟨n, hn⟩ := Nat.exists_eq_add_of_le' hlen
    rw [hn] at hzero
    rw [State.frame, hn, Memory.readList_append, Nat.add_sub_cancel, ← hzero]
    rfl
  rw [hframe] at hres
  exact ⟨fun hv => ⟨v, hexec, hres.trans (Profile.verdict_padded_of_ok hv)⟩,
    fun hv => ⟨v, hexec, hres.trans (Profile.verdict_padded_of_invalidMessageKind hv)⟩⟩

end damaged

/-- Settles O47: the flipped bit on the frame's bytes, for each profile. -/
theorem singleBitCorruptionIsRejected : Obligations.SingleBitCorruptionIsRejected := by
  rintro s _ j k hm hj hk _ rfl
  exact ⟨decoder_rejects_flip (p := .serial) hm hj hk, decoder_rejects_flip (p := .radio) hm hj hk⟩

/-- Settles O48: the first bytes of the frame, for each profile. -/
theorem truncatedFramesAreRejected : Obligations.TruncatedFramesAreRejected := by
  rintro s _ m hm hlt rfl
  exact ⟨fun _ => decoder_rejects_truncated (p := .serial) hm hlt,
    fun _ => decoder_rejects_truncated (p := .radio) hm hlt⟩

/-- Settles O49: the padded bytes, for each profile. -/
theorem paddedFramesFailTheLengthCheck : Obligations.PaddedFramesFailTheLengthCheck := fun _ hm hlen hzero =>
  ⟨decoder_rejects_padded (p := .serial) hm hlen hzero, decoder_rejects_padded (p := .radio) hm hlen hzero⟩

end Sys2Proof.Machine
end

section
/-! SUPPORT. The Radio Frame Codec (R119 to R128): the shared codec's rules at the radio profile, with the three header
bytes the serial profile does not have. -/

namespace Sys2Proof.Machine

open Sys2Proof

/-- Settles O42: the four bands of the shared encoder, with the radio header. -/
theorem radioEncodeByCapacity : Obligations.RadioEncodeByCapacity := fun _ hm h =>
  ⟨fun hcap => encoderEnds_of_no_header (p := .radio) hm h (Nat.lt_succ_of_le hcap),
    encoderEnds_of_header (p := .radio) hm h, encoderEnds_of_body (p := .radio) hm h,
    encoderEnds_of_room (p := .radio) hm h⟩

/-- RAD_DEC writes the five record registers and no other register (R125, R126). -/
theorem accepted_radio_eq (s : State) (wc : Half) (payload : List Byte) (seq src dst kind len : Byte) :
    accepted .radio s wc payload seq src dst kind len =
      { s with result := .ok, busy := false, draws := s.draws + 1, recSeq := seq, recSrcId := src, recDstId := dst,
               recKind := kind, recLen := len,
               mem := (accepted .radio s wc payload seq src dst kind len).mem,
               workOff := (accepted .radio s wc payload seq src dst kind len).workOff,
               workCrc := (accepted .radio s wc payload seq src dst kind len).workCrc } := by
  simp [accepted, decodedIds, State.complete]

/-- Settles O44: a rejection completes on the state as it was, and an accepted frame on `accepted`, whose length is the
one stage 5 compared. -/
theorem radioDecodeFollowsTheVerdict : Obligations.RadioDecodeFollowsTheVerdict := by
  intro s hm h
  refine ⟨fun hv => ?_, fun hv => ?_⟩
  · obtain ⟨wc, hexec⟩ := exec_decoder_rejects (p := .radio) h hv
    exact ⟨_, hexec, rfl⟩
  · obtain ⟨hmin, -, -, -, hlen⟩ := frameVerdict_eq_ok.1 hv
    rw [Memory.length_readList] at hmin hlen
    have hpay := length_payload (p := .radio) (s := s) hmin
    obtain ⟨wc, hexec⟩ := exec_decoder_accepts (p := .radio) hm h hv
    exact ⟨_, hexec, accepted_radio_eq .., hlen, accepted_readList hm hpay, fun _ => accepted_read_out hm hpay⟩

/-- Bytes 1, 2 and 3 of an encoded radio frame are the sequence number and the two ids, carried opaquely (R122). -/
theorem getD_wholeFrame_radio_ids (s : State) : (wholeFrame .radio s).getD 1 0#8 = s.recSeq ∧
    (wholeFrame .radio s).getD 2 0#8 = s.recSrcId ∧ (wholeFrame .radio s).getD 3 0#8 = s.recDstId := by
  have hdr : Profile.radio.hdrLen = 6 := rfl
  rw [getD_wholeFrame (by omega), getD_wholeFrame (by omega), getD_wholeFrame (by omega)]
  exact ⟨rfl, rfl, rfl⟩

/-- Settles O46: the buffer holds the encoder's frame, and the decoder takes the record from its header bytes. -/
theorem radioRoundTrip : Obligations.RadioRoundTrip := by
  rintro s t u a hm hs hroom ht rfl hu
  obtain ⟨hres, hcfg, hwf, hframe⟩ := encoder_of_room_leaves (p := .radio) hm hs hroom ht
  refine ⟨hres, fun hkind => ?_, fun hkind => ?_⟩
  · obtain ⟨hseq, hsrc, hdst⟩ := getD_wholeFrame_radio_ids s
    obtain ⟨wc, hexec⟩ := exec_decoder_wholeFrame_accepts (p := .radio) hu hcfg hframe hwf hkind
    exact ⟨_, hexec, rfl, hseq, hsrc, hdst, rfl, rfl, accepted_readList hwf (Memory.length_readList ..)⟩
  · obtain ⟨wc, hexec⟩ := exec_decoder_wholeFrame_rejects (p := .radio) hu hcfg hframe hkind
    exact ⟨_, hexec, rfl⟩

end Sys2Proof.Machine
end

section
/-! SUPPORT. The Message Kind Registry (R130, R131): which kind bytes are valid, and what KIND_CHECK leaves. -/

namespace Sys2Proof.Machine

open Sys2Proof

/-- KIND_CHECK has no span to check. -/
theorem ready_kindCheck (s : State) : s.ready .kindCheck = true := State.ready_of_empty rfl nofun nofun nofun

/-- KIND_CHECK completes in every state, changing STATUS alone (R131). -/
theorem exec_kindCheck (s : State) : exec .kindCheck s =
    .next (s.complete (if s.recKind.toNat < s.cfg.kindCount.toNat then .ok else .invalidMessageKind)) := by
  rw [exec_ready (ready_kindCheck s), operation, checkKind]
  by_cases h : s.recKind.toNat < s.cfg.kindCount.toNat
  · simp [kindValid, h]
  · simp [kindValid, h]

/-- Settles O50: no KIND_COUNT exceeds 0xFF, and a legal one exceeds 0. -/
theorem kindCheckComparesWithTheCount : Obligations.KindCheckComparesWithTheCount := by
  refine ⟨decode_encode .kindCheck, fun s => ⟨exec_kindCheck s, fun hkind => ?_, fun ⟨_, hcount, _⟩ hkind => ?_⟩⟩
  · have hinvalid : ¬ s.recKind.toNat < s.cfg.kindCount.toNat := by
      rw [hkind]
      exact Nat.not_lt.2 (Nat.le_of_lt_succ s.cfg.kindCount.isLt)
    rw [exec_kindCheck, if_neg hinvalid, State.complete]
  · have hvalid : s.recKind.toNat < s.cfg.kindCount.toNat := by
      rw [hkind]
      exact Nat.lt_of_lt_of_le (by decide) hcount
    rw [exec_kindCheck, if_pos hvalid, State.complete]

end Sys2Proof.Machine
end

section
/-! SUPPORT. What a failing command has done to memory (R137): only a frame encoder stores bytes before it can fail. -/

namespace Sys2Proof.Machine

open Sys2Proof

/-- APPEND stores bytes only on its way to OK (R105, R107). -/
theorem AppendLeaves.mem_or_ok {s t : State} (h : AppendLeaves s t) : t.mem = s.mem ∨ t.result = .ok := by
  rcases h with ⟨-, rfl⟩ | ⟨-, -, rfl⟩ | ⟨-, -, rfl⟩
  · exact .inl rfl
  · exact .inl rfl
  · exact .inr rfl

/-- A decoder stores the payload only when it accepts the frame (R115, R125). -/
theorem DecoderLeaves.mem_or_ok {p : Profile} {s t : State} (h : DecoderLeaves p s t) :
    t.mem = s.mem ∨ t.result = .ok := by
  rcases h with ⟨r, wc, -, rfl⟩ | ⟨wc, payload, seq, src, dst, kind, len, -, -, -, rfl⟩
  · exact .inl rfl
  · exact .inr rfl

/-- Settles O52: APPEND and the decoders store bytes only on their way to OK, and the other commands store none. -/
theorem failedCommandsWriteNoMemory : Obligations.FailedCommandsWriteNoMemory := by
  intro i s t h hfail hser hrad
  rcases exec_eq_next h with rfl | ⟨-, -, h⟩
  · rfl
  cases i with
  | crcInit | crcByte | crcSpan | kindCheck =>
    obtain rfl := h
    rfl
  | append => exact h.mem_or_ok.resolve_right hfail
  | serDec | radDec => exact h.mem_or_ok.resolve_right hfail
  | serEnc => exact absurd rfl hser
  | radEnc => exact absurd rfl hrad

end Sys2Proof.Machine
end

section
/-! SUPPORT. Reset (R153 to R155) and what the host meets while a command runs (R160 to R162). A reset of a running
command is read byte by byte: inside the write span each byte is a draw between two values, outside it is kept. -/

namespace Sys2Proof.Machine

open Sys2Proof

/-! ### Reset (R153 to R155) -/

/-- A byte of the running command's write span holds, by its own draw, what the abandoned command would have left or
what it held (R154). -/
theorem abandonCommand_read_in {s : State} (hm : s.mem.wf) {sp : Span} (hsp : sp ∈ runningWrites s) {k : Nat}
    (hk : k < sp.len) : (abandonCommand s).mem.read (sp.start + k) =
      if Config.freeBit s.draws k then abandonedBytes s (sp.start + k) else s.mem.read (sp.start + k) := by
  obtain hnone | ⟨sp', hone⟩ := runningWrites_cases s
  · simp [hnone] at hsp
  · obtain rfl : sp = sp' := by simpa [hone] using hsp
    have hread := read_mixBytes_in (d := s.draws) (k := 0) (after := abandonedBytes s) hm (a := sp.start) hk
    rw [Nat.zero_add] at hread
    rw [abandonCommand, hone]
    exact hread

/-- Settles O25: inside the write span by what the command's step answers, a next state, stuck or refused; outside it
no byte is drawn. -/
theorem resetWhileBusyMixesTheWriteSpan : Obligations.ResetWhileBusyMixesTheWriteSpan := by
  intro s hm hb
  have hreset : hostOp .resetInput s = .next (abandonCommand s) := by rw [hostOp, resetInput, if_pos hb]
  refine ⟨abandonCommand s, hreset, rfl, fun u hu sp hsp k hk => ?_, fun f hf => ?_, fun r hr sp hsp k hk => ?_,
    fun a ha => read_mixSpans_out hm ha⟩
  · rw [abandonCommand_read_in hm hsp hk, abandonedBytes_of_step hu]
  · obtain ⟨u, hu⟩ := engineStep_answered hf
    refine ⟨u, hu, fun sp hsp k hk => ?_⟩
    rw [abandonCommand_read_in hm hsp hk, abandonedBytes_of_stuck hf hu]
  · rw [abandonCommand_read_in hm hsp hk, abandonedBytes_of_refused hr, anyByte]
    cases Config.freeBit s.draws k <;> simp

/-- Settles O24: with BUSY = 0 there is no command to abandon, and the register reset is all of the reset. -/
theorem resetInputGivesTheResetValues : Obligations.ResetInputGivesTheResetValues := by
  intro s hb
  have hreset : resetInput s = .next s.resetRegisters := by rw [resetInput, hb]; rfl
  exact hreset

/-! ### Register-port accesses while BUSY = 1 (R160, R161) -/

/-- Settles O17: the map has every register at its offset, and there the write asks for BUSY = 0. -/
theorem registerWritesWhileBusyAreRefused : Obligations.RegisterWritesWhileBusyAreRefused :=
  fun s r v hb => (hostOp_portWrite_reg r v s).trans (if_pos hb)

theorem hostOp_portRead_busy {s : State} {off : Byte} (ha : off.toNat % 4 = 0) (hb : s.busy = true) :
    hostOp (.portRead off .word) s = .next (s.reply (.port (portValueBusy off s))).tick := by
  simp [hostOp, hostPortRead, portForm_iff.2 ⟨rfl, ha⟩, hb]

theorem portValueBusy_status {s : State} (hb : s.busy = true) :
    portValueBusy Reg.status.offset s = 0#23 ++ 1#1 ++ s.lastOp ++ s.result.code := by
  have hword : portValueBusy Reg.status.offset s = s.statusWord := rfl
  rw [hword, State.statusWord, hb]
  rfl

theorem portValueBusy_free {r : Reg} (hst : r ≠ .status) (hcfg : r ≠ .config) (s : State) :
    portValueBusy r.offset s = r.keep s.cfg (Config.freeWord s.draws) := by
  rw [portValueBusy, Reg.ofOffset_offset]
  cases r with
  | status => exact absurd rfl hst
  | config => exact absurd rfl hcfg
  | _ => rfl

theorem portValueBusy_reserved {off : Byte} (hr : 0x3C ≤ off.toNat) (s : State) : portValueBusy off s = 0#32 := by
  rw [portValueBusy, Reg.ofOffset_reserved hr]

/-- Settles O18: every aligned read answers the port's value while BUSY = 1, which the map gives. -/
theorem busyReadsReturnStatusConfigOrADraw : Obligations.BusyReadsReturnStatusConfigOrADraw := by
  intro s hb
  have hreg : ∀ r : Reg, hostOp (.portRead r.offset .word) s =
      .next (s.reply (.port (portValueBusy r.offset s))).tick :=
    fun r => hostOp_portRead_busy r.offset_aligned.1 hb
  refine ⟨(hreg .status).trans ?_, hreg .config, fun r hst hcfg => (hreg r).trans ?_,
    fun off ha hr => (hostOp_portRead_busy ha hb).trans ?_⟩
  · rw [portValueBusy_status hb]
    rfl
  · rw [portValueBusy_free hst hcfg]
    rfl
  · rw [portValueBusy_reserved hr]
    rfl

/-! ### Data-memory accesses while BUSY = 1 (R162) -/

theorem inRunningSpans_of_contains {s : State} {i : Instr} {sp : Span} {a : Nat} (hb : s.busy = true)
    (hi : decode s.pending = .ok i) (hsp : sp ∈ readSpans i s ++ writeSpans i s) (ha : sp.contains a = true) :
    inRunningSpans s a = true := by
  rw [inRunningSpans, runningReads, runningWrites, hb, hi, Bool.true_and]
  exact List.any_eq_true.2 ⟨sp, hsp, ha⟩

theorem hostAccess_running {s : State} {a : Nat} (ha : a < 2 ^ s.cfg.addrW) (hrun : inRunningSpans s a = true)
    (k : State → Res State) : hostAccess a s k = .refused .accessToRunningSpan := by
  simp [hostAccess, Nat.not_le.2 ha, hrun]

/-- Settles O20: an address of either column is in the running command's spans, where every access is refused. -/
theorem hostAccessToRunningSpansIsRefused : Obligations.HostAccessToRunningSpansIsRefused := by
  intro s i sp a b hb hi hsp hlo hhi ha
  have hrun : inRunningSpans s a = true := inRunningSpans_of_contains hb hi hsp (Span.contains_iff.2 ⟨hlo, hhi⟩)
  exact hostOp_memory_stops (hostAccess_running ha hrun) b

end Sys2Proof.Machine
end
